-- ==== Sys2Proof/Word.lean ====
section
/-! DEFINITION. The word types of the GCM core: bytes, register words, cipher blocks and nonces (00_scope.md R7, R9, R10). -/

namespace Sys2Proof

/-- A byte is 8 bits (00_scope.md R10). -/
abbrev Byte := BitVec 8

/-- A host-visible register value: REG_BITS = 64 (00_scope.md R9). -/
abbrev Word := BitVec 64

/-- A cipher block in its 128-bit integer view: byte 0 is bits 127 down to 120 (00_scope.md R7, R10). -/
abbrev Block := BitVec 128

/-- A 96-bit nonce, byte 0 most significant (00_scope.md R7). -/
abbrev Nonce := BitVec 96

end Sys2Proof
end

