-- ==== Sys2Proof/Config.lean ====
section
/-! DEFINITION. What the spec leaves open and the core consumes only through a contract (00_scope.md R5, R8), and the
free values of 93_implementation_defined.md. Every constant here is uninterpreted: no proof can see its value.
KEY_BYTES, MEM_ACCESSIBLE and the side-effect ranges are plain data and stand in `State.platform` (log 2). -/

namespace Sys2Proof

/-- E, the external block cipher: key bytes, then block (42_keystream_generator.md R140). OPEN; log 3. -/
opaque Config.encrypt : List Byte → Block → Block

/-- MUL, the external GF(2^128) multiply-reduce: state, then subkey (43_ghash_accumulator.md R160). OPEN; log 4. -/
opaque Config.mul : Block → Block → Block

/-- REG_BASE, the platform address of the register window (20_memory.md R74). The core does not read it; log 25. -/
opaque Config.regBase : Word

/-- Draws between two admissible values: 'true' takes the new value (20_memory.md R63, 70_reset_and_hazards.md R231).
Applied to the counter `State.draws`; log 8. -/
opaque Config.freeBit : Nat → Bool

/-- Bytes the spec leaves wholly unspecified (70_reset_and_hazards.md R236). Applied to `State.draws`; log 10, log 11. -/
opaque Config.freeByte : Nat → Byte

/-- The contract of E: for every key a permutation of the blocks (42_keystream_generator.md R140).
A named premise (93_implementation_defined.md U1), never assumed of `Config.encrypt`. -/
def CipherContract (encrypt : List Byte → Block → Block) : Prop :=
  ∀ key, Function.Bijective (encrypt key)

/-- The laws of MUL (43_ghash_accumulator.md R160): the zero law, commutativity, and additivity over block XOR.
A named premise (93_implementation_defined.md U2), never assumed of `Config.mul`. -/
structure MulContract (mul : Block → Block → Block) : Prop where
  zero_mul : ∀ h, mul 0#128 h = 0#128
  comm : ∀ y h, mul y h = mul h y
  xor_mul : ∀ a b h, mul (a ^^^ b) h = mul a h ^^^ mul b h

end Sys2Proof
end

