-- ==== Sys2Proof/Machine/Bytes.lean ====
section
/-! DEFINITION. Byte strings and blocks (00_scope.md R10, R11). -/

namespace Sys2Proof.Machine

/-- BLOCK_BYTES (00_scope.md R7). -/
def blockBytes : Nat := 16

/-- Byte k of a block: byte 0 is the most significant (00_scope.md R10). -/
def blockByte (b : Block) (k : Nat) : Byte := b.extractLsb' (8 * (15 - k)) 8

/-- The sixteen bytes of a block, in order (00_scope.md R10). -/
def bytesOfBlock (b : Block) : List Byte := (List.range blockBytes).map (blockByte b)

/-- The integer view of a byte string, first byte most significant (00_scope.md R10). -/
def natOfBytes (bytes : List Byte) : Nat := bytes.foldl (fun acc b => acc * 256 + b.toNat) 0

/-- `s ++ zeros(16 - |s|)`: at most 16 bytes, zero-padded inside the core (00_scope.md R11, 20_memory.md R73). -/
def padBlock (bytes : List Byte) : List Byte := bytes ++ List.replicate (blockBytes - bytes.length) 0

/-- The block of a byte string of at most 16 bytes, zero-padded (00_scope.md R11). -/
def blockOfBytes (bytes : List Byte) : Block := BitVec.ofNat 128 (natOfBytes (padBlock bytes))

/-- The nonce of 12 bytes: nonce byte k becomes J0 byte k (20_memory.md R65). -/
def nonceOfBytes (bytes : List Byte) : Nonce := BitVec.ofNat 96 (natOfBytes bytes)

/-- be32: the value mod 2^32, most significant byte first (00_scope.md R11). -/
def be32 (v : Nat) : BitVec 32 := BitVec.ofNat 32 v

/-- be64: the value, most significant byte first, for v < 2^64 (00_scope.md R11; beyond it, log 15). -/
def be64 (v : Nat) : BitVec 64 := BitVec.ofNat 64 v

/-- Bytewise XOR (00_scope.md R11). -/
def xorBytes (a b : List Byte) : List Byte := List.zipWith (· ^^^ ·) a b

/-- nblocks(n) = ceil(n / 16) (00_scope.md R11). -/
def nblocks (n : Nat) : Nat := (n + 15) / 16

/-- The valid bytes of block i of a string of `len` bytes: min(16, len − 16·i) (20_memory.md R70). -/
def blockLen (len i : Nat) : Nat := min blockBytes (len - 16 * i)

/-- CTR(c) = J0[0..12) ++ be32(c mod 2^32) (42_keystream_generator.md R142, 30_encoding.md R87). -/
def counterBlock (j0 : Block) (c : Nat) : Block := j0.extractLsb' 32 96 ++ be32 c

/-- J0 = NONCER ++ be32(0) (30_encoding.md R87). -/
def initialCounterBlock (nonce : Nonce) : Block := nonce ++ be32 0

/-- TR = be64(8·AAD_LEN) ++ be64(8·PT_LEN) (30_encoding.md R88). -/
def lengthTrailer (aadLen ptLen : Nat) : Block := be64 (8 * aadLen) ++ be64 (8 * ptLen)

end Sys2Proof.Machine
end

