-- ==== Sys2Proof/Syntax.lean ====
section
/-! DEFINITION. The instruction set: one constructor of `Instr` per row of the opcode table, over the names of the
sixteen host-visible registers (10_state.md R20). -/

namespace Sys2Proof

/-- The sixteen host-visible registers, in the order of their offsets (10_state.md R20). -/
inductive HostReg where
  | cmd | status | errCode | errAddr | irqEn
  | keyAddr | nonceAddr | nonceLen | aadAddr | aadLen | ptAddr | ptLen | ctAddr | ctCap | tagAddr | tagCap
  deriving DecidableEq, Repr

/-- The twelve legal values of STATE (10_state.md R51, 30_encoding.md R85). Codes 12 to 15 are never held. -/
inductive Stage where
  | idle | validate | load | deriveSubkey | buildJ0 | keystream | buildGhash | accumulate | computeMask | finalizeTag
  | done | error
  deriving DecidableEq, Repr

/-- The fifteen operations: host transactions, commands and micro-operations (30_encoding.md section 1). -/
inductive Instr where
  /-- Read a host-visible register (40_host_interface.md R100). -/
  | regRead (reg : HostReg)
  /-- Write a host-visible register other than CMD (40_host_interface.md R101). -/
  | regWrite (reg : HostReg) (value : Word)
  /-- Command 0 (40_host_interface.md R105). -/
  | nop
  /-- Command 1: begin a call (40_host_interface.md R106). -/
  | start
  /-- Command 2: return to IDLE (40_host_interface.md R107). -/
  | clear
  /-- Any other command value (40_host_interface.md R108). -/
  | cmdReserved (value : Word)
  /-- Check the descriptors (41_setup.md R120). -/
  | validate
  /-- Copy key and nonce into the core (41_setup.md R122). -/
  | load
  /-- H = E(K, 0^128) (41_setup.md R124). -/
  | deriveSubkey
  /-- Form the initial counter block (41_setup.md R125). -/
  | buildJ0
  /-- Process one pair of blocks (42_keystream_generator.md R145). -/
  | keystreamPair
  /-- Set up the GHASH fold (43_ghash_accumulator.md R164). -/
  | buildGhash
  /-- Fold one GHASH block (43_ghash_accumulator.md R165). -/
  | accumulate
  /-- M = E(K, J0) (44_tag_finalizer.md R180). -/
  | computeMask
  /-- Form and store the tag (44_tag_finalizer.md R181). -/
  | finalizeTag
  deriving DecidableEq, Repr

end Sys2Proof
end

