-- ==== Sys2Proof/WellFormed.lean ====
section
/-! DEFINITION. Which terms of `Instr` stand for an encoding (30_encoding.md R82, R83). -/

namespace Sys2Proof

/-- The command values that have an instruction of their own: NOP, START, CLEAR (30_encoding.md R83). -/
def namedCommand (value : Word) : Bool := value == 0 || value == 1 || value == 2

/-- REG_WRITE never addresses CMD (40_host_interface.md R101), and a reserved command is none of 0, 1, 2
(40_host_interface.md R108). Every other term is well formed. -/
def Instr.wf : Instr → Bool
  | .regWrite reg _ => reg != .cmd
  | .cmdReserved value => !namedCommand value
  | .regRead _ => true
  | .nop => true
  | .start => true
  | .clear => true
  | .validate => true
  | .load => true
  | .deriveSubkey => true
  | .buildJ0 => true
  | .keystreamPair => true
  | .buildGhash => true
  | .accumulate => true
  | .computeMask => true
  | .finalizeTag => true

end Sys2Proof
end

