-- ==== Sys2Proof/Decode.lean ====
section
/-! DEFINITION. The three formats of 30_encoding.md, their decoder (total, rejecting by name) and the encoder. -/

namespace Sys2Proof

/-! ## Codes -/

/-- The index of a register: its offset divided by 8 (10_state.md R20, 30_encoding.md R81). -/
def HostReg.index : HostReg → BitVec 4
  | .cmd => 0
  | .status => 1
  | .errCode => 2
  | .errAddr => 3
  | .irqEn => 4
  | .keyAddr => 5
  | .nonceAddr => 6
  | .nonceLen => 7
  | .aadAddr => 8
  | .aadLen => 9
  | .ptAddr => 10
  | .ptLen => 11
  | .ctAddr => 12
  | .ctCap => 13
  | .tagAddr => 14
  | .tagCap => 15

/-- The register an index names: all sixteen indices name one (30_encoding.md R81). -/
def HostReg.ofIndex (index : BitVec 4) : HostReg :=
  match index.toNat with
  | 0 => .cmd
  | 1 => .status
  | 2 => .errCode
  | 3 => .errAddr
  | 4 => .irqEn
  | 5 => .keyAddr
  | 6 => .nonceAddr
  | 7 => .nonceLen
  | 8 => .aadAddr
  | 9 => .aadLen
  | 10 => .ptAddr
  | 11 => .ptLen
  | 12 => .ctAddr
  | 13 => .ctCap
  | 14 => .tagAddr
  | _ => .tagCap

/-- The byte offset of a register in the window: 8 · index (10_state.md R20). -/
def HostReg.offset (reg : HostReg) : BitVec 7 := reg.index ++ (0 : BitVec 3)

/-- The STATE code (30_encoding.md R85). -/
def Stage.code : Stage → BitVec 4
  | .idle => 0
  | .validate => 1
  | .load => 2
  | .deriveSubkey => 3
  | .buildJ0 => 4
  | .keystream => 5
  | .buildGhash => 6
  | .accumulate => 7
  | .computeMask => 8
  | .finalizeTag => 9
  | .done => 10
  | .error => 11

/-- The STATE value a code stands for; codes 12 to 15 are unused (30_encoding.md R85). -/
def Stage.ofCode (code : BitVec 4) : Option Stage :=
  match code.toNat with
  | 0 => some .idle
  | 1 => some .validate
  | 2 => some .load
  | 3 => some .deriveSubkey
  | 4 => some .buildJ0
  | 5 => some .keystream
  | 6 => some .buildGhash
  | 7 => some .accumulate
  | 8 => some .computeMask
  | 9 => some .finalizeTag
  | 10 => some .done
  | 11 => some .error
  | _ => none

/-! ## Formats -/

/-- A word of one of the three formats (30_encoding.md section 1). -/
inductive Encoded where
  /-- One register-port transaction (R80). -/
  | hosttx (word : BitVec 72)
  /-- The data word of a write to CMD (R83). -/
  | cmdw (word : BitVec 64)
  /-- A STATE code (R85). -/
  | ustate (code : BitVec 4)
  deriving DecidableEq, Repr

/-- Why a word stands for no instruction. -/
inductive Reject where
  /-- A read with OFFSET[2:0] ≠ 0: it returns 0 (30_encoding.md R81). -/
  | misalignedRead
  /-- A write with OFFSET[2:0] ≠ 0: it has no effect (30_encoding.md R81). -/
  | misalignedWrite
  /-- STATE is IDLE, DONE or ERROR: the sequencer has no step (30_encoding.md R85). -/
  | noMicroOperation
  /-- STATE codes 12 to 15: never held (30_encoding.md R85). -/
  | unusedStateCode
  deriving DecidableEq, Repr

/-- What a word decodes to. -/
inductive Decoded where
  | instr (i : Instr)
  | rejected (why : Reject)
  deriving DecidableEq, Repr

/-- A HOSTTX word from its fields: WE bit 71, OFFSET bits 70:64, WDATA bits 63:0 (30_encoding.md R80). -/
def hosttxWord (we : Bool) (offset : BitVec 7) (wdata : Word) : BitVec 72 :=
  BitVec.ofBool we ++ offset ++ wdata

/-- The WE field (30_encoding.md R80). -/
def hosttxWe (tx : BitVec 72) : Bool := tx.getLsbD 71

/-- The OFFSET field (30_encoding.md R80). -/
def hosttxOffset (tx : BitVec 72) : BitVec 7 := tx.extractLsb' 64 7

/-- The WDATA field (30_encoding.md R80). -/
def hosttxWdata (tx : BitVec 72) : Word := tx.extractLsb' 0 64

/-! ## Decoder -/

/-- CMDW: the whole 64-bit value is compared (30_encoding.md R83). -/
def decodeCmd (word : Word) : Instr :=
  if word = 0 then .nop else if word = 1 then .start else if word = 2 then .clear else .cmdReserved word

/-- HOSTTX: misaligned, read, command or write, in this order (30_encoding.md R82). -/
def decodeHosttx (tx : BitVec 72) : Decoded :=
  let offset := hosttxOffset tx
  if offset.extractLsb' 0 3 ≠ 0 then .rejected (if hosttxWe tx then .misalignedWrite else .misalignedRead)
  else if hosttxWe tx = false then .instr (.regRead (HostReg.ofIndex (offset.extractLsb' 3 4)))
  else if offset = 0 then .instr (decodeCmd (hosttxWdata tx))
  else .instr (.regWrite (HostReg.ofIndex (offset.extractLsb' 3 4)) (hosttxWdata tx))

/-- USTATE: the micro-operation a STATE selects (30_encoding.md R85). -/
def microOperation : Stage → Option Instr
  | .idle => none
  | .validate => some .validate
  | .load => some .load
  | .deriveSubkey => some .deriveSubkey
  | .buildJ0 => some .buildJ0
  | .keystream => some .keystreamPair
  | .buildGhash => some .buildGhash
  | .accumulate => some .accumulate
  | .computeMask => some .computeMask
  | .finalizeTag => some .finalizeTag
  | .done => none
  | .error => none

/-- USTATE from its code (30_encoding.md R85). -/
def decodeUstate (code : BitVec 4) : Decoded :=
  match Stage.ofCode code with
  | none => .rejected .unusedStateCode
  | some stage =>
    match microOperation stage with
    | none => .rejected .noMicroOperation
    | some i => .instr i

/-- The decoder of all three formats. -/
def decode : Encoded → Decoded
  | .hosttx tx => decodeHosttx tx
  | .cmdw word => .instr (decodeCmd word)
  | .ustate code => decodeUstate code

/-! ## Encoder -/

/-- The word of a well-formed instruction, in its own format. A read carries WDATA = 0 (30_encoding.md R80). -/
def encode : Instr → Encoded
  | .regRead reg => .hosttx (hosttxWord false reg.offset 0)
  | .regWrite reg value => .hosttx (hosttxWord true reg.offset value)
  | .nop => .cmdw 0
  | .start => .cmdw 1
  | .clear => .cmdw 2
  | .cmdReserved value => .cmdw value
  | .validate => .ustate 1
  | .load => .ustate 2
  | .deriveSubkey => .ustate 3
  | .buildJ0 => .ustate 4
  | .keystreamPair => .ustate 5
  | .buildGhash => .ustate 6
  | .accumulate => .ustate 7
  | .computeMask => .ustate 8
  | .finalizeTag => .ustate 9

/-- The HOSTTX transaction that carries a CMDW word: a write to OFFSET 0x00 (30_encoding.md R82, R83). -/
def commandTx (word : Word) : BitVec 72 := hosttxWord true 0 word

/-- The register-port transaction of a host operation; none for a micro-operation, which the host cannot issue. -/
def hostTx (i : Instr) : Option (BitVec 72) :=
  match encode i with
  | .hosttx tx => some tx
  | .cmdw word => some (commandTx word)
  | .ustate _ => none

/-! ## The opcode table's words -/

/-- The word of `nbits` bits numbered as the opcode table numbers them, in the format of that length: up to 8 bits
USTATE (4 bits, the rest zero), up to 64 CMDW, up to 72 HOSTTX (30_encoding.md section 1; log 19). -/
def tableWord (nbits w : Nat) : Option Encoded :=
  if 2 ^ nbits ≤ w then none
  else if nbits ≤ 8 then (if w < 16 then some (.ustate (BitVec.ofNat 4 w)) else none)
  else if nbits ≤ 64 then some (.cmdw (BitVec.ofNat 64 w))
  else if nbits ≤ 72 then some (.hosttx (BitVec.ofNat 72 w))
  else none

/-- The instruction the decoder reads from a word of the opcode table. -/
def decodeTableWord (nbits w : Nat) : Option Instr :=
  match tableWord nbits w with
  | none => none
  | some word =>
    match decode word with
    | .instr i => some i
    | .rejected _ => none

end Sys2Proof
end

