-- ==== Sys2Proof/Machine/State.lean ====
section
/-! DEFINITION. The state of the machine as plain data: the core's registers (10_state.md), the data memory it reaches
(20_memory.md), the platform's parameters, and the pending moves of the environment. -/

namespace Sys2Proof.Machine

/-- What may stop the machine for good. -/
inductive Fault where
  /-- Raised by the memory primitives for an access that would pass address 2^64 (20_memory.md R62, 00_scope.md R13).
  VALIDATE rejects every such region first (41_setup.md R120), so no run reaches it. Safe: the model stops where the
  spec gives no address. -/
  | outsideAddressSpace
  deriving DecidableEq, Repr

/-- What the model gives no meaning to. -/
inductive Refusal where
  /-- Raised by a refused arm of `exec` alone: the instruction of that mnemonic has no meaning yet. Safe. -/
  | notModelled (mnemonic : String)
  /-- Raised by the memory primitives for an access to memory whose reads have side effects: "a model gives such a call
  no meaning" (20_memory.md R72, 93_implementation_defined.md U11). Safe. -/
  | readSideEffects
  deriving DecidableEq, Repr

/-- The error codes of 60_exceptions.md R200, by name. Codes 8 to 255 are never written. -/
inductive ErrorCode where
  | none | invalidNonceLength | lengthOverflow | bufferTooSmall | addressRange | bufferOverlap | busError | badCommand
  deriving DecidableEq, Repr

/-- The kinds of a data-memory transaction (00_scope.md R8). -/
inductive AccessKind where
  | read | write
  deriving DecidableEq, Repr

/-- `size` bytes of data memory from `base`: a region (41_setup.md R121) or a range of the platform's address map. -/
structure AddrRange where
  base : Nat
  size : Nat
  deriving DecidableEq, Repr

/-- One entry of the platform's list of transactions that get an error response (20_memory.md R64; log 5). -/
inductive BusError where
  /-- Every transaction of this kind that meets the range. -/
  | region (kind : AccessKind) (range : AddrRange)
  /-- Exactly the transactions of this kind with this start address and length. -/
  | transaction (kind : AccessKind) (addr size : Nat)
  deriving DecidableEq, Repr

/-- The platform's parameters, fixed for the run (00_scope.md R8, 20_memory.md R64, R72; log 2). -/
structure Platform where
  /-- KEY_BYTES, at least 1 (00_scope.md R8): the bound is a field of `State.Inv` (log 2). -/
  keyBytes : Nat
  /-- The transactions for which MEM_ACCESSIBLE is false. -/
  busErrors : List BusError
  /-- The ranges whose reads have side effects. -/
  sideEffects : List AddrRange
  deriving DecidableEq, Repr

/-- The eleven descriptor registers (10_state.md R25 to R31). -/
structure Descriptors where
  keyAddr : Word
  nonceAddr : Word
  nonceLen : Word
  aadAddr : Word
  aadLen : Word
  ptAddr : Word
  ptLen : Word
  ctAddr : Word
  ctCap : Word
  tagAddr : Word
  tagCap : Word
  deriving DecidableEq, Repr

/-- The datapath registers, none of them host-visible (10_state.md R36 to R48). -/
structure Datapath where
  /-- KEYR, KEY_BYTES bytes (R36). -/
  keyr : List Byte
  /-- NONCER (R37). -/
  noncer : Nonce
  /-- H, the GHASH subkey (R38). -/
  h : Block
  /-- J0, the initial counter block (R39). -/
  j0 : Block
  /-- CB[0], CB[1], the counter blocks of the two lanes (R40). -/
  cb0 : Block
  cb1 : Block
  /-- KS[0], KS[1], the keystream of the two lanes (R41). -/
  ks0 : Block
  ks1 : Block
  /-- Y, the GHASH accumulator (R42). -/
  y : Block
  /-- TR, the length trailer (R43). -/
  tr : Block
  /-- M, the mask (R44). -/
  m : Block
  /-- T, the tag (R45). -/
  t : Block
  /-- P_IDX, the next keystream pair (R46). -/
  pIdx : BitVec 32
  /-- G_IDX, the next GHASH block (R47). -/
  gIdx : BitVec 64
  deriving DecidableEq, Repr

/-- Data memory: the bytes that differ from what an unlisted address reads as, by strictly rising address (log 1). -/
abbrev Memory := List Host.Cell

/-- One pending move: whose turn it is and what it does (40_host_interface.md R111; log 6). -/
inductive Event where
  /-- The sequencer's turn: one micro-operation while BUSY (the `.step` directive, 30_encoding.md R93). -/
  | core
  /-- The host issues a register-port transaction (30_encoding.md R80). -/
  | transact (tx : BitVec 72)
  /-- The host repeats a REG_READ until (RDATA & mask) = value (30_encoding.md R94). -/
  | poll (reg : HostReg) (mask value : Word)
  /-- The reset input, between two steps (70_reset_and_hazards.md R230). -/
  | reset
  /-- The reset input inside a memory write of the next micro-operation; `lane` says which of KEYSTREAM's two
  (70_reset_and_hazards.md R231). -/
  | resetInWrite (lane : Fin 2)
  /-- Another agent writes a byte of data memory (20_memory.md R61, 70_reset_and_hazards.md R236). -/
  | store (addr : Word) (value : Byte)
  /-- Another agent reads a byte of data memory (20_memory.md R61, 70_reset_and_hazards.md R236). -/
  | load (addr : Word)
  deriving DecidableEq, Repr

/-- The whole machine. -/
structure State where
  /-- ERR_CODE bits 7:0 (10_state.md R23). -/
  errCode : ErrorCode
  /-- ERR_ADDR (10_state.md R24). -/
  errAddr : Word
  /-- IRQ_EN bit 0 (10_state.md R32). -/
  irqEn : Bool
  /-- The descriptor registers (10_state.md R25). -/
  desc : Descriptors
  /-- CMD_DROPPED (10_state.md R33). -/
  cmdDropped : Bool
  /-- STATE (10_state.md R51). -/
  stage : Stage
  /-- The datapath registers (10_state.md R36 to R47). -/
  dp : Datapath
  /-- The data memory (20_memory.md R60). -/
  mem : Memory
  /-- The platform's parameters (00_scope.md R8). -/
  platform : Platform
  /-- The moves that come next, in order; when none is left the sequencer moves while BUSY (log 6). -/
  events : List Event
  /-- RDATA of the host's last register-port read (30_encoding.md R80; log 12). -/
  rdata : Word
  /-- The byte another agent's last memory read returned (log 12). -/
  hostByte : Byte
  /-- The model's own: another agent wrote a byte of a region of the call (70_reset_and_hazards.md R236; log 10). -/
  hazard : Bool
  /-- The model's own: data memory as the call's START found it, for the byte's "old value" of 70_reset_and_hazards.md R236
  (log 11). -/
  callMem : Memory
  /-- The model's own: how many free values have been taken (log 8). -/
  draws : Nat
  deriving DecidableEq, Repr

/-- The three outcomes of a step of this machine. -/
abbrev Result := Host.Outcome State Fault Refusal

/-- What a memory primitive answers: a value, a state in ERROR (the micro-operation ends there, 00_scope.md R12), or one
of the two stops. -/
inductive Access (α : Type) where
  | ok (value : α)
  | raised (s : State)
  | fault (why : Fault)
  | refused (why : Refusal)
  deriving DecidableEq, Repr

/-- Every datapath register all zeros (10_state.md R49). -/
def Datapath.zero (keyBytes : Nat) : Datapath where
  keyr := List.replicate keyBytes 0
  noncer := 0
  h := 0
  j0 := 0
  cb0 := 0
  cb1 := 0
  ks0 := 0
  ks1 := 0
  y := 0
  tr := 0
  m := 0
  t := 0
  pIdx := 0
  gIdx := 0

/-- Every descriptor register 0 (10_state.md R20). -/
def Descriptors.zero : Descriptors where
  keyAddr := 0
  nonceAddr := 0
  nonceLen := 0
  aadAddr := 0
  aadLen := 0
  ptAddr := 0
  ptLen := 0
  ctAddr := 0
  ctCap := 0
  tagAddr := 0
  tagCap := 0

/-- The platform of `State.reset`: 16 key bytes, every transaction completes, no side effects. DESIGN CHOICE, log 2. -/
def Platform.example16 : Platform where
  keyBytes := 16
  busErrors := []
  sideEffects := []

/-- The machine right after reset (70_reset_and_hazards.md R230, 10_state.md R57). The data memory (log 1), the platform
(log 2), the host's two latches (log 12), the pending moves (log 18) and the three fields of the model's own (log 8, log 10,
log 11) are no registers the spec resets: DESIGN CHOICE. -/
def State.reset : State where
  errCode := .none
  errAddr := 0
  irqEn := false
  desc := Descriptors.zero
  cmdDropped := false
  stage := .idle
  dp := Datapath.zero Platform.example16.keyBytes
  mem := []
  platform := Platform.example16
  events := []
  rdata := 0
  hostByte := 0
  hazard := false
  callMem := []
  draws := 0

end Sys2Proof.Machine
end

