-- ==== Sys2Proof/Machine/Flags.lean ====
section
/-! DEFINITION. The status views of the state: BUSY, DONE, ERROR, STATUS, ERR_CODE and irq (10_state.md R22, R53, R54).
The core has no condition codes. -/

namespace Sys2Proof.Machine

/-- STATE codes 1 to 9 (10_state.md R22, R53). -/
def stageBusy : Stage → Bool
  | .idle => false
  | .validate => true
  | .load => true
  | .deriveSubkey => true
  | .buildJ0 => true
  | .keystream => true
  | .buildGhash => true
  | .accumulate => true
  | .computeMask => true
  | .finalizeTag => true
  | .done => false
  | .error => false

/-- BUSY (10_state.md R53). -/
def State.busy (s : State) : Bool := stageBusy s.stage

/-- DONE: STATE = 10 (10_state.md R53). -/
def State.isDone (s : State) : Bool := s.stage == .done

/-- ERROR: STATE = 11 (10_state.md R53). -/
def State.isError (s : State) : Bool := s.stage == .error

/-- The number of an error code (60_exceptions.md R200). -/
def ErrorCode.code : ErrorCode → BitVec 8
  | .none => 0
  | .invalidNonceLength => 1
  | .lengthOverflow => 2
  | .bufferTooSmall => 3
  | .addressRange => 4
  | .bufferOverlap => 5
  | .busError => 6
  | .badCommand => 7

/-- A one-bit field as a 64-bit register value. -/
def bitWord (b : Bool) : Word := (BitVec.ofBool b).setWidth 64

/-- STATUS = BUSY | DONE<<1 | ERROR<<2 | CMD_DROPPED<<3 | STATE<<8 (10_state.md R22, 40_host_interface.md R100). -/
def State.statusWord (s : State) : Word :=
  bitWord s.busy ||| (bitWord s.isDone <<< 1) ||| (bitWord s.isError <<< 2) ||| (bitWord s.cmdDropped <<< 3)
    ||| (s.stage.code.setWidth 64 <<< 8)

/-- irq = IRQ_EN[0] AND (DONE OR ERROR) (40_host_interface.md R110, 60_exceptions.md R215). -/
def State.irq (s : State) : Bool := s.irqEn && (s.isDone || s.isError)

end Sys2Proof.Machine
end

