-- ==== Sys2Proof/Machine/Operands.lean ====
section
/-! DEFINITION. Operands: the register port's view of the registers, the derived counts, the regions of a call and the
checks of VALIDATE (10_state.md R20, R50, 40_host_interface.md R100 to R104, 41_setup.md R120, R121). -/

namespace Sys2Proof.Machine

/-! ## The register port -/

/-- The value a register reads as (40_host_interface.md R100). CMD reads 0 (10_state.md R21). -/
def readRegister (reg : HostReg) (s : State) : Word :=
  match reg with
  | .cmd => 0
  | .status => s.statusWord
  | .errCode => s.errCode.code.setWidth 64
  | .errAddr => s.errAddr
  | .irqEn => bitWord s.irqEn
  | .keyAddr => s.desc.keyAddr
  | .nonceAddr => s.desc.nonceAddr
  | .nonceLen => s.desc.nonceLen
  | .aadAddr => s.desc.aadAddr
  | .aadLen => s.desc.aadLen
  | .ptAddr => s.desc.ptAddr
  | .ptLen => s.desc.ptLen
  | .ctAddr => s.desc.ctAddr
  | .ctCap => s.desc.ctCap
  | .tagAddr => s.desc.tagAddr
  | .tagCap => s.desc.tagCap

/-- The descriptor registers with one of them written (40_host_interface.md R104); the others name none. -/
def setDescriptor (reg : HostReg) (value : Word) (d : Descriptors) : Descriptors :=
  match reg with
  | .cmd => d
  | .status => d
  | .errCode => d
  | .errAddr => d
  | .irqEn => d
  | .keyAddr => { d with keyAddr := value }
  | .nonceAddr => { d with nonceAddr := value }
  | .nonceLen => { d with nonceLen := value }
  | .aadAddr => { d with aadAddr := value }
  | .aadLen => { d with aadLen := value }
  | .ptAddr => { d with ptAddr := value }
  | .ptLen => { d with ptLen := value }
  | .ctAddr => { d with ctAddr := value }
  | .ctCap => { d with ctCap := value }
  | .tagAddr => { d with tagAddr := value }
  | .tagCap => { d with tagCap := value }

/-! ## Derived counts (10_state.md R50) -/

/-- NA, the AAD blocks fed to GHASH. -/
def Descriptors.aadBlocks (d : Descriptors) : Nat := nblocks d.aadLen.toNat

/-- NC, the keystream and ciphertext blocks. -/
def Descriptors.ptBlocks (d : Descriptors) : Nat := nblocks d.ptLen.toNat

/-- NP, the keystream pairs. -/
def Descriptors.pairs (d : Descriptors) : Nat := (d.ptBlocks + 1) / 2

/-- NG, the GHASH input blocks with the trailer. -/
def Descriptors.ghashBlocks (d : Descriptors) : Nat := d.aadBlocks + d.ptBlocks + 1

/-! ## Limits (00_scope.md R7, R9) -/

/-- The size of the data-memory address space: 2^ADDR_BITS (20_memory.md R60). -/
def addressSpace : Nat := 2 ^ 64

/-- NONCE_BYTES (00_scope.md R7). -/
def nonceBytes : Nat := 12

/-- TAG_BYTES (00_scope.md R7). -/
def tagBytes : Nat := 16

/-- PT_MAX = (2^32 − 1) · 16 (00_scope.md R9). -/
def ptMax : Nat := (2 ^ 32 - 1) * 16

/-- AAD_MAX = 2^61 − 1 (00_scope.md R9). -/
def aadMax : Nat := 2 ^ 61 - 1

/-! ## Regions (41_setup.md R121) -/

/-- `n` bytes at `addr` share a byte with the range; empty on either side shares none. -/
def AddrRange.meets (r : AddrRange) (addr n : Nat) : Bool :=
  decide (0 < r.size) && decide (0 < n) && decide (r.base < addr + n) && decide (addr < r.base + r.size)

/-- The overlap test of VALIDATE. -/
def AddrRange.overlaps (r q : AddrRange) : Bool := r.meets q.base q.size

/-- The range wraps the address space: n > 0 and a + n > 2^64 (60_exceptions.md R204). -/
def AddrRange.wraps (r : AddrRange) : Bool := decide (0 < r.size) && decide (addressSpace < r.base + r.size)

/-- KEY. -/
def keyRegion (p : Platform) (d : Descriptors) : AddrRange := ⟨d.keyAddr.toNat, p.keyBytes⟩

/-- NONCE. -/
def nonceRegion (d : Descriptors) : AddrRange := ⟨d.nonceAddr.toNat, nonceBytes⟩

/-- AAD. -/
def aadRegion (d : Descriptors) : AddrRange := ⟨d.aadAddr.toNat, d.aadLen.toNat⟩

/-- PT. -/
def ptRegion (d : Descriptors) : AddrRange := ⟨d.ptAddr.toNat, d.ptLen.toNat⟩

/-- CT: the written length is PT_LEN, not CT_CAP. -/
def ctRegion (d : Descriptors) : AddrRange := ⟨d.ctAddr.toNat, d.ptLen.toNat⟩

/-- TAG. -/
def tagRegion (d : Descriptors) : AddrRange := ⟨d.tagAddr.toNat, tagBytes⟩

/-- REGIONS, in the order of the range check. -/
def callRegions (p : Platform) (d : Descriptors) : List AddrRange :=
  [keyRegion p d, nonceRegion d, aadRegion d, ptRegion d, ctRegion d, tagRegion d]

/-- BAD_OVERLAP: an output region meets another region, but for the exact in-place case. -/
def badOverlap (p : Platform) (d : Descriptors) : Bool :=
  (ctRegion d).overlaps (keyRegion p d) || (ctRegion d).overlaps (nonceRegion d)
    || (ctRegion d).overlaps (aadRegion d) || (ctRegion d).overlaps (tagRegion d)
    || ((ctRegion d).overlaps (ptRegion d) && d.ctAddr != d.ptAddr)
    || (tagRegion d).overlaps (keyRegion p d) || (tagRegion d).overlaps (nonceRegion d)
    || (tagRegion d).overlaps (aadRegion d) || (tagRegion d).overlaps (ptRegion d)

/-- The checks of VALIDATE, in their order; the first that fails is the one reported (41_setup.md R120,
60_exceptions.md R208). `none`: all pass. -/
def validationError (p : Platform) (d : Descriptors) : Option ErrorCode :=
  if d.nonceLen.toNat ≠ nonceBytes then some .invalidNonceLength
  else if ptMax < d.ptLen.toNat ∨ aadMax < d.aadLen.toNat then some .lengthOverflow
  else if d.ctCap.toNat < d.ptLen.toNat ∨ d.tagCap.toNat < tagBytes then some .bufferTooSmall
  else if (callRegions p d).any AddrRange.wraps then some .addressRange
  else if badOverlap p d then some .bufferOverlap
  else none

/-! ## The platform (20_memory.md R64, R72) -/

/-- The entry gives this transaction an error response. -/
def BusError.hits (e : BusError) (addr n : Nat) (kind : AccessKind) : Bool :=
  match e with
  | .region k range => k == kind && range.meets addr n
  | .transaction k a size => k == kind && a == addr && size == n

/-- MEM_ACCESSIBLE(addr, n, kind) (20_memory.md R64). -/
def memAccessible (p : Platform) (addr n : Nat) (kind : AccessKind) : Bool :=
  !p.busErrors.any (fun e => e.hits addr n kind)

/-- A byte of the access lies in memory whose reads have side effects (20_memory.md R72). -/
def hasSideEffects (p : Platform) (addr n : Nat) : Bool := p.sideEffects.any (fun r => r.meets addr n)

/-- The transaction completes without an error response: inside the address space, in ordinary memory, and MEM_ACCESSIBLE
(20_memory.md R62 to R64, R72). -/
def transactionOk (p : Platform) (addr n : Nat) (kind : AccessKind) : Bool :=
  decide (addr + n ≤ addressSpace) && !hasSideEffects p addr n && memAccessible p addr n kind

/-- The transaction gets an error response (60_exceptions.md R206). -/
def transactionDenied (p : Platform) (addr n : Nat) (kind : AccessKind) : Bool :=
  decide (addr + n ≤ addressSpace) && !hasSideEffects p addr n && !memAccessible p addr n kind

end Sys2Proof.Machine
end

