-- ==== Sys2Proof/Machine/Ops.lean ====
section
/-! DEFINITION. The named operations over memory and registers: bytes of memory, the memory primitives, error entry, entry
to DONE, reset, the acceptance of commands, and the outcomes of the misaligned transaction. -/

namespace Sys2Proof.Machine

/-! ## Bytes of data memory (20_memory.md R60, R65) -/

/-- What an address that is not listed reads as: 0, as 95_test_vectors.md section 3 has it. DESIGN CHOICE, log 1. -/
def unlistedByte : Byte := 0

/-- The byte at an address. -/
def readByte : Memory → Nat → Byte
  | [], _ => unlistedByte
  | (a, b) :: rest, addr => if a = addr then b else readByte rest addr

/-- A cell in front of a memory, unless it holds what an unlisted address reads as. -/
def consCell (addr : Nat) (value : Byte) (rest : Memory) : Memory :=
  if value = unlistedByte then rest else (addr, value) :: rest

/-- Memory with one byte written, in canonical form. -/
def writeByte : Memory → Nat → Byte → Memory
  | [], addr, value => consCell addr value []
  | (a, b) :: rest, addr, value =>
    if addr < a then consCell addr value ((a, b) :: rest)
    else if a = addr then consCell addr value rest
    else (a, b) :: writeByte rest addr value

/-- mem[addr] ++ mem[addr+1] ++ … (20_memory.md R62). -/
def readBytes (m : Memory) (addr : Nat) : Nat → List Byte
  | 0 => []
  | n + 1 => readByte m addr :: readBytes m (addr + 1) n

/-- The bytes of `bytes` written from `addr` on, lowest address first (20_memory.md R63). -/
def writeBytes (m : Memory) (addr : Nat) : List Byte → Memory
  | [] => m
  | b :: rest => writeBytes (writeByte m addr b) (addr + 1) rest

/-- The canonical form: addresses strictly rising from `low` on, inside the address space, and no entry that an unlisted
address would read as. -/
def wfFrom (low : Nat) : Memory → Bool
  | [] => true
  | (a, b) :: rest => decide (low ≤ a) && decide (a < addressSpace) && b != unlistedByte && wfFrom (a + 1) rest

/-- The canonical form of a memory (log 1). -/
def Memory.wf (m : Memory) : Bool := wfFrom 0 m

/-! ## Free values (log 8) -/

/-- `n` free bytes, the first drawn at counter `c` (70_reset_and_hazards.md R236). -/
def freeBytes (c : Nat) : Nat → List Byte
  | 0 => []
  | n + 1 => Config.freeByte c :: freeBytes (c + 1) n

/-- What a failing or cut write leaves: each byte old or new, a draw per byte (20_memory.md R63,
70_reset_and_hazards.md R231). -/
def drawBytes (c : Nat) (m : Memory) (addr : Nat) : List Byte → List Byte
  | [] => []
  | new :: rest => (if Config.freeBit c then new else readByte m addr) :: drawBytes (c + 1) m (addr + 1) rest

/-! ## Zeroize, error entry, DONE, reset -/

/-- zeroize() (10_state.md R49). -/
def zeroize (s : State) : State := { s with dp := Datapath.zero s.platform.keyBytes }

/-- raise Error(code, addr): TAKING AN ERROR, the one operation for every error (60_exceptions.md R209). -/
def raiseError (code : ErrorCode) (addr : Nat) (s : State) : State :=
  zeroize { s with errCode := code, errAddr := BitVec.ofNat 64 addr, stage := .error }

/-- enter DONE: the one successful end of a call (44_tag_finalizer.md R182). -/
def enterDone (s : State) : State := zeroize { s with stage := .done }

/-- The reset event (70_reset_and_hazards.md R230). Data memory and platform stay (R233). -/
def resetCore (s : State) : State :=
  zeroize { s with
    stage := .idle
    cmdDropped := false
    errCode := .none
    errAddr := 0
    irqEn := false
    desc := Descriptors.zero
    hazard := false }

/-! ## Commands -/

/-- A command while BUSY is dropped (40_host_interface.md R109). -/
def dropCommand (s : State) : State := { s with cmdDropped := true }

/-- START when not BUSY (40_host_interface.md R106). A new call has met no buffer hazard yet (log 10), and the model notes the
memory it begins over (log 11). -/
def beginCall (s : State) : State :=
  { s with errCode := .none, errAddr := 0, cmdDropped := false, stage := .validate, hazard := false, callMem := s.mem }

/-- CLEAR when not BUSY (40_host_interface.md R107). -/
def returnToIdle (s : State) : State := { s with errCode := .none, errAddr := 0, cmdDropped := false, stage := .idle }

/-- START (40_host_interface.md R106). -/
def startCommand (s : State) : State := if s.busy then dropCommand s else beginCall s

/-- CLEAR (40_host_interface.md R107). -/
def clearCommand (s : State) : State := if s.busy then dropCommand s else returnToIdle s

/-- A reserved command value (40_host_interface.md R108). -/
def reservedCommand (s : State) : State := if s.busy then dropCommand s else raiseError .badCommand 0 s

/-- A write of `value` to CMD (30_encoding.md R83). -/
def commandWrite (value : Word) (s : State) : State :=
  if value = 0 then s
  else if value = 1 then startCommand s
  else if value = 2 then clearCommand s
  else reservedCommand s

/-! ## Register writes -/

/-- A write to a descriptor register: ignored while BUSY (40_host_interface.md R104). -/
def writeDescriptor (reg : HostReg) (value : Word) (s : State) : State :=
  if s.busy then s else { s with desc := setDescriptor reg value s.desc }

/-- A write to a host-visible register (40_host_interface.md R101 to R104). A write to CMD is a command (10_state.md R21;
the decoder never gives it as REG_WRITE, log 17). -/
def writeRegister (reg : HostReg) (value : Word) (s : State) : State :=
  match reg with
  | .cmd => commandWrite value s
  | .status => s
  | .errCode => s
  | .errAddr => s
  | .irqEn => { s with irqEn := value.getLsbD 0 }
  | .keyAddr => writeDescriptor .keyAddr value s
  | .nonceAddr => writeDescriptor .nonceAddr value s
  | .nonceLen => writeDescriptor .nonceLen value s
  | .aadAddr => writeDescriptor .aadAddr value s
  | .aadLen => writeDescriptor .aadLen value s
  | .ptAddr => writeDescriptor .ptAddr value s
  | .ptLen => writeDescriptor .ptLen value s
  | .ctAddr => writeDescriptor .ctAddr value s
  | .ctCap => writeDescriptor .ctCap value s
  | .tagAddr => writeDescriptor .tagAddr value s
  | .tagCap => writeDescriptor .tagCap value s

/-- A word the decoder rejects: a misaligned read returns 0, a misaligned write has no effect (30_encoding.md R81), and a
STATE without micro-operation has no step (10_state.md R52; log 7). -/
def rejectedWord (why : Reject) (s : State) : State :=
  match why with
  | .misalignedRead => { s with rdata := 0 }
  | .misalignedWrite => s
  | .noMicroOperation => s
  | .unusedStateCode => s

/-! ## The memory primitives -/

/-- Go on with a value; an error entry or a stop ends the step (00_scope.md R12). -/
def Access.bind {α β : Type} (x : Access α) (f : α → Access β) : Access β :=
  match x with
  | .ok value => f value
  | .raised s => .raised s
  | .fault why => .fault why
  | .refused why => .refused why

/-- The outcome of a micro-operation: after an error entry the machine goes on in ERROR (60_exceptions.md R209). -/
def Access.finish {α : Type} (x : Access α) (f : α → State) : Result :=
  match x with
  | .ok value => .next (f value)
  | .raised s => .next s
  | .fault why => .fault why
  | .refused why => .refused why

/-- What stops a transaction before the platform answers it: no such address (log 13), or memory with read side effects
(20_memory.md R72; log 14). -/
def guardAccess {α : Type} (addr n : Nat) (s : State) (x : Access α) : Access α :=
  if addressSpace < addr + n then .fault .outsideAddressSpace
  else if hasSideEffects s.platform addr n then .refused .readSideEffects
  else x

/-- MemRead(addr, n) (20_memory.md R62). -/
def memRead (addr n : Nat) (s : State) : Access (List Byte) :=
  guardAccess addr n s
    (if memAccessible s.platform addr n .read then .ok (readBytes s.mem addr n)
     else .raised (raiseError .busError addr s))

/-- The bytes a write of the core stores: its own, or free ones once another agent has written a region of the call
(70_reset_and_hazards.md R236; log 10). -/
def storedBytes (bytes : List Byte) (s : State) : List Byte :=
  if s.hazard then freeBytes s.draws bytes.length else bytes

/-- The free values `storedBytes` takes. -/
def storedDraws (bytes : List Byte) (s : State) : Nat := if s.hazard then s.draws + bytes.length else s.draws

/-- A write that completes (20_memory.md R63). -/
def completeWrite (addr : Nat) (bytes : List Byte) (s : State) : State :=
  { s with mem := writeBytes s.mem addr (storedBytes bytes s), draws := storedDraws bytes s }

/-- A write that fails or is cut short: a draw per byte between old and new (20_memory.md R63,
70_reset_and_hazards.md R231). -/
def drawnWrite (addr : Nat) (bytes : List Byte) (s : State) : State :=
  { s with
    mem := writeBytes s.mem addr (drawBytes (storedDraws bytes s) s.mem addr (storedBytes bytes s))
    draws := storedDraws bytes s + bytes.length }

/-- MemWrite(addr, n, v), n = |v| (20_memory.md R63). -/
def memWrite (addr : Nat) (bytes : List Byte) (s : State) : Access State :=
  guardAccess addr bytes.length s
    (if memAccessible s.platform addr bytes.length .write then .ok (completeWrite addr bytes s)
     else .raised (raiseError .busError addr (drawnWrite addr bytes s)))

/-- A memory write that the reset input cuts short (70_reset_and_hazards.md R231). -/
def cutWrite (addr : Nat) (bytes : List Byte) (s : State) : Access State :=
  guardAccess addr bytes.length s (.ok (drawnWrite addr bytes s))

end Sys2Proof.Machine
end

