-- ==== Sys2Proof/Machine/Command.lean ====
section
/-! DEFINITION. The host's commands (40_host_interface.md R105 to R109). -/

namespace Sys2Proof.Machine

/-- NOP: no effect in any state (40_host_interface.md R105). -/
def execNop (s : State) : Result := .next s

/-- START (40_host_interface.md R106). -/
def execStart (s : State) : Result := .next (startCommand s)

/-- CLEAR (40_host_interface.md R107). -/
def execClear (s : State) : Result := .next (clearCommand s)

/-- CMD_RESERVED: the value itself is not looked at (40_host_interface.md R108). -/
def execCmdReserved (_value : Word) (s : State) : Result := .next (reservedCommand s)

end Sys2Proof.Machine
end

