-- ==== Sys2Proof/Machine/Ghash.lean ====
section
/-! DEFINITION. ghash_accumulator (43_ghash_accumulator.md R161 to R165). -/

namespace Sys2Proof.Machine

/-- BUILD_GHASH: the trailer, Y = 0, G_IDX = 0 (43_ghash_accumulator.md R164). -/
def execBuildGhash (s : State) : Result :=
  .next { s with
    dp := { s.dp with tr := lengthTrailer s.desc.aadLen.toNat s.desc.ptLen.toNat, y := 0, gIdx := 0 }
    stage := .accumulate }

/-- Block g of the GHASH input stream: AAD, ciphertext read back, trailer (30_encoding.md R89,
43_ghash_accumulator.md R165). -/
def ghashInput (g : Nat) (s : State) : Access Block :=
  if g < s.desc.aadBlocks then
    (memRead (s.desc.aadAddr.toNat + 16 * g) (blockLen s.desc.aadLen.toNat g) s).bind fun b => .ok (blockOfBytes b)
  else if g < s.desc.aadBlocks + s.desc.ptBlocks then
    (memRead (s.desc.ctAddr.toNat + 16 * (g - s.desc.aadBlocks)) (blockLen s.desc.ptLen.toNat (g - s.desc.aadBlocks)) s).bind
      fun b => .ok (blockOfBytes b)
  else .ok s.dp.tr

/-- Y ← MUL(Y XOR B, H) (43_ghash_accumulator.md R165). -/
def foldBlock (mul : Block → Block → Block) (h y b : Block) : Block := mul (y ^^^ b) h

/-- The end of a fold step: Y and G_IDX, and after the trailer COMPUTE_MASK (43_ghash_accumulator.md R165). -/
def advanceGhash (s : State) (b : Block) : State :=
  let next := BitVec.ofNat 64 (s.dp.gIdx.toNat + 1)
  { s with
    dp := { s.dp with y := foldBlock Config.mul s.dp.h s.dp.y b, gIdx := next }
    stage := if next.toNat = s.desc.ghashBlocks then .computeMask else s.stage }

/-- ACCUMULATE: a failing read updates neither Y nor G_IDX (43_ghash_accumulator.md R165). -/
def execAccumulate (s : State) : Result := (ghashInput s.dp.gIdx.toNat s).finish (advanceGhash s)

end Sys2Proof.Machine
end

