-- ==== Sys2Proof/Machine/HostPort.lean ====
section
/-! DEFINITION. The host's register reads and writes (40_host_interface.md R100 to R104). -/

namespace Sys2Proof.Machine

/-- REG_READ: RDATA is the register's value; nothing else changes (40_host_interface.md R100). -/
def execRegRead (reg : HostReg) (s : State) : Result := .next { s with rdata := readRegister reg s }

/-- REG_WRITE (40_host_interface.md R101). -/
def execRegWrite (reg : HostReg) (value : Word) (s : State) : Result := .next (writeRegister reg value s)

end Sys2Proof.Machine
end

