-- ==== Sys2Proof/Machine/Keystream.lean ====
section
/-! DEFINITION. gcm_keystream_generator: one pair of blocks per step (42_keystream_generator.md R141 to R148). -/

namespace Sys2Proof.Machine

/-- E2, the batched cipher call, equal to two single encryptions (42_keystream_generator.md R141). -/
def encryptPair (key : List Byte) (b0 b1 : Block) : Block × Block := (Config.encrypt key b0, Config.encrypt key b1)

/-- Keystream block index of a lane of the pair P_IDX (42_keystream_generator.md R144). -/
def laneIndex (lane : Nat) (s : State) : Nat := 2 * s.dp.pIdx.toNat + lane

/-- CB and KS of both lanes; lane 1's counter is taken mod 2^32 (42_keystream_generator.md R145, R148). -/
def loadLanes (s : State) : State :=
  let cb0 := counterBlock s.dp.j0 (1 + laneIndex 0 s)
  let cb1 := counterBlock s.dp.j0 (1 + laneIndex 1 s)
  let ks := encryptPair s.dp.keyr cb0 cb1
  { s with dp := { s.dp with cb0 := cb0, cb1 := cb1, ks0 := ks.1, ks1 := ks.2 } }

/-- One lane: block `i` is read, XORed with its keystream and written; an index past the last block accesses no memory
(42_keystream_generator.md R145 to R147). `write` is the memory write, whole or cut. -/
def laneStep (write : Nat → List Byte → State → Access State) (i : Nat) (ks : Block) (s : State) : Access State :=
  if i < s.desc.ptBlocks then
    (memRead (s.desc.ptAddr.toNat + 16 * i) (blockLen s.desc.ptLen.toNat i) s).bind fun p =>
      write (s.desc.ctAddr.toNat + 16 * i) (xorBytes p ((bytesOfBlock ks).take p.length)) s
  else .ok s

/-- The end of a pair: P_IDX advances, and the last pair moves on to BUILD_GHASH (42_keystream_generator.md R145). -/
def advancePair (s : State) : State :=
  let next := BitVec.ofNat 32 (s.dp.pIdx.toNat + 1)
  { s with
    dp := { s.dp with pIdx := next }
    stage := if next.toNat = s.desc.pairs then .buildGhash else s.stage }

/-- KEYSTREAM: lane 0 first, then lane 1 (42_keystream_generator.md R145). -/
def execKeystreamPair (s : State) : Result :=
  ((laneStep memWrite (laneIndex 0 s) (loadLanes s).dp.ks0 (loadLanes s)).bind fun s' =>
    laneStep memWrite (laneIndex 1 s) (loadLanes s).dp.ks1 s').finish advancePair

/-- The memory writes of KEYSTREAM up to the one of `lane`, which the reset input cuts short
(70_reset_and_hazards.md R231). -/
def cutKeystream (lane : Fin 2) (s : State) : Access State :=
  if lane = 0 then laneStep cutWrite (laneIndex 0 s) (loadLanes s).dp.ks0 (loadLanes s)
  else
    (laneStep memWrite (laneIndex 0 s) (loadLanes s).dp.ks0 (loadLanes s)).bind fun s' =>
      laneStep cutWrite (laneIndex 1 s) (loadLanes s).dp.ks1 s'

end Sys2Proof.Machine
end

