-- ==== Sys2Proof/Machine/Setup.lean ====
section
/-! DEFINITION. The setup micro-operations (41_setup.md). -/

namespace Sys2Proof.Machine

/-- VALIDATE: it accesses no memory (41_setup.md R120). -/
def execValidate (s : State) : Result :=
  match validationError s.platform s.desc with
  | some code => .next (raiseError code 0 s)
  | none => .next { s with stage := .load }

/-- LOAD: the key, then the nonce (41_setup.md R122). -/
def execLoad (s : State) : Result :=
  ((memRead s.desc.keyAddr.toNat s.platform.keyBytes s).bind fun key =>
    (memRead s.desc.nonceAddr.toNat nonceBytes s).bind fun nonce => .ok (key, nonce)).finish fun loaded =>
      { s with dp := { s.dp with keyr := loaded.1, noncer := nonceOfBytes loaded.2 }, stage := .deriveSubkey }

/-- DERIVE_SUBKEY: H = E(KEYR, zeros(16)) (41_setup.md R124, 30_encoding.md R90). -/
def execDeriveSubkey (s : State) : Result :=
  .next { s with dp := { s.dp with h := Config.encrypt s.dp.keyr 0#128 }, stage := .buildJ0 }

/-- BUILD_J0: with PT_LEN = 0 there is no keystream step (41_setup.md R125). -/
def execBuildJ0 (s : State) : Result :=
  .next { s with
    dp := { s.dp with j0 := initialCounterBlock s.dp.noncer, pIdx := 0 }
    stage := if 0 < s.desc.pairs then .keystream else .buildGhash }

end Sys2Proof.Machine
end

