-- ==== Sys2Proof/Machine/Tag.lean ====
section
/-! DEFINITION. gcm_tag_finalizer (44_tag_finalizer.md R180 to R183). -/

namespace Sys2Proof.Machine

/-- COMPUTE_MASK: M = E(KEYR, J0) (44_tag_finalizer.md R180). -/
def execComputeMask (s : State) : Result :=
  .next { s with dp := { s.dp with m := Config.encrypt s.dp.keyr s.dp.j0 }, stage := .finalizeTag }

/-- T = Y XOR M (44_tag_finalizer.md R181). -/
def formTag (s : State) : State := { s with dp := { s.dp with t := s.dp.y ^^^ s.dp.m } }

/-- FINALIZE_TAG: exactly 16 bytes at TAG_ADDR, then DONE (44_tag_finalizer.md R181 to R183). -/
def execFinalizeTag (s : State) : Result :=
  (memWrite s.desc.tagAddr.toNat (bytesOfBlock (formTag s).dp.t) (formTag s)).finish enterDone

/-- The tag write, which the reset input cuts short (70_reset_and_hazards.md R231). -/
def cutFinalizeTag (s : State) : Access State :=
  cutWrite s.desc.tagAddr.toNat (bytesOfBlock (formTag s).dp.t) (formTag s)

end Sys2Proof.Machine
end

