-- ==== Sys2Proof/Machine/Dispatch.lean ====
section
/-! DEFINITION. One arm per instruction: each is one call of its meaning. -/

namespace Sys2Proof.Machine

def exec (i : Instr) (s : State) : Host.Outcome State Fault Refusal :=
  match i with
  | .regRead reg => Sys2Proof.Machine.execRegRead reg s
  | .regWrite reg value => Sys2Proof.Machine.execRegWrite reg value s
  | .nop => Sys2Proof.Machine.execNop s
  | .start => Sys2Proof.Machine.execStart s
  | .clear => Sys2Proof.Machine.execClear s
  | .cmdReserved value => Sys2Proof.Machine.execCmdReserved value s
  | .validate => Sys2Proof.Machine.execValidate s
  | .load => Sys2Proof.Machine.execLoad s
  | .deriveSubkey => Sys2Proof.Machine.execDeriveSubkey s
  | .buildJ0 => Sys2Proof.Machine.execBuildJ0 s
  | .keystreamPair => Sys2Proof.Machine.execKeystreamPair s
  | .buildGhash => Sys2Proof.Machine.execBuildGhash s
  | .accumulate => Sys2Proof.Machine.execAccumulate s
  | .computeMask => Sys2Proof.Machine.execComputeMask s
  | .finalizeTag => Sys2Proof.Machine.execFinalizeTag s

end Sys2Proof.Machine
end

