-- ==== Sys2Proof/Machine/Environment.lean ====
section
/-! DEFINITION. Moves that are no instruction: another agent's accesses to data memory, the reset input inside a memory
write, and host programs as lists of moves (70_reset_and_hazards.md R231, R236, 30_encoding.md R93 to R95). -/

namespace Sys2Proof.Machine

/-- The address lies in one of the six regions of the call (41_setup.md R121). -/
def inCallRegion (addr : Nat) (s : State) : Bool :=
  (callRegions s.platform s.desc).any (fun r => r.meets addr 1)

/-- The address lies in the ciphertext or the tag region. -/
def inOutputRegion (addr : Nat) (s : State) : Bool := (ctRegion s.desc).meets addr 1 || (tagRegion s.desc).meets addr 1

/-- Every byte of a range becomes a free byte; bytes past the address space do not exist. -/
def freeRange (r : AddrRange) (s : State) : State :=
  let n := min r.size (addressSpace - r.base)
  { s with mem := writeBytes s.mem r.base (freeBytes s.draws n), draws := s.draws + n }

/-- Every byte of the ciphertext and the tag region becomes a free byte, and so does every byte the core writes in the rest
of the call (70_reset_and_hazards.md R236; log 10). -/
def spoilOutputs (s : State) : State :=
  { freeRange (tagRegion s.desc) (freeRange (ctRegion s.desc) s) with hazard := true }

/-- Another agent writes a byte. While BUSY, a byte of a region of the call is a buffer hazard
(70_reset_and_hazards.md R236); the core's steps are unchanged. DESIGN CHOICE, log 28: MEM_ACCESSIBLE and the ranges with
read side effects are the core's alone, so the write completes as on ordinary memory. -/
def foreignStore (addr : Word) (value : Byte) (s : State) : State :=
  let stored := { s with mem := writeByte s.mem addr.toNat value }
  if s.busy && inCallRegion addr.toNat s then spoilOutputs stored else stored

/-- Another agent's read, but for the byte it returns: a draw is taken where the byte is one (70_reset_and_hazards.md R236).
DESIGN CHOICE, log 28: MEM_ACCESSIBLE and the ranges with read side effects are the core's alone, so the read completes as on
ordinary memory. -/
def unansweredLoad (addr : Word) (s : State) : State :=
  { s with draws := if s.busy && inOutputRegion addr.toNat s then s.draws + 1 else s.draws }

/-- The reset that follows a cut write, or an error entry before it: the core is reset either way. -/
def resetAfter (x : Access State) : Result :=
  match x with
  | .ok s => .next (resetCore s)
  | .raised s => .next (resetCore s)
  | .fault why => .fault why
  | .refused why => .refused why

/-- The memory write of the selected micro-operation that the reset input falls in: only KEYSTREAM and FINALIZE_TAG write
memory (20_memory.md R70). -/
def cutMicroOperation (lane : Fin 2) (s : State) : Access State :=
  if s.stage = .keystream then cutKeystream lane s
  else if s.stage = .finalizeTag then cutFinalizeTag s
  else .ok s

/-- The reset input inside a memory write of the selected micro-operation: the writes before it stand, the one it cuts is a
draw per byte, and the core is reset (70_reset_and_hazards.md R231). Without a write it is a plain reset. -/
def resetInWrite (lane : Fin 2) (s : State) : Result := resetAfter (cutMicroOperation lane s)

/-! ## Host programs (30_encoding.md R93 to R95) -/

/-- `wr reg, value`. -/
def wr (reg : HostReg) (value : Word) : Event := .transact (hosttxWord true reg.offset value)

/-- `rd reg`. -/
def rd (reg : HostReg) : Event := .transact (hosttxWord false reg.offset 0)

/-- `.step n`. -/
def stepDirective (n : Nat) : List Event := List.replicate n .core

/-- `.mem addr, bytes`, as stores of another agent before the program runs. DESIGN CHOICE, log 29: the spec gives no byte past
address 2^64, and the address of such a byte is taken mod 2^64. -/
def memDirective (addr : Nat) : List Byte → List Event
  | [] => []
  | b :: rest => .store (BitVec.ofNat 64 addr) b :: memDirective (addr + 1) rest

/-- `encrypt_aead key, nonce, pt, pt_len, aad, aad_len, ct, tag` (30_encoding.md R95). -/
def encryptAead (key nonce pt ptLen aad aadLen ct tag : Word) : List Event :=
  [wr .keyAddr key, wr .nonceAddr nonce, wr .nonceLen 12, wr .aadAddr aad, wr .aadLen aadLen, wr .ptAddr pt,
   wr .ptLen ptLen, wr .ctAddr ct, wr .ctCap ptLen, wr .tagAddr tag, wr .tagCap 16, wr .cmd 1,
   .poll .status 1 0, rd .errCode]

end Sys2Proof.Machine
end

