-- ==== Sys2Proof/Machine/Fetch.lean ====
section
/-! DEFINITION. What the next step is: an instruction to run, or a move that is none (40_host_interface.md R111,
10_state.md R51, R52). -/

namespace Sys2Proof.Machine

/-- The next atomic step. -/
inductive Turn where
  /-- The instruction runs from this state. -/
  | run (i : Instr) (s : State)
  /-- The move is no instruction, and this is its outcome. -/
  | settled (outcome : Result)

/-- The turn a decoded word gives (30_encoding.md R82, R85). -/
def turnOf (d : Decoded) (s : State) : Turn :=
  match d with
  | .instr i => .run i s
  | .rejected why => .settled (.next (rejectedWord why s))

/-- The sequencer's turn: the micro-operation STATE selects; without one it waits (10_state.md R51, R52; log 7). -/
def coreTurn (s : State) : Turn := turnOf (decodeUstate s.stage.code) s

/-- What is pending after one REG_READ of a poll: nothing of it once the value matches, else a turn of the core and the poll
again (30_encoding.md R94; log 26). -/
def afterPoll (reg : HostReg) (mask value : Word) (s : State) : List Event :=
  if readRegister reg s &&& mask = value then s.events else .core :: .poll reg mask value :: s.events

/-- The turn of a pending move; `s` no longer lists it, and `load` makes another agent's read. -/
def eventTurn (load : Word → State → State) (e : Event) (s : State) : Turn :=
  match e with
  | .core => coreTurn s
  | .transact tx => turnOf (decodeHosttx tx) s
  | .poll reg mask value => .run (.regRead reg) { s with events := afterPoll reg mask value s }
  | .reset => .settled (.next (resetCore s))
  | .resetInWrite lane => .settled (resetInWrite lane s)
  | .store addr value => .settled (.next (foreignStore addr value s))
  | .load addr => .settled (.next (load addr s))

/-- The next turn: the first pending move, and the sequencer's once none is left (70_reset_and_hazards.md R242; log 6). -/
def fetch (load : Word → State → State) (s : State) : Turn :=
  match s.events with
  | [] => coreTurn s
  | e :: rest => eventTurn load e { s with events := rest }

/-- `s` with a word of the opcode table placed where the next step takes it: a transaction as the host's next move, a command
as a write to CMD, a STATE code in STATE with the sequencer's turn next (log 18, log 19). -/
def placeWord (word : Encoded) (s : State) : State :=
  match word with
  | .hosttx tx => { s with events := .transact tx :: s.events }
  | .cmdw w => { s with events := .transact (commandTx w) :: s.events }
  | .ustate code =>
    match Stage.ofCode code with
    | none => s
    | some stage => { s with stage := stage, events := .core :: s.events }

end Sys2Proof.Machine
end

