-- ==== Sys2Proof/Machine/Foresight.lean ====
section
/-! DEFINITION. Another agent's read of data memory. A read of a ciphertext or tag byte during a call is a draw between the
byte's old value and any value the core writes there in the call, later ones included (70_reset_and_hazards.md R236). What the
core writes later is fixed by the state: the pending moves, and the sequencer's own once none is left (log 6, log 11). -/

namespace Sys2Proof.Machine

/-- The outcome of a turn. -/
def takeTurn (turn : Turn) : Result :=
  match turn with
  | .run i s => exec i s
  | .settled outcome => outcome

/-! ## What the core writes in one move -/

/-- The plaintext read of block i completes. -/
def ptReadCompletes (i : Nat) (s : State) : Bool :=
  transactionOk s.platform (s.desc.ptAddr.toNat + 16 * i) (blockLen s.desc.ptLen.toNat i) .read

/-- The ciphertext write of block i completes. -/
def ctWriteCompletes (i : Nat) (s : State) : Bool :=
  transactionOk s.platform (s.desc.ctAddr.toNat + 16 * i) (blockLen s.desc.ptLen.toNat i) .write

/-- The next KEYSTREAM step, up to `lane`, comes to the write of block i: its read completes, and in lane 1 lane 0 completes
first (42_keystream_generator.md R145). -/
def pairWrites (lane i : Nat) (s : State) : Bool :=
  decide (i < s.desc.ptBlocks) && i / 2 == s.dp.pIdx.toNat && decide (i % 2 ≤ lane) && ptReadCompletes i s
    && (i % 2 == 0 || ptReadCompletes (i - 1) s && ctWriteCompletes (i - 1) s)

/-- The micro-operation of STATE, KEYSTREAM up to `lane`, writes the byte at an address if it does not stop: only KEYSTREAM and
FINALIZE_TAG write memory (20_memory.md R70). A write that is denied or cut counts, its bytes old or new (20_memory.md R63). -/
def microOperationWrites (lane addr : Nat) (s : State) : Bool :=
  s.stage == .keystream && (ctRegion s.desc).meets addr 1 && pairWrites lane ((addr - s.desc.ctAddr.toNat) / 16) s
    || s.stage == .finalizeTag && (tagRegion s.desc).meets addr 1

/-- The next move is one in which the core writes the byte at an address, if it does not stop. -/
def nextMoveWrites (addr : Nat) (s : State) : Bool :=
  match s.events with
  | [] => microOperationWrites 1 addr s
  | .core :: _ => microOperationWrites 1 addr s
  | .resetInWrite lane :: _ => microOperationWrites lane.val addr s
  | .transact _ :: _ => false
  | .poll _ _ _ :: _ => false
  | .reset :: _ => false
  | .store _ _ :: _ => false
  | .load _ :: _ => false

/-! ## What the core writes in the rest of the call -/

/-- How many micro-operations a call has left at most, this one included (70_reset_and_hazards.md R241). -/
def microOpsLeft (s : State) : Nat :=
  match s.stage with
  | .idle => 0
  | .validate => 7 + s.desc.pairs + s.desc.ghashBlocks
  | .load => 6 + s.desc.pairs + s.desc.ghashBlocks
  | .deriveSubkey => 5 + s.desc.pairs + s.desc.ghashBlocks
  | .buildJ0 => 4 + s.desc.pairs + s.desc.ghashBlocks
  | .keystream => (s.desc.pairs - s.dp.pIdx.toNat) + 3 + s.desc.ghashBlocks
  | .buildGhash => 3 + s.desc.ghashBlocks
  | .accumulate => (s.desc.ghashBlocks - s.dp.gIdx.toNat) + 2
  | .computeMask => 2
  | .finalizeTag => 1
  | .done => 0
  | .error => 0

/-- The next step, with the reads of other agents unanswered: no step of the core depends on what they return. -/
def blindStep (s : State) : Result := takeTurn (fetch unansweredLoad s)

/-- The byte the core writes at an address in the rest of the call, within `n` steps: each byte of the output regions is written
at most once (20_memory.md R72). None where the call ends, by an error or reset too, without writing it. -/
def laterWrite (addr : Nat) : Nat → State → Option Byte
  | 0, _ => none
  | n + 1, s =>
    if s.busy then
      match blindStep s with
      | .next t => if nextMoveWrites addr s then some (readByte t.mem addr) else laterWrite addr n t
      | .fault _ => none
      | .refused _ => none
    else none

/-- Steps enough for the rest of the call: each takes a pending move or a micro-operation away, but for the reads of a poll,
each of which a micro-operation follows (30_encoding.md R94; 70_reset_and_hazards.md R241). -/
def stepsToEnd (s : State) : Nat := s.events.length + 2 * microOpsLeft s + 2

/-! ## The read -/

/-- What a read of a ciphertext or tag byte during a call returns: a draw between the byte's old value, the one at START, and the
value the core writes there in the call, which memory holds already or the rest of the call writes (70_reset_and_hazards.md
R236, R237). DESIGN CHOICE, log 11: the rest of the call is the one the pending moves give. Once another agent has written a
region of the call, a free byte (log 10). -/
def outputByte (addr : Nat) (s : State) : Byte :=
  if s.hazard then Config.freeByte s.draws
  else if Config.freeBit s.draws then
    (laterWrite addr (stepsToEnd s) { s with draws := s.draws + 1 }).getD (readByte s.mem addr)
  else readByte s.callMem addr

/-- The byte another agent's read returns: memory's, but for an output byte of a running call. -/
def loadedByte (addr : Nat) (s : State) : Byte :=
  if s.busy && inOutputRegion addr s then outputByte addr s else readByte s.mem addr

/-- Another agent reads a byte. -/
def foreignLoad (addr : Word) (s : State) : State :=
  { unansweredLoad addr s with hostByte := loadedByte addr.toNat s }

end Sys2Proof.Machine
end

