-- ==== Sys2Proof/Machine/Step.lean ====
section
/-! DEFINITION. One atomic step of the machine (00_scope.md R12, 40_host_interface.md R111). -/

namespace Sys2Proof.Machine

/-- One step: the next turn's instruction runs, or its move is made. -/
def step (s : State) : Host.Outcome State Fault Refusal := takeTurn (fetch foreignLoad s)

/-- `s` with a word of the opcode table as what the next step fetches (log 18, log 19). -/
def State.withFetchWord (s : State) (nbits w : Nat) : State :=
  match tableWord nbits w with
  | none => s
  | some word => placeWord word s

end Sys2Proof.Machine
end

