-- ==== Sys2Proof/Machine/Call.lean ====
section
/-! DEFINITION. What the rules say one call computes (42_keystream_generator.md R143, R149, 43_ghash_accumulator.md R167,
44_tag_finalizer.md R185, R186). -/

namespace Sys2Proof.Machine

/-! ## GCM_ENC, for any cipher and multiplier (44_tag_finalizer.md R186) -/

/-- KS_i = E(K, CTR(1 + i)) (42_keystream_generator.md R143). -/
def keystreamBlock (encrypt : List Byte → Block → Block) (key : List Byte) (j0 : Block) (i : Nat) : Block :=
  encrypt key (counterBlock j0 (1 + i))

/-- Byte t of the keystream: KS_{t div 16}[t mod 16] (42_keystream_generator.md R149). -/
def keystreamByte (encrypt : List Byte → Block → Block) (key : List Byte) (j0 : Block) (t : Nat) : Byte :=
  blockByte (keystreamBlock encrypt key j0 (t / 16)) (t % 16)

/-- The first n keystream bytes. -/
def keystream (encrypt : List Byte → Block → Block) (key : List Byte) (j0 : Block) (n : Nat) : List Byte :=
  (List.range n).map (keystreamByte encrypt key j0)

/-- The zero-padded blocks of a byte string (00_scope.md R11). -/
def paddedBlocks (bytes : List Byte) : List Block :=
  (List.range (nblocks bytes.length)).map fun i => blockOfBytes ((bytes.drop (16 * i)).take 16)

/-- The GHASH input stream (30_encoding.md R89). -/
def ghashStream (aad ct : List Byte) : List Block :=
  paddedBlocks aad ++ paddedBlocks ct ++ [lengthTrailer aad.length ct.length]

/-- GHASH(H, A, C) (43_ghash_accumulator.md R167). -/
def ghash (mul : Block → Block → Block) (h : Block) (aad ct : List Byte) : Block :=
  (ghashStream aad ct).foldl (foldBlock mul h) 0#128

/-- C of GCM_ENC (44_tag_finalizer.md R186). -/
def gcmCiphertext (encrypt : List Byte → Block → Block) (key : List Byte) (nonce : Nonce) (pt : List Byte) : List Byte :=
  xorBytes pt (keystream encrypt key (initialCounterBlock nonce) pt.length)

/-- TAG of GCM_ENC, from the ciphertext (44_tag_finalizer.md R185). -/
def gcmTag (encrypt : List Byte → Block → Block) (mul : Block → Block → Block) (key : List Byte) (nonce : Nonce)
    (aad ct : List Byte) : Block :=
  ghash mul (encrypt key 0#128) aad ct ^^^ encrypt key (initialCounterBlock nonce)

/-- The contents of a range of data memory. -/
def rangeBytes (m : Memory) (r : AddrRange) : List Byte := readBytes m r.base r.size

/-- C of the call these descriptors describe, over this memory. -/
def callCiphertext (m : Memory) (p : Platform) (d : Descriptors) : List Byte :=
  gcmCiphertext Config.encrypt (rangeBytes m (keyRegion p d)) (nonceOfBytes (rangeBytes m (nonceRegion d)))
    (rangeBytes m (ptRegion d))

/-- TAG of the call these descriptors describe, over this memory. -/
def callTag (m : Memory) (p : Platform) (d : Descriptors) : Block :=
  gcmTag Config.encrypt Config.mul (rangeBytes m (keyRegion p d)) (nonceOfBytes (rangeBytes m (nonceRegion d)))
    (rangeBytes m (aadRegion d)) (callCiphertext m p d)

end Sys2Proof.Machine
end

