-- ==== Sys2Proof/Safety.lean ====
section
/-! DEFINITION. The terms claims are stated in: the causes of errors, when the transactions of a call complete, the invariant of
the machine, and runs of several steps. -/

namespace Sys2Proof.Machine

/-! ## Runs -/

/-- `n` steps, stopping at the first fault or refusal. -/
def runSteps : Nat → State → Result
  | 0, s => .next s
  | n + 1, s =>
    match step s with
    | .next t => runSteps n t
    | .fault why => .fault why
    | .refused why => .refused why

/-- A call has ended: STATE is DONE or ERROR (70_reset_and_hazards.md R245). -/
def State.callEnded (s : State) : Bool := s.isDone || s.isError

/-! ## Transactions that complete -/

/-- An address of a range. -/
abbrev AddrRange.has (r : AddrRange) (addr : Nat) : Prop := r.base ≤ addr ∧ addr < r.base + r.size

/-- Two ranges share a byte (41_setup.md R121). -/
def AddrRange.sharesByte (r q : AddrRange) : Prop := ∃ x, r.has x ∧ q.has x

/-- The cause of a validation error, as 60_exceptions.md R201 to R205 and 41_setup.md R121 word it; the other codes have
none in VALIDATE. -/
def errorCause (p : Platform) (d : Descriptors) : ErrorCode → Prop
  | .none => False
  | .invalidNonceLength => d.nonceLen.toNat ≠ 12
  | .lengthOverflow => 0xFFFFFFFF0 < d.ptLen.toNat ∨ 2 ^ 61 - 1 < d.aadLen.toNat
  | .bufferTooSmall => d.ctCap.toNat < d.ptLen.toNat ∨ d.tagCap.toNat < 16
  | .addressRange => ∃ r ∈ callRegions p d, 0 < r.size ∧ 2 ^ 64 < r.base + r.size
  | .bufferOverlap =>
    (ctRegion d).sharesByte (keyRegion p d) ∨ (ctRegion d).sharesByte (nonceRegion d)
      ∨ (ctRegion d).sharesByte (aadRegion d) ∨ (ctRegion d).sharesByte (tagRegion d)
      ∨ ((ctRegion d).sharesByte (ptRegion d) ∧ d.ctAddr ≠ d.ptAddr)
      ∨ (tagRegion d).sharesByte (keyRegion p d) ∨ (tagRegion d).sharesByte (nonceRegion d)
      ∨ (tagRegion d).sharesByte (aadRegion d) ∨ (tagRegion d).sharesByte (ptRegion d)
  | .busError => False
  | .badCommand => False

/-- Every data-memory transaction of a call completes (20_memory.md R70). -/
structure CallAccessible (p : Platform) (d : Descriptors) : Prop where
  key : transactionOk p d.keyAddr.toNat p.keyBytes .read = true
  nonce : transactionOk p d.nonceAddr.toNat nonceBytes .read = true
  plaintext : ∀ i < d.ptBlocks, transactionOk p (d.ptAddr.toNat + 16 * i) (blockLen d.ptLen.toNat i) .read = true
  ciphertext : ∀ i < d.ptBlocks, transactionOk p (d.ctAddr.toNat + 16 * i) (blockLen d.ptLen.toNat i) .write = true
  readBack : ∀ i < d.ptBlocks, transactionOk p (d.ctAddr.toNat + 16 * i) (blockLen d.ptLen.toNat i) .read = true
  aad : ∀ g < d.aadBlocks, transactionOk p (d.aadAddr.toNat + 16 * g) (blockLen d.aadLen.toNat g) .read = true
  tag : transactionOk p d.tagAddr.toNat tagBytes .write = true

/-! ## The sequencer's graph (10_state.md R52) -/

/-- The states STATE may be in after one step: itself (a step that does not move the sequencer), the edges of R52, and IDLE
by reset. -/
def successors : Stage → List Stage
  | .idle => [.idle, .validate, .error]
  | .validate => [.validate, .load, .error, .idle]
  | .load => [.load, .deriveSubkey, .error, .idle]
  | .deriveSubkey => [.deriveSubkey, .buildJ0, .idle]
  | .buildJ0 => [.buildJ0, .keystream, .buildGhash, .idle]
  | .keystream => [.keystream, .buildGhash, .error, .idle]
  | .buildGhash => [.buildGhash, .accumulate, .idle]
  | .accumulate => [.accumulate, .computeMask, .error, .idle]
  | .computeMask => [.computeMask, .finalizeTag, .idle]
  | .finalizeTag => [.finalizeTag, .done, .error, .idle]
  | .done => [.done, .validate, .error, .idle]
  | .error => [.error, .validate, .idle]

/-! ## The invariant -/

/-- The stages after VALIDATE and before the end of a call. -/
def stagePastValidate (st : Stage) : Bool := stageBusy st && st != .validate

/-- The stages in which H has been derived (10_state.md R58). -/
def stageHasSubkey : Stage → Bool
  | .idle => false
  | .validate => false
  | .load => false
  | .deriveSubkey => false
  | .buildJ0 => true
  | .keystream => true
  | .buildGhash => true
  | .accumulate => true
  | .computeMask => true
  | .finalizeTag => true
  | .done => false
  | .error => false

/-- The stages in which J0 has been built (10_state.md R58). -/
def stageHasJ0 (st : Stage) : Bool := stageHasSubkey st && st != .buildJ0

/-- What holds at reset and after every step. -/
structure State.Inv (s : State) : Prop where
  /-- Data memory is in canonical form (log 1). -/
  memory : s.mem.wf = true
  /-- KEYR holds KEY_BYTES bytes (10_state.md R36). -/
  keyLength : s.dp.keyr.length = s.platform.keyBytes
  /-- Past VALIDATE, the descriptors pass its checks (10_state.md R25, R50). -/
  validated : stagePastValidate s.stage = true → validationError s.platform s.desc = none
  /-- Outside a call, and before LOAD has run, the datapath is all zeros (10_state.md R49, R58). -/
  zeroized : stagePastValidate s.stage = false ∨ s.stage = .load → s.dp = Datapath.zero s.platform.keyBytes
  /-- The subkey is E(K, 0^128) (10_state.md R38). -/
  subkey : stageHasSubkey s.stage = true → s.dp.h = Config.encrypt s.dp.keyr 0#128
  /-- J0 is the nonce with counter 0 (10_state.md R39). -/
  initialCounter : stageHasJ0 s.stage = true → s.dp.j0 = initialCounterBlock s.dp.noncer
  /-- In KEYSTREAM there is a pair left (10_state.md R46). -/
  pairsLeft : s.stage = .keystream → s.dp.pIdx.toNat < s.desc.pairs
  /-- In ACCUMULATE there is a block left (10_state.md R47). -/
  blocksLeft : s.stage = .accumulate → s.dp.gIdx.toNat < s.desc.ghashBlocks
  /-- From BUILD_GHASH on, TR is the trailer of the call (10_state.md R43). -/
  trailer : s.stage = .accumulate → s.dp.tr = lengthTrailer s.desc.aadLen.toNat s.desc.ptLen.toNat
  /-- In FINALIZE_TAG, M is the mask (10_state.md R44). -/
  mask : s.stage = .finalizeTag → s.dp.m = Config.encrypt s.dp.keyr s.dp.j0
  /-- ERR_CODE is nonzero exactly in ERROR (10_state.md R23, 44_tag_finalizer.md R182). -/
  errorCode : s.stage = .error ↔ s.errCode ≠ .none
  /-- ERR_ADDR is 0 but for BUS_ERROR (10_state.md R24). -/
  errorAddr : s.errCode ≠ .busError → s.errAddr = 0
  /-- KEY_BYTES is at least 1 (00_scope.md R8). -/
  keyBytes : 0 < s.platform.keyBytes
  /-- The memory at START is in canonical form (log 1). -/
  callMemory : s.callMem.wf = true

end Sys2Proof.Machine
end

