-- ==== Sys2Proof/Certificates/Slice0/Obligations.lean ====
section
/-! DEFINITION. What is to be proved of the model. Each docstring names the rule of spec/ its statement formalises. -/

open Sys2Proof Sys2Proof.Machine

/-! ## Encoding -/

/-- 30_encoding.md R80, R83, R85: for every well-formed instruction, decoding its encoding gives it back. -/
def Obligations.DecodeOfEncode : Prop :=
  ∀ i : Instr, i.wf = true → decode (encode i) = .instr i

/-- 30_encoding.md R82, R83: the register-port transaction of every well-formed host operation decodes to it. -/
def Obligations.TransactionOfHostOperationDecodes : Prop :=
  ∀ (i : Instr) (tx : BitVec 72), i.wf = true → hostTx i = some tx → decodeHosttx tx = .instr i

/-- 30_encoding.md R82: the operation of every 72-bit word, from WE (bit 71), OFFSET (bits 70:64) and WDATA (bits 63:0) as
digits of the word's value. -/
def Obligations.EveryTransactionHasOneOperation : Prop :=
  ∀ tx : BitVec 72,
    decodeHosttx tx =
      if tx.toNat / 2 ^ 64 % 8 ≠ 0 then
        .rejected (if tx.toNat / 2 ^ 71 = 1 then .misalignedWrite else .misalignedRead)
      else if tx.toNat / 2 ^ 71 = 0 then .instr (.regRead (HostReg.ofIndex (BitVec.ofNat 4 (tx.toNat / 2 ^ 67))))
      else if tx.toNat / 2 ^ 64 % 128 = 0 then .instr (decodeCmd (BitVec.ofNat 64 tx.toNat))
      else .instr (.regWrite (HostReg.ofIndex (BitVec.ofNat 4 (tx.toNat / 2 ^ 67))) (BitVec.ofNat 64 tx.toNat))

/-- 30_encoding.md R83: the command is the WDATA of a write to CMD, compared on all 64 bits; every value from 3 on is
reserved. -/
def Obligations.CommandsAreComparedWhole : Prop :=
  (∀ w : Word, decodeHosttx (hosttxWord true 0 w) = decode (.cmdw w))
    ∧ decode (.cmdw 0) = .instr .nop ∧ decode (.cmdw 1) = .instr .start ∧ decode (.cmdw 2) = .instr .clear
    ∧ ∀ w : Word, 2 < w.toNat → decode (.cmdw w) = .instr (.cmdReserved w)

/-- 30_encoding.md R85: the STATE codes, where STATUS shows them, and the micro-operation each selects; IDLE, DONE and ERROR
select none, and codes 12 to 15 are unused. -/
def Obligations.StateCodesSelectMicroOperations : Prop :=
  [Stage.idle, .validate, .load, .deriveSubkey, .buildJ0, .keystream, .buildGhash, .accumulate, .computeMask, .finalizeTag,
      .done, .error].map Stage.code = [0, 1, 2, 3, 4, 5, 6, 7, 8, 9, 10, 11]
    ∧ (∀ s : State, (readRegister .status s).extractLsb' 8 4 = s.stage.code)
    ∧ decode (.ustate 1) = .instr .validate ∧ decode (.ustate 2) = .instr .load
    ∧ decode (.ustate 3) = .instr .deriveSubkey ∧ decode (.ustate 4) = .instr .buildJ0
    ∧ decode (.ustate 5) = .instr .keystreamPair ∧ decode (.ustate 6) = .instr .buildGhash
    ∧ decode (.ustate 7) = .instr .accumulate ∧ decode (.ustate 8) = .instr .computeMask
    ∧ decode (.ustate 9) = .instr .finalizeTag
    ∧ (∀ c : BitVec 4, c = 0 ∨ c = 10 ∨ c = 11 → decode (.ustate c) = .rejected .noMicroOperation)
    ∧ ∀ c : BitVec 4, 12 ≤ c.toNat → decode (.ustate c) = .rejected .unusedStateCode

/-- 30_encoding.md R82, R83, R85: the decoder gives only well-formed instructions. -/
def Obligations.DecodedInstructionsAreWellFormed : Prop :=
  ∀ (w : Encoded) (i : Instr), decode w = .instr i → i.wf = true

/-- 95_test_vectors.md section 2.1: words written out there decode as it says. A sanity statement. -/
def Obligations.SpecWordsDecode : Prop :=
  decode (.hosttx 0x080000000000000000#72) = .instr (.regRead .status)
    ∧ decode (.hosttx 0x780000000000000000#72) = .instr (.regRead .tagCap)
    ∧ decode (.hosttx 0x090000000000000000#72) = .rejected .misalignedRead
    ∧ decode (.hosttx 0x800000000000000001#72) = .instr .start
    ∧ decode (.hosttx 0x800000000000000100#72) = .instr (.cmdReserved 0x100)
    ∧ decode (.hosttx 0x810000000000000001#72) = .rejected .misalignedWrite
    ∧ decode (.hosttx 0xd8000000000000003c#72) = .instr (.regWrite .ptLen 60)

/-! ## One step -/

/-- 40_host_interface.md R111, 30_encoding.md R82, R85, R94: a step runs the decoded instruction, once the pending move that
asked for it is taken off the list. A transaction runs what its word decodes to; the sequencer runs the micro-operation of
STATE, when its turn is pending and when nothing is; a poll runs REG_READ and leaves a turn of the core and itself pending
unless the value matches (log 6, log 26). -/
def Obligations.StepRunsTheDecodedInstruction : Prop :=
  ∀ (s : State) (rest : List Event) (i : Instr),
    (∀ tx, s.events = .transact tx :: rest → decode (.hosttx tx) = .instr i →
      step s = exec i { s with events := rest })
    ∧ (s.events = .core :: rest → decode (.ustate s.stage.code) = .instr i → step s = exec i { s with events := rest })
    ∧ (s.events = [] → decode (.ustate s.stage.code) = .instr i → step s = exec i s)
    ∧ ∀ reg mask value, s.events = .poll reg mask value :: rest →
      step s = exec (.regRead reg) { s with
        events := if readRegister reg s &&& mask = value then rest else .core :: .poll reg mask value :: rest }

/-- 30_encoding.md R81: a misaligned read returns RDATA = 0, a misaligned write has no effect, and neither raises an
error. -/
def Obligations.MisalignedTransactions : Prop :=
  ∀ (s : State) (tx : BitVec 72) (rest : List Event), s.events = .transact tx :: rest → tx.toNat / 2 ^ 64 % 8 ≠ 0 →
    step s = .next (if tx.toNat / 2 ^ 71 = 1 then { s with events := rest } else { s with events := rest, rdata := 0 })

/-- 10_state.md R52: "In IDLE, DONE and ERROR the sequencer has no step." With nothing pending the state stays as it is
(the model's stutter, log 7). -/
def Obligations.CoreWaitsOutsideACall : Prop :=
  ∀ s : State, s.busy = false → s.events = [] → step s = .next s

/-! ## The register port -/

/-- 40_host_interface.md R100: the offset of each register (10_state.md R20), REG_READ's encoding, what it returns for each
register, and that nothing else changes. -/
def Obligations.RegReadReturnsTheRegister : Prop :=
  [HostReg.cmd, .status, .errCode, .errAddr, .irqEn, .keyAddr, .nonceAddr, .nonceLen, .aadAddr, .aadLen, .ptAddr, .ptLen,
      .ctAddr, .ctCap, .tagAddr, .tagCap].map HostReg.offset
    = [0x00, 0x08, 0x10, 0x18, 0x20, 0x28, 0x30, 0x38, 0x40, 0x48, 0x50, 0x58, 0x60, 0x68, 0x70, 0x78]
  ∧ (∀ (r : HostReg) (v : Word), decodeHosttx (hosttxWord false r.offset v) = .instr (.regRead r)) ∧ ∀ s : State,
    let c := s.stage.code.toNat
    exec (.regRead .cmd) s = .next { s with rdata := 0 }
    ∧ exec (.regRead .status) s = .next { s with
        rdata := BitVec.ofNat 64 ((if 1 ≤ c ∧ c ≤ 9 then 1 else 0) + (if c = 10 then 2 else 0) + (if c = 11 then 4 else 0)
          + (if s.cmdDropped then 8 else 0) + 256 * c) }
    ∧ exec (.regRead .errCode) s = .next { s with rdata := BitVec.ofNat 64 s.errCode.code.toNat }
    ∧ exec (.regRead .errAddr) s = .next { s with rdata := s.errAddr }
    ∧ exec (.regRead .irqEn) s = .next { s with rdata := if s.irqEn then 1 else 0 }
    ∧ exec (.regRead .keyAddr) s = .next { s with rdata := s.desc.keyAddr }
    ∧ exec (.regRead .nonceAddr) s = .next { s with rdata := s.desc.nonceAddr }
    ∧ exec (.regRead .nonceLen) s = .next { s with rdata := s.desc.nonceLen }
    ∧ exec (.regRead .aadAddr) s = .next { s with rdata := s.desc.aadAddr }
    ∧ exec (.regRead .aadLen) s = .next { s with rdata := s.desc.aadLen }
    ∧ exec (.regRead .ptAddr) s = .next { s with rdata := s.desc.ptAddr }
    ∧ exec (.regRead .ptLen) s = .next { s with rdata := s.desc.ptLen }
    ∧ exec (.regRead .ctAddr) s = .next { s with rdata := s.desc.ctAddr }
    ∧ exec (.regRead .ctCap) s = .next { s with rdata := s.desc.ctCap }
    ∧ exec (.regRead .tagAddr) s = .next { s with rdata := s.desc.tagAddr }
    ∧ exec (.regRead .tagCap) s = .next { s with rdata := s.desc.tagCap }

/-- 10_state.md R22: every bit of STATUS, its reset value, and how BUSY, DONE and ERROR exclude one another. -/
def Obligations.StatusFields : Prop :=
  readRegister .status State.reset = 0 ∧ ∀ s : State,
    let w := readRegister .status s
    let c := s.stage.code.toNat
    (w.getLsbD 0 = true ↔ 1 ≤ c ∧ c ≤ 9) ∧ (w.getLsbD 1 = true ↔ c = 10) ∧ (w.getLsbD 2 = true ↔ c = 11)
    ∧ w.getLsbD 3 = s.cmdDropped
    ∧ (∀ b, 4 ≤ b → b < 8 → w.getLsbD b = false) ∧ w.extractLsb' 8 4 = s.stage.code
    ∧ (∀ b, 12 ≤ b → w.getLsbD b = false)
    ∧ ¬(w.getLsbD 0 = true ∧ w.getLsbD 1 = true) ∧ ¬(w.getLsbD 0 = true ∧ w.getLsbD 2 = true)
    ∧ ¬(w.getLsbD 1 = true ∧ w.getLsbD 2 = true)
    ∧ ((w.getLsbD 0 = false ∧ w.getLsbD 1 = false ∧ w.getLsbD 2 = false) ↔ s.stage = .idle)
    ∧ ∀ v, exec (.regWrite .status v) s = .next s

/-- 40_host_interface.md R102: a write to STATUS, ERR_CODE or ERR_ADDR has no effect in any state. -/
def Obligations.WriteToReadOnlyRegisterIgnored : Prop :=
  ∀ (s : State) (v : Word), exec (.regWrite .status v) s = .next s ∧ exec (.regWrite .errCode v) s = .next s
    ∧ exec (.regWrite .errAddr v) s = .next s

/-- 40_host_interface.md R103: a write to IRQ_EN sets its bit 0 in every state, and irq follows at once. -/
def Obligations.WriteIrqEnTakesEffectAtOnce : Prop :=
  ∀ (s : State) (v : Word), ∃ t, exec (.regWrite .irqEn v) s = .next t ∧ t = { s with irqEn := t.irqEn }
    ∧ (readRegister .irqEn t).toNat = v.toNat % 2
    ∧ (t.irq = true ↔ v.toNat % 2 = 1 ∧ (s.stage = .done ∨ s.stage = .error))

/-- 40_host_interface.md R104: a descriptor write outside a call sets that register and no other; during a call it is
ignored, and CMD_DROPPED is not set. -/
def Obligations.DescriptorWrite : Prop :=
  ∀ (s : State) (r : HostReg) (v : Word), 5 ≤ r.index.toNat →
    (s.busy = false → ∃ t, exec (.regWrite r v) s = .next t ∧ t = { s with desc := t.desc } ∧ readRegister r t = v
      ∧ ∀ r', r' ≠ r → readRegister r' t = readRegister r' s)
    ∧ (s.busy = true → exec (.regWrite r v) s = .next s)

/-- 40_host_interface.md R105: NOP's encoding, and that it has no effect in any state. -/
def Obligations.NopHasNoEffect : Prop :=
  decodeHosttx 0x800000000000000000#72 = .instr .nop ∧ ∀ s : State, exec .nop s = .next s

/-- 40_host_interface.md R106: START's encoding and its effect. That START sets the fields `hazard` and `callMem`, which are the
model's own, is the model's choice (log 10, log 11). -/
def Obligations.StartBeginsACall : Prop :=
  decodeHosttx 0x800000000000000001#72 = .instr .start ∧ ∀ s : State,
    (s.busy = false → exec .start s = .next { s with
      errCode := .none, errAddr := 0, cmdDropped := false, stage := .validate, hazard := false, callMem := s.mem })
    ∧ (s.busy = true → exec .start s = .next { s with cmdDropped := true })

/-- 40_host_interface.md R107: CLEAR's encoding and its effect; STATUS becomes 0. -/
def Obligations.ClearReturnsToIdle : Prop :=
  decodeHosttx 0x800000000000000002#72 = .instr .clear ∧ ∀ s : State,
    (s.busy = false → ∃ t, exec .clear s = .next t
      ∧ t = { s with errCode := .none, errAddr := 0, cmdDropped := false, stage := .idle } ∧ readRegister .status t = 0)
    ∧ (s.busy = true → exec .clear s = .next { s with cmdDropped := true })

/-- 40_host_interface.md R108, 60_exceptions.md R207: a reserved command value raises BAD_COMMAND outside a call and is
dropped during one; CMD_DROPPED is unchanged by the error. -/
def Obligations.ReservedCommandRaisesBadCommand : Prop :=
  ErrorCode.badCommand.code = 7 ∧ ∀ w : Word, 2 < w.toNat → decode (.cmdw w) = .instr (.cmdReserved w) ∧ ∀ s : State,
    (s.busy = false → exec (.cmdReserved w) s = .next { s with
      errCode := .badCommand, errAddr := 0, stage := .error, dp := Datapath.zero s.platform.keyBytes })
    ∧ (s.busy = true → exec (.cmdReserved w) s = .next { s with cmdDropped := true })

/-- 40_host_interface.md R109: a START, CLEAR or reserved command during a call changes CMD_DROPPED alone. -/
def Obligations.CommandsAreDroppedDuringACall : Prop :=
  ∀ s : State, s.busy = true →
    exec .start s = .next { s with cmdDropped := true } ∧ exec .clear s = .next { s with cmdDropped := true }
    ∧ ∀ w : Word, 2 < w.toNat → exec (.cmdReserved w) s = .next { s with cmdDropped := true }

/-- 40_host_interface.md R104, R105, R109, 10_state.md R25: during a call every host operation completes, and changes at
most CMD_DROPPED, IRQ_EN and what the host has read. -/
def Obligations.HostOperationsCannotDisturbACall : Prop :=
  ∀ (i : Instr) (tx : BitVec 72) (s : State), hostTx i = some tx → s.busy = true →
    ∃ t, exec i s = .next t ∧ t = { s with cmdDropped := t.cmdDropped, irqEn := t.irqEn, rdata := t.rdata }

/-- 10_state.md R33: what sets and clears CMD_DROPPED, for every instruction, for reset and for every other move that is no
instruction, and where STATUS shows it. -/
def Obligations.WritersOfCmdDropped : Prop :=
  (∀ s : State, (readRegister .status s).getLsbD 3 = s.cmdDropped)
  ∧ (∀ (i : Instr) (s t : State), i.wf = true → exec i s = .next t →
    t.cmdDropped = match i with
      | .start => s.busy
      | .clear => s.busy
      | .cmdReserved _ => s.busy || s.cmdDropped
      | _ => s.cmdDropped)
  ∧ (∀ (s : State) (rest : List Event), s.events = .reset :: rest → ∃ t, step s = .next t ∧ t.cmdDropped = false)
  ∧ ∀ (s t : State) (e : Event) (rest : List Event), s.events = e :: rest → step s = .next t →
    t.cmdDropped = match e with
      | .reset => false
      | .resetInWrite _ => false
      | .store _ _ => s.cmdDropped
      | .load _ => s.cmdDropped
      | .poll _ _ _ => s.cmdDropped
      | .core => s.cmdDropped
      | .transact _ => t.cmdDropped

/-- 10_state.md R23, R24: ERR_CODE and ERR_ADDR change only by START and CLEAR, which zero them, and by error entry, which
leaves ERR_ADDR 0 but for BUS_ERROR. -/
def Obligations.WritersOfTheErrorRegisters : Prop :=
  ∀ (i : Instr) (s t : State), i.wf = true → exec i s = .next t →
    (t.errCode = s.errCode ∧ t.errAddr = s.errAddr)
    ∨ ((i = .start ∨ i = .clear) ∧ s.busy = false ∧ t.errCode = .none ∧ t.errAddr = 0)
    ∨ (t.stage = .error ∧ t.errCode ≠ .none ∧ (t.errCode ≠ .busError → t.errAddr = 0))

/-- 40_host_interface.md R110: the level of irq, and when it rises and falls. -/
def Obligations.IrqLevel : Prop :=
  ∀ s : State,
    (s.irq = true ↔ s.irqEn = true ∧ (s.stage = .done ∨ s.stage = .error))
    ∧ (enterDone s).irq = s.irqEn ∧ (∀ code addr, (raiseError code addr s).irq = s.irqEn)
    ∧ (s.busy = false → ∃ t, exec .start s = .next t ∧ t.irq = false)
    ∧ (s.busy = false → ∃ t, exec .clear s = .next t ∧ t.irq = false)
    ∧ (∀ v : Word, v.getLsbD 0 = false → ∃ t, exec (.regWrite .irqEn v) s = .next t ∧ t.irq = false)
    ∧ ∀ rest, s.events = .reset :: rest → ∃ t, step s = .next t ∧ t.irq = false

/-! ## Setup -/

/-- 41_setup.md R120, R121: VALIDATE passes to LOAD exactly when no cause holds, and otherwise enters ERROR with the lowest
code whose cause holds; regions are compared byte by byte. -/
def Obligations.ValidateReportsTheLowestCause : Prop :=
  decode (.ustate 1) = .instr .validate ∧ ∀ s : State,
    ((∀ code, ¬ errorCause s.platform s.desc code) → exec .validate s = .next { s with stage := .load })
    ∧ ∀ code, errorCause s.platform s.desc code →
      (∀ lower : ErrorCode, lower.code.toNat < code.code.toNat → ¬ errorCause s.platform s.desc lower) →
      exec .validate s = .next { s with
        errCode := code, errAddr := 0, stage := .error, dp := Datapath.zero s.platform.keyBytes }

/-- 41_setup.md R122: LOAD copies the key and the nonce; a denied read enters ERROR with BUS_ERROR at its start address, and
after a denied key read the nonce is not read (whether it could be does not matter). -/
def Obligations.LoadCopiesKeyAndNonce : Prop :=
  decode (.ustate 2) = .instr .load ∧ ∀ s : State,
    (transactionOk s.platform s.desc.keyAddr.toNat s.platform.keyBytes .read = true →
      transactionOk s.platform s.desc.nonceAddr.toNat 12 .read = true →
      ∃ nonce : Nonce, exec .load s = .next { s with
          dp := { s.dp with keyr := readBytes s.mem s.desc.keyAddr.toNat s.platform.keyBytes, noncer := nonce }
          stage := .deriveSubkey }
        ∧ ∀ k < 12, nonce.toNat / 256 ^ (11 - k) % 256 = (readByte s.mem (s.desc.nonceAddr.toNat + k)).toNat)
    ∧ (transactionDenied s.platform s.desc.keyAddr.toNat s.platform.keyBytes .read = true →
      exec .load s = .next { s with
        errCode := .busError, errAddr := s.desc.keyAddr, stage := .error, dp := Datapath.zero s.platform.keyBytes })
    ∧ (transactionOk s.platform s.desc.keyAddr.toNat s.platform.keyBytes .read = true →
      transactionDenied s.platform s.desc.nonceAddr.toNat 12 .read = true →
      exec .load s = .next { s with
        errCode := .busError, errAddr := s.desc.nonceAddr, stage := .error, dp := Datapath.zero s.platform.keyBytes })

/-- 41_setup.md R124: DERIVE_SUBKEY writes H = E(KEYR, zeros(16)). -/
def Obligations.DeriveSubkeyWritesH : Prop :=
  decode (.ustate 3) = .instr .deriveSubkey ∧ ∀ s : State, exec .deriveSubkey s = .next { s with
    dp := { s.dp with h := Config.encrypt s.dp.keyr 0#128 }, stage := .buildJ0 }

/-- 41_setup.md R125: BUILD_J0 writes the nonce with counter 0, and goes to KEYSTREAM exactly when PT_LEN is not 0. -/
def Obligations.BuildJ0FormsTheInitialCounterBlock : Prop :=
  decode (.ustate 4) = .instr .buildJ0 ∧ ∀ s : State, ∃ j0 : Block, exec .buildJ0 s = .next { s with
      dp := { s.dp with j0 := j0, pIdx := 0 }
      stage := if s.desc.ptLen = 0 then .buildGhash else .keystream }
    ∧ j0.toNat = s.dp.noncer.toNat * 2 ^ 32

/-! ## Keystream -/

/-- 20_memory.md R66: the counter of a counter block is big-endian in bytes 12 to 15; bytes 0 to 11 stay those of J0
(42_keystream_generator.md R142). -/
def Obligations.CounterFieldIsBigEndian : Prop :=
  ∀ (j0 : Block) (c : Nat),
    (∀ k < 12, blockByte (counterBlock j0 c) k = blockByte j0 k)
    ∧ ∀ k < 4, (blockByte (counterBlock j0 c) (12 + k)).toNat = c % 2 ^ 32 / 256 ^ (3 - k) % 256

/-- 42_keystream_generator.md R145 to R147, R149: one KEYSTREAM step of a valid call whose transactions complete. Every
ciphertext byte of the pair's real blocks is the plaintext byte XOR its keystream byte, and every other byte of memory and
every other register stays; P_IDX advances, and after the last pair STATE is BUILD_GHASH. The premise that no other agent
wrote a region of the call is the hazard rule (70_reset_and_hazards.md R236). -/
def Obligations.KeystreamPairEncryptsItsBlocks : Prop :=
  ∀ s : State, s.mem.wf = true → s.hazard = false → validationError s.platform s.desc = none →
    s.dp.pIdx.toNat < s.desc.pairs →
    (∀ l < 2, 2 * s.dp.pIdx.toNat + l < s.desc.ptBlocks →
      transactionOk s.platform (s.desc.ptAddr.toNat + 16 * (2 * s.dp.pIdx.toNat + l))
          (blockLen s.desc.ptLen.toNat (2 * s.dp.pIdx.toNat + l)) .read = true
        ∧ transactionOk s.platform (s.desc.ctAddr.toNat + 16 * (2 * s.dp.pIdx.toNat + l))
          (blockLen s.desc.ptLen.toNat (2 * s.dp.pIdx.toNat + l)) .write = true) →
    ∃ mem : Memory,
      exec .keystreamPair s = .next { s with
        dp := { s.dp with
          cb0 := counterBlock s.dp.j0 (1 + 2 * s.dp.pIdx.toNat)
          cb1 := counterBlock s.dp.j0 (2 + 2 * s.dp.pIdx.toNat)
          ks0 := Config.encrypt s.dp.keyr (counterBlock s.dp.j0 (1 + 2 * s.dp.pIdx.toNat))
          ks1 := Config.encrypt s.dp.keyr (counterBlock s.dp.j0 (2 + 2 * s.dp.pIdx.toNat))
          pIdx := BitVec.ofNat 32 (s.dp.pIdx.toNat + 1) }
        stage := if s.dp.pIdx.toNat + 1 = s.desc.pairs then .buildGhash else s.stage
        mem := mem }
      ∧ ∀ x, readByte mem x =
        if s.desc.ctAddr.toNat + 32 * s.dp.pIdx.toNat ≤ x
            ∧ x < s.desc.ctAddr.toNat + min (32 * s.dp.pIdx.toNat + 32) s.desc.ptLen.toNat then
          readByte s.mem (s.desc.ptAddr.toNat + (x - s.desc.ctAddr.toNat))
            ^^^ keystreamByte Config.encrypt s.dp.keyr s.dp.j0 (x - s.desc.ctAddr.toNat)
        else readByte s.mem x

/-- 42_keystream_generator.md R145, 60_exceptions.md R209, R211: a bus error in lane 0. A denied read leaves memory as it
was; a denied write leaves each of its bytes old or new, and no other byte is touched. -/
def Obligations.KeystreamBusErrorInLaneZero : Prop :=
  ∀ s : State, s.mem.wf = true → s.hazard = false → 2 * s.dp.pIdx.toNat < s.desc.ptBlocks →
    let rd := s.desc.ptAddr.toNat + 16 * (2 * s.dp.pIdx.toNat)
    let wr := s.desc.ctAddr.toNat + 16 * (2 * s.dp.pIdx.toNat)
    let n := blockLen s.desc.ptLen.toNat (2 * s.dp.pIdx.toNat)
    (transactionDenied s.platform rd n .read = true → exec .keystreamPair s = .next { s with
      errCode := .busError, errAddr := BitVec.ofNat 64 rd, stage := .error, dp := Datapath.zero s.platform.keyBytes })
    ∧ (transactionOk s.platform rd n .read = true → transactionDenied s.platform wr n .write = true →
      ∃ (mem : Memory) (draws : Nat), exec .keystreamPair s = .next { s with
          errCode := .busError, errAddr := BitVec.ofNat 64 wr, stage := .error
          dp := Datapath.zero s.platform.keyBytes, mem := mem, draws := draws }
        ∧ (∀ x, ¬(wr ≤ x ∧ x < wr + n) → readByte mem x = readByte s.mem x)
        ∧ ∀ k < n, readByte mem (wr + k) = readByte s.mem (wr + k)
          ∨ readByte mem (wr + k) = readByte s.mem (rd + k)
              ^^^ blockByte (Config.encrypt s.dp.keyr (counterBlock s.dp.j0 (1 + 2 * s.dp.pIdx.toNat))) k)

/-- 42_keystream_generator.md R145, 60_exceptions.md R209, R211: a bus error in lane 1. Lane 0's ciphertext block stands. After
a denied read nothing else has changed; after a denied write each byte of lane 1's block is old or new, and no other byte is
touched. The two regions coincide or share no byte, as VALIDATE has checked. -/
def Obligations.KeystreamBusErrorInLaneOne : Prop :=
  ∀ s : State, s.mem.wf = true → s.hazard = false → validationError s.platform s.desc = none →
    2 * s.dp.pIdx.toNat + 1 < s.desc.ptBlocks →
    let rd := s.desc.ptAddr.toNat + 16 * (2 * s.dp.pIdx.toNat)
    let wr := s.desc.ctAddr.toNat + 16 * (2 * s.dp.pIdx.toNat)
    let n := blockLen s.desc.ptLen.toNat (2 * s.dp.pIdx.toNat + 1)
    let lane0 := fun (mem : Memory) => ∀ k < 16, readByte mem (wr + k) = readByte s.mem (rd + k)
      ^^^ blockByte (Config.encrypt s.dp.keyr (counterBlock s.dp.j0 (1 + 2 * s.dp.pIdx.toNat))) k
    transactionOk s.platform rd 16 .read = true → transactionOk s.platform wr 16 .write = true →
    (transactionDenied s.platform (rd + 16) n .read = true →
      ∃ mem : Memory, exec .keystreamPair s = .next { s with
          errCode := .busError, errAddr := BitVec.ofNat 64 (rd + 16), stage := .error
          dp := Datapath.zero s.platform.keyBytes, mem := mem }
        ∧ lane0 mem ∧ ∀ x, ¬(wr ≤ x ∧ x < wr + 16) → readByte mem x = readByte s.mem x)
    ∧ (transactionOk s.platform (rd + 16) n .read = true → transactionDenied s.platform (wr + 16) n .write = true →
      ∃ (mem : Memory) (draws : Nat), exec .keystreamPair s = .next { s with
          errCode := .busError, errAddr := BitVec.ofNat 64 (wr + 16), stage := .error
          dp := Datapath.zero s.platform.keyBytes, mem := mem, draws := draws }
        ∧ lane0 mem ∧ (∀ x, ¬(wr ≤ x ∧ x < wr + 16 + n) → readByte mem x = readByte s.mem x)
        ∧ ∀ k < n, readByte mem (wr + 16 + k) = readByte s.mem (wr + 16 + k)
          ∨ readByte mem (wr + 16 + k) = readByte s.mem (rd + 16 + k)
              ^^^ blockByte (Config.encrypt s.dp.keyr (counterBlock s.dp.j0 (2 + 2 * s.dp.pIdx.toNat))) k)

/-- 42_keystream_generator.md R148: after VALIDATE no applied counter wraps or equals J0's counter 0; the one wrapping value
is the discarded lane 1 of the last pair when NC = 2^32 − 1, where the counter block is J0. -/
def Obligations.AppliedCountersDoNotWrap : Prop :=
  (∀ (p : Platform) (d : Descriptors), validationError p d = none →
    d.ptBlocks ≤ 2 ^ 32 - 1 ∧ ∀ i < d.ptBlocks, 1 ≤ 1 + i ∧ 1 + i ≤ 2 ^ 32 - 1)
  ∧ ∀ n : Nonce, counterBlock (initialCounterBlock n) (1 + (2 ^ 32 - 1)) = initialCounterBlock n

/-- 44_tag_finalizer.md R184: the block whose encryption is the mask differs from every applied counter block, so under any
cipher that is a permutation per key the mask is no keystream block; distinct keystream blocks differ too; and the mask is H
exactly when the nonce is zero. -/
def Obligations.MaskIsNeverKeystream : Prop :=
  ∀ encrypt : List Byte → Block → Block, CipherContract encrypt →
    ∀ (p : Platform) (d : Descriptors) (key : List Byte) (n : Nonce), validationError p d = none →
      (∀ i < d.ptBlocks, encrypt key (initialCounterBlock n) ≠ keystreamBlock encrypt key (initialCounterBlock n) i)
      ∧ (∀ i < d.ptBlocks, ∀ j < d.ptBlocks, i ≠ j →
        keystreamBlock encrypt key (initialCounterBlock n) i ≠ keystreamBlock encrypt key (initialCounterBlock n) j)
      ∧ (encrypt key (initialCounterBlock n) = encrypt key 0#128 ↔ n = 0#96)

/-! ## GHASH -/

/-- 43_ghash_accumulator.md R164, 30_encoding.md R88: BUILD_GHASH writes the trailer of the two bit-lengths, zeroes Y and
G_IDX, and goes to ACCUMULATE. The value of TR is stated where the bit-lengths fit their fields, as VALIDATE ensures. -/
def Obligations.BuildGhashSetsUpTheFold : Prop :=
  decode (.ustate 6) = .instr .buildGhash ∧ ∀ s : State, ∃ tr : Block, exec .buildGhash s = .next { s with
      dp := { s.dp with tr := tr, y := 0, gIdx := 0 }, stage := .accumulate }
    ∧ (8 * s.desc.aadLen.toNat < 2 ^ 64 → 8 * s.desc.ptLen.toNat < 2 ^ 64 →
      tr.toNat = 8 * s.desc.aadLen.toNat * 2 ^ 64 + 8 * s.desc.ptLen.toNat)

/-- 43_ghash_accumulator.md R165: ACCUMULATE folds the AAD block, the ciphertext block or the trailer that G_IDX selects,
zero-padded inside the core; a denied read enters ERROR with BUS_ERROR at the block's address. -/
def Obligations.AccumulateFoldsTheNextBlock : Prop :=
  decode (.ustate 7) = .instr .accumulate ∧ ∀ s : State,
    let g := s.dp.gIdx.toNat
    let aad := s.desc.aadAddr.toNat + 16 * g
    let ct := s.desc.ctAddr.toNat + 16 * (g - s.desc.aadBlocks)
    let aadN := min 16 (s.desc.aadLen.toNat - 16 * g)
    let ctN := min 16 (s.desc.ptLen.toNat - 16 * (g - s.desc.aadBlocks))
    let folded := fun b : Block => { s with
      dp := { s.dp with y := Config.mul (s.dp.y ^^^ b) s.dp.h, gIdx := BitVec.ofNat 64 (g + 1) }
      stage := if g + 1 = s.desc.ghashBlocks then .computeMask else s.stage }
    let failed := fun a : Nat => { s with
      errCode := .busError, errAddr := BitVec.ofNat 64 a, stage := .error, dp := Datapath.zero s.platform.keyBytes }
    (g < s.desc.aadBlocks → transactionOk s.platform aad aadN .read = true →
      ∃ b : Block, exec .accumulate s = .next (folded b)
        ∧ ∀ k < 16, blockByte b k = if k < aadN then readByte s.mem (aad + k) else 0)
    ∧ (g < s.desc.aadBlocks → transactionDenied s.platform aad aadN .read = true →
      exec .accumulate s = .next (failed aad))
    ∧ (s.desc.aadBlocks ≤ g → g < s.desc.aadBlocks + s.desc.ptBlocks → transactionOk s.platform ct ctN .read = true →
      ∃ b : Block, exec .accumulate s = .next (folded b)
        ∧ ∀ k < 16, blockByte b k = if k < ctN then readByte s.mem (ct + k) else 0)
    ∧ (s.desc.aadBlocks ≤ g → g < s.desc.aadBlocks + s.desc.ptBlocks → transactionDenied s.platform ct ctN .read = true →
      exec .accumulate s = .next (failed ct))
    ∧ (g = s.desc.aadBlocks + s.desc.ptBlocks → exec .accumulate s = .next (folded s.dp.tr))

/-- 43_ghash_accumulator.md R168: GHASH of the trailer-only stream is MUL(zeros(16), H), which is zero for every multiplier
that keeps the laws of R160. -/
def Obligations.GhashOfNothingIsZero : Prop :=
  ∀ (mul : Block → Block → Block) (h : Block),
    ghash mul h [] [] = mul 0#128 h ∧ (MulContract mul → ghash mul h [] [] = 0#128)

/-! ## Tag -/

/-- 44_tag_finalizer.md R180: COMPUTE_MASK writes M = E(KEYR, J0). -/
def Obligations.ComputeMaskEncryptsJ0 : Prop :=
  decode (.ustate 8) = .instr .computeMask ∧ ∀ s : State, exec .computeMask s = .next { s with
    dp := { s.dp with m := Config.encrypt s.dp.keyr s.dp.j0 }, stage := .finalizeTag }

/-- 44_tag_finalizer.md R181, R182, R183: FINALIZE_TAG writes exactly the 16 bytes of Y XOR M at TAG_ADDR and enters DONE
with a zeroized datapath; a denied write enters ERROR at TAG_ADDR, each byte of the tag region old or new. -/
def Obligations.FinalizeTagStoresTheTag : Prop :=
  decode (.ustate 9) = .instr .finalizeTag ∧ ∀ s : State, s.mem.wf = true → s.hazard = false →
    let a := s.desc.tagAddr.toNat
    (transactionOk s.platform a 16 .write = true →
      ∃ mem : Memory, exec .finalizeTag s = .next { s with
          stage := .done, dp := Datapath.zero s.platform.keyBytes, mem := mem }
        ∧ ∀ x, readByte mem x = if a ≤ x ∧ x < a + 16 then blockByte (s.dp.y ^^^ s.dp.m) (x - a) else readByte s.mem x)
    ∧ (transactionDenied s.platform a 16 .write = true →
      ∃ (mem : Memory) (draws : Nat), exec .finalizeTag s = .next { s with
          errCode := .busError, errAddr := s.desc.tagAddr, stage := .error
          dp := Datapath.zero s.platform.keyBytes, mem := mem, draws := draws }
        ∧ (∀ x, ¬(a ≤ x ∧ x < a + 16) → readByte mem x = readByte s.mem x)
        ∧ ∀ k < 16, readByte mem (a + k) = readByte s.mem (a + k)
          ∨ readByte mem (a + k) = blockByte (s.dp.y ^^^ s.dp.m) k)

/-! ## Frames -/

/-- 20_memory.md R70: KEYSTREAM and FINALIZE_TAG are the only instructions that write memory. -/
def Obligations.OnlyKeystreamAndFinalizeTagWriteMemory : Prop :=
  ∀ (i : Instr) (s t : State), i ≠ .keystreamPair → i ≠ .finalizeTag → exec i s = .next t → t.mem = s.mem

/-- 10_state.md R25, R32, R33, 20_memory.md R64: a micro-operation, ending well or in an error, changes none of the
descriptors, IRQ_EN, CMD_DROPPED, what the host has read, the platform, the pending moves, or the model's own two notes of the
call (log 10, log 11). -/
def Obligations.MicroOperationFrame : Prop :=
  ∀ (i : Instr) (s t : State), hostTx i = none → exec i s = .next t →
    t.desc = s.desc ∧ t.irqEn = s.irqEn ∧ t.cmdDropped = s.cmdDropped ∧ t.rdata = s.rdata ∧ t.hostByte = s.hostByte
      ∧ t.platform = s.platform ∧ t.events = s.events ∧ t.hazard = s.hazard
      ∧ t.callMem = s.callMem

/-- 20_memory.md R63, R73, 44_tag_finalizer.md R183: whatever the outcome, KEYSTREAM leaves every byte outside the
ciphertext region, and FINALIZE_TAG every byte outside the tag region. -/
def Obligations.StoringInstructionsStayInTheirRegion : Prop :=
  ∀ (s t : State) (x : Nat), s.mem.wf = true →
    (exec .keystreamPair s = .next t → ¬ (ctRegion s.desc).has x → readByte t.mem x = readByte s.mem x)
    ∧ (exec .finalizeTag s = .next t → ¬ (tagRegion s.desc).has x → readByte t.mem x = readByte s.mem x)

/-- 20_memory.md R62, R63, R65: a write that completes is what a read of the same bytes then returns, and it leaves every
other byte. -/
def Obligations.MemReadAfterMemWrite : Prop :=
  ∀ (s : State) (addr : Nat) (bytes : List Byte), s.mem.wf = true → s.hazard = false →
    transactionOk s.platform addr bytes.length .write = true → transactionOk s.platform addr bytes.length .read = true →
    ∃ t, memWrite addr bytes s = .ok t ∧ memRead addr bytes.length t = .ok bytes ∧ t = { s with mem := t.mem }
      ∧ t.mem.wf = true ∧ ∀ x, ¬(addr ≤ x ∧ x < addr + bytes.length) → readByte t.mem x = readByte s.mem x

/-! ## Reset and the environment -/

/-- 10_state.md R57, 70_reset_and_hazards.md R230: every host-visible register reads 0 after reset, the datapath is all
zeros, STATE is IDLE and CMD_DROPPED is 0. -/
def Obligations.ResetValues : Prop :=
  (∀ r : HostReg, readRegister r State.reset = 0)
    ∧ State.reset.dp = Datapath.zero State.reset.platform.keyBytes ∧ State.reset.stage = .idle
    ∧ State.reset.cmdDropped = false ∧ State.reset.irq = false

/-- 70_reset_and_hazards.md R230, R233: the reset event, in any state; data memory and platform stay. That the move leaves the
list `events` and that reset clears the field `hazard`, which are the model's own, is the model's choice (log 6, log 10). -/
def Obligations.ResetEvent : Prop :=
  ∀ (s : State) (rest : List Event), s.events = .reset :: rest →
    ∃ t, step s = .next t ∧ readRegister .status t = 0 ∧ t.irq = false ∧ t = { s with
      events := rest, stage := .idle, cmdDropped := false, errCode := .none, errAddr := 0, irqEn := false
      desc := ⟨0, 0, 0, 0, 0, 0, 0, 0, 0, 0, 0⟩, dp := Datapath.zero s.platform.keyBytes, hazard := false }

/-- 70_reset_and_hazards.md R231: reset inside a memory write, FINALIZE_TAG's or that of either lane of KEYSTREAM. The core is
reset; each byte of the write that is cut is old or new; lane 0's block stands when lane 1's is cut; and no other byte changes.
Whatever became of the accesses before the cut, KEYSTREAM touches the ciphertext region alone. In a stage that writes no memory
it is a plain reset. That the cut is a move of its own, naming the lane, is the model's choice (log 9). -/
def Obligations.ResetInsideAWrite : Prop :=
  ∀ (s : State) (lane : Fin 2) (rest : List Event), s.mem.wf = true → s.events = .resetInWrite lane :: rest →
    let tag := s.desc.tagAddr.toNat
    let i := 2 * s.dp.pIdx.toNat + lane.val
    let n := blockLen s.desc.ptLen.toNat i
    let rd0 := s.desc.ptAddr.toNat + 16 * (2 * s.dp.pIdx.toNat)
    let wr0 := s.desc.ctAddr.toNat + 16 * (2 * s.dp.pIdx.toNat)
    let rd := s.desc.ptAddr.toNat + 16 * i
    let wr := s.desc.ctAddr.toNat + 16 * i
    let ks := fun j : Nat => Config.encrypt s.dp.keyr (counterBlock s.dp.j0 (1 + j))
    let isReset := fun t : State => t = { resetCore s with events := rest, mem := t.mem, draws := t.draws }
    (s.stage = .finalizeTag → s.hazard = false →
      transactionOk s.platform tag 16 .write = true ∨ transactionDenied s.platform tag 16 .write = true →
      ∃ t, step s = .next t ∧ isReset t
        ∧ (∀ x, ¬ (tagRegion s.desc).has x → readByte t.mem x = readByte s.mem x)
        ∧ ∀ k < 16, readByte t.mem (tag + k) = readByte s.mem (tag + k)
          ∨ readByte t.mem (tag + k) = blockByte (s.dp.y ^^^ s.dp.m) k)
    ∧ (s.stage = .keystream → s.hazard = false → validationError s.platform s.desc = none → i < s.desc.ptBlocks →
      (lane = 1 → transactionOk s.platform rd0 16 .read = true ∧ transactionOk s.platform wr0 16 .write = true) →
      transactionOk s.platform rd n .read = true →
      transactionOk s.platform wr n .write = true ∨ transactionDenied s.platform wr n .write = true →
      ∃ t, step s = .next t ∧ isReset t
        ∧ (lane = 1 → ∀ k < 16, readByte t.mem (wr0 + k)
          = readByte s.mem (rd0 + k) ^^^ blockByte (ks (2 * s.dp.pIdx.toNat)) k)
        ∧ (∀ k < n, readByte t.mem (wr + k) = readByte s.mem (wr + k)
          ∨ readByte t.mem (wr + k) = readByte s.mem (rd + k) ^^^ blockByte (ks i) k)
        ∧ ∀ x, ¬(wr0 ≤ x ∧ x < wr + n) → readByte t.mem x = readByte s.mem x)
    ∧ (s.stage = .keystream → ∀ t, step s = .next t →
      isReset t ∧ ∀ x, ¬ (ctRegion s.desc).has x → readByte t.mem x = readByte s.mem x)
    ∧ (s.stage ≠ .keystream → s.stage ≠ .finalizeTag → step s = .next (resetCore { s with events := rest }))

/-- 70_reset_and_hazards.md R236: another agent's accesses that break the hazard rule. A write to a region of a running call
leaves every register of the core and every byte outside the ciphertext and tag regions and the byte written, which outside
those two holds the value stored; it is remembered until the next START or reset (log 10). A read of a ciphertext or tag byte
changes the agent's latch and the draws alone; without such a write before it, it returns the byte's value at START, the one
memory holds, or one that the core writes there later in the same call, in the run the pending moves give (log 11). That the
platform's predicates do not bear on another agent's access is the model's choice (log 28). -/
def Obligations.BufferHazardSparesTheCore : Prop :=
  ∀ (s : State) (addr : Word) (rest : List Event), s.busy = true →
    (∀ value, s.mem.wf = true → s.events = .store addr value :: rest → (∃ r ∈ callRegions s.platform s.desc, r.has addr.toNat) →
      ∃ t, step s = .next t ∧ t = { s with events := rest, mem := t.mem, draws := t.draws, hazard := true }
        ∧ (¬ (ctRegion s.desc).has addr.toNat → ¬ (tagRegion s.desc).has addr.toNat → readByte t.mem addr.toNat = value)
        ∧ ∀ x, x ≠ addr.toNat → ¬ (ctRegion s.desc).has x → ¬ (tagRegion s.desc).has x →
          readByte t.mem x = readByte s.mem x)
    ∧ (s.events = .load addr :: rest → (ctRegion s.desc).has addr.toNat ∨ (tagRegion s.desc).has addr.toNat →
      ∃ t, step s = .next t ∧ t = { s with events := rest, hostByte := t.hostByte, draws := t.draws }
        ∧ (s.hazard = false → t.hostByte = readByte s.callMem addr.toNat ∨ t.hostByte = readByte s.mem addr.toNat
          ∨ ∃ (m : Nat) (u v : State), runSteps m t = .next u ∧ (∀ k ≤ m, ∃ w, runSteps k t = .next w ∧ w.busy = true)
            ∧ nextMoveWrites addr.toNat u = true ∧ step u = .next v ∧ t.hostByte = readByte v.mem addr.toNat))

/-- 20_memory.md R61, R72, 70_reset_and_hazards.md R236: another agent's accesses that meet no buffer hazard act on ordinary
memory: a write changes its byte alone, and a read, of an input region of a running call too, returns the byte and changes
nothing else. That the platform's predicates do not bear on another agent's access is the model's choice (log 28). -/
def Obligations.OrdinaryForeignAccess : Prop :=
  ∀ (s : State) (addr : Word) (rest : List Event), s.mem.wf = true →
    (∀ value, s.busy = false ∨ (∀ r ∈ callRegions s.platform s.desc, ¬ r.has addr.toNat) →
      s.events = .store addr value :: rest →
      ∃ t, step s = .next t ∧ t = { s with events := rest, mem := t.mem } ∧ readByte t.mem addr.toNat = value
        ∧ ∀ x, x ≠ addr.toNat → readByte t.mem x = readByte s.mem x)
    ∧ (s.busy = false ∨ ¬ (ctRegion s.desc).has addr.toNat ∧ ¬ (tagRegion s.desc).has addr.toNat →
      s.events = .load addr :: rest →
      step s = .next { s with events := rest, hostByte := readByte s.mem addr.toNat })

/-- 10_state.md R49, R36: the step that ends a call, well, in an error or by reset, leaves no byte of the key or of any other
datapath register. -/
def Obligations.EndOfCallErasesTheDatapath : Prop :=
  ∀ s t : State, s.busy = true → step s = .next t → t.busy = false → t.dp = Datapath.zero t.platform.keyBytes

/-- 20_memory.md R64, 70_reset_and_hazards.md R233: the platform's parameters are fixed for the run. -/
def Obligations.PlatformIsFixed : Prop :=
  ∀ s t : State, step s = .next t → t.platform = s.platform

/-! ## The whole machine -/

/-- The invariant holds at reset. -/
def Obligations.InvariantAtReset : Prop := State.reset.Inv

/-- Every step keeps the invariant, from every state that meets it: memory stays canonical, KEYR keeps its length, the
descriptors of a running call stay valid, the datapath is all zeros outside a call, H, J0, TR and M are what their rules say,
the indices stay in range, ERR_CODE is nonzero exactly in ERROR, and KEY_BYTES is at least 1 (00_scope.md R8). -/
def Obligations.StepKeepsTheInvariant : Prop :=
  ∀ s t : State, s.Inv → step s = .next t → t.Inv

/-- 60_exceptions.md R223: no case is undefined. From every state that meets the invariant, on a platform without memory
that has read side effects (20_memory.md R72), every step answers a next state. -/
def Obligations.StepNeverStops : Prop :=
  ∀ s : State, s.Inv → s.platform.sideEffects = [] → ∃ t, step s = .next t

/-- 10_state.md R52: STATE moves only along the edges of the transition relation, whatever the step. -/
def Obligations.StateMovesAlongTheGraph : Prop :=
  ∀ s t : State, step s = .next t → t.stage ∈ successors s.stage

/-- 70_reset_and_hazards.md R241: with nothing else pending, a call ends within 7 + NP + NG micro-operations, and one that
ends in DONE takes exactly that many. -/
def Obligations.EveryCallEnds : Prop :=
  ∀ s : State, s.Inv → s.platform.sideEffects = [] → s.events = [] → s.stage = .validate →
    ∃ (n : Nat) (t : State), n ≤ 7 + s.desc.pairs + s.desc.ghashBlocks ∧ runSteps n s = .next t ∧ t.callEnded = true
      ∧ (t.stage = .done → n = 7 + s.desc.pairs + s.desc.ghashBlocks)
      ∧ ∀ m < n, ∃ u, runSteps m s = .next u ∧ u.busy = true

/-- 44_tag_finalizer.md R186: what one call computes. From VALIDATE, with valid descriptors, transactions that complete, and
no other move pending, 7 + NP + NG steps later STATE is DONE, the ciphertext and tag regions hold GCM_ENC of the key, nonce,
AAD and plaintext regions, and every other byte of memory is unchanged. -/
def Obligations.CallComputesGcm : Prop :=
  ∀ s : State, s.mem.wf = true → s.hazard = false → s.events = [] → s.stage = .validate →
    validationError s.platform s.desc = none → CallAccessible s.platform s.desc →
    ∃ t, runSteps (7 + s.desc.pairs + s.desc.ghashBlocks) s = .next t ∧ t.stage = .done
      ∧ rangeBytes t.mem (ctRegion s.desc) = callCiphertext s.mem s.platform s.desc
      ∧ rangeBytes t.mem (tagRegion s.desc) = bytesOfBlock (callTag s.mem s.platform s.desc)
      ∧ ∀ x, ¬ (ctRegion s.desc).has x → ¬ (tagRegion s.desc).has x → readByte t.mem x = readByte s.mem x

/-- 44_tag_finalizer.md R187: with no plaintext and no AAD the ciphertext is empty and the tag is E(K, J0); with the zero
nonce that is H = E(K, 0^128). For every cipher, and every multiplier that keeps the laws of R160. -/
def Obligations.ZeroLengthTag : Prop :=
  ∀ (encrypt : List Byte → Block → Block) (mul : Block → Block → Block) (key : List Byte) (n : Nonce), MulContract mul →
    gcmCiphertext encrypt key n [] = [] ∧ gcmTag encrypt mul key n [] [] = encrypt key (initialCounterBlock n)
      ∧ gcmTag encrypt mul key 0#96 [] [] = encrypt key 0#128

/-- 44_tag_finalizer.md R189: P = C XOR keystream, for every cipher; the ciphertext is as long as the plaintext. -/
def Obligations.KeystreamRecoversThePlaintext : Prop :=
  ∀ (encrypt : List Byte → Block → Block) (key : List Byte) (n : Nonce) (pt : List Byte),
    (gcmCiphertext encrypt key n pt).length = pt.length
    ∧ xorBytes (gcmCiphertext encrypt key n pt) (keystream encrypt key (initialCounterBlock n) pt.length) = pt

/-- 44_tag_finalizer.md R186, 10_state.md R56: what the host writes or reads during a call changes nothing else: two states
that differ only in IRQ_EN, CMD_DROPPED, the host's latches and the pending moves do the same micro-operation. -/
def Obligations.CallIgnoresTheHostSide : Prop :=
  ∀ (i : Instr) (s t : State) (e c : Bool) (r : Word) (b : Byte) (ev : List Event), hostTx i = none → exec i s = .next t →
    exec i { s with irqEn := e, cmdDropped := c, rdata := r, hostByte := b, events := ev }
      = .next { t with irqEn := e, cmdDropped := c, rdata := r, hostByte := b, events := ev }

/-- 70_reset_and_hazards.md R236, R241: the contents of memory never change the sequence of micro-operations: two states that
differ only in memory, the hazard mark and the draws taken go to the same STATE, indices and error registers. -/
def Obligations.BufferContentsDoNotSteerTheCore : Prop :=
  ∀ (i : Instr) (s t : State) (m : Memory) (z : Bool) (d : Nat), exec i s = .next t →
    ∃ u, exec i { s with mem := m, hazard := z, draws := d } = .next u
      ∧ u.stage = t.stage ∧ u.dp.pIdx = t.dp.pIdx ∧ u.dp.gIdx = t.dp.gIdx ∧ u.errCode = t.errCode ∧ u.errAddr = t.errAddr
end

