-- ==== Sys2Proof/Laws/Memory.lean ====
section
/-! SUPPORT. The laws of data memory: what a read sees after a write, and that every write keeps the canonical form. -/

namespace Sys2Proof.Machine

/-! ## One byte -/

@[simp] theorem readByte_nil (x : Nat) : readByte [] x = unlistedByte := rfl

theorem readByte_consCell (addr : Nat) (v : Byte) (rest : Memory) (x : Nat) (h : readByte rest addr = unlistedByte) :
    readByte (consCell addr v rest) x = if addr = x then v else readByte rest x := by
  unfold consCell
  by_cases hv : v = unlistedByte
  · by_cases hx : addr = x
    · subst hx; simp [hv, h]
    · simp [hv, hx]
  · simp [hv, readByte]

/-- Below the lowest listed address every byte is unlisted. -/
theorem readByte_below {m : Memory} {low x : Nat} (h : wfFrom low m = true) (hx : x < low) :
    readByte m x = unlistedByte := by
  induction m generalizing low with
  | nil => rfl
  | cons c rest ih =>
    obtain ⟨a, b⟩ := c
    simp only [wfFrom, Bool.and_eq_true, decide_eq_true_eq] at h
    have hne : a ≠ x := by omega
    simp only [readByte, hne, if_false]
    exact ih h.2 (by omega)

theorem wfFrom_mono {m : Memory} {low low' : Nat} (h : wfFrom low m = true) (hl : low' ≤ low) : wfFrom low' m = true := by
  cases m with
  | nil => rfl
  | cons c rest =>
    obtain ⟨a, b⟩ := c
    simp only [wfFrom, Bool.and_eq_true, decide_eq_true_eq] at h ⊢
    exact ⟨⟨⟨by omega, h.1.1.2⟩, h.1.2⟩, h.2⟩

theorem wfFrom_consCell {rest : Memory} {low addr : Nat} {v : Byte} (hl : low ≤ addr) (ha : addr < addressSpace)
    (h : wfFrom (addr + 1) rest = true) : wfFrom low (consCell addr v rest) = true := by
  unfold consCell
  split
  · exact wfFrom_mono h (by omega)
  · next hv => simp [wfFrom, hl, ha, h, hv]

/-- Writing a byte keeps the canonical form. -/
theorem wfFrom_writeByte {m : Memory} {low addr : Nat} (v : Byte) (h : wfFrom low m = true) (hl : low ≤ addr)
    (ha : addr < addressSpace) : wfFrom low (writeByte m addr v) = true := by
  induction m generalizing low with
  | nil => exact wfFrom_consCell hl ha rfl
  | cons c rest ih =>
    obtain ⟨a, b⟩ := c
    have h' := h
    simp only [wfFrom, Bool.and_eq_true, decide_eq_true_eq] at h
    obtain ⟨⟨⟨hla, haS⟩, hb⟩, hr⟩ := h
    unfold writeByte
    split
    · next hlt =>
      refine wfFrom_consCell hl ha ?_
      simp only [wfFrom, Bool.and_eq_true, decide_eq_true_eq]
      exact ⟨⟨⟨by omega, haS⟩, hb⟩, hr⟩
    · split
      · next heq => subst heq; exact wfFrom_consCell hl ha hr
      · simp only [wfFrom, Bool.and_eq_true, decide_eq_true_eq]
        exact ⟨⟨⟨hla, haS⟩, hb⟩, ih hr (by omega)⟩

/-- What a read sees after a byte is written. -/
theorem readByte_writeByte {m : Memory} {low : Nat} (addr : Nat) (v : Byte) (x : Nat) (h : wfFrom low m = true) :
    readByte (writeByte m addr v) x = if addr = x then v else readByte m x := by
  induction m generalizing low with
  | nil => exact readByte_consCell addr v [] x rfl
  | cons c rest ih =>
    obtain ⟨a, b⟩ := c
    have h' := h
    simp only [wfFrom, Bool.and_eq_true, decide_eq_true_eq] at h
    obtain ⟨⟨⟨hla, haS⟩, hb⟩, hr⟩ := h
    unfold writeByte
    split
    · next hlt =>
      refine readByte_consCell addr v _ x ?_
      have hne : a ≠ addr := by omega
      simp only [readByte, hne, if_false]
      exact readByte_below hr (by omega)
    · split
      · next heq =>
        subst heq
        rw [readByte_consCell _ _ _ _ (readByte_below hr (by omega))]
        by_cases hx : a = x <;> simp [readByte, hx]
      · next hne =>
        by_cases hax : a = x
        · subst hax
          simp [readByte, show addr ≠ a from fun he => hne he.symm]
        · simp only [readByte, hax, if_false]
          exact ih hr

/-! ## Byte strings -/

@[simp] theorem length_readBytes (m : Memory) (addr n : Nat) : (readBytes m addr n).length = n := by
  induction n generalizing addr with
  | zero => rfl
  | succ n ih => simp [readBytes, ih]

theorem getElem_readBytes (m : Memory) (addr n k : Nat) (h : k < (readBytes m addr n).length) :
    (readBytes m addr n)[k] = readByte m (addr + k) := by
  induction n generalizing addr k with
  | zero => simp [readBytes] at h
  | succ n ih =>
    cases k with
    | zero => simp [readBytes]
    | succ k =>
      simp only [readBytes, List.getElem_cons_succ]
      rw [ih]
      congr 1
      omega

/-- Two ranges that agree byte by byte read alike. -/
theorem readBytes_congr {m m' : Memory} {addr addr' n : Nat}
    (h : ∀ k < n, readByte m (addr + k) = readByte m' (addr' + k)) : readBytes m addr n = readBytes m' addr' n := by
  apply List.ext_getElem (by simp)
  intro k h1 h2
  rw [getElem_readBytes, getElem_readBytes]
  exact h k (by simpa using h1)

/-- Writing a byte string keeps the canonical form. -/
theorem wfFrom_writeBytes {m : Memory} {low addr : Nat} (bytes : List Byte) (h : wfFrom low m = true) (hl : low ≤ addr)
    (ha : addr + bytes.length ≤ addressSpace) : wfFrom low (writeBytes m addr bytes) = true := by
  induction bytes generalizing m addr with
  | nil => exact h
  | cons b rest ih =>
    simp only [List.length_cons] at ha
    exact ih (wfFrom_writeByte b h hl (by omega)) (by omega) (by omega)

/-- What a read sees after a byte string is written: the string's byte inside it, the old byte outside. -/
theorem readByte_writeBytes {m : Memory} (addr : Nat) (bytes : List Byte) (x : Nat) (h : wfFrom 0 m = true)
    (ha : addr + bytes.length ≤ addressSpace) :
    readByte (writeBytes m addr bytes) x
      = if hx : addr ≤ x ∧ x < addr + bytes.length then bytes[x - addr]'(by omega) else readByte m x := by
  induction bytes generalizing m addr with
  | nil =>
    have : ¬ (addr ≤ x ∧ x < addr + ([] : List Byte).length) := by simp only [List.length_nil]; omega
    rw [dif_neg this]; rfl
  | cons b rest ih =>
    simp only [List.length_cons] at ha
    have hw : wfFrom 0 (writeByte m addr b) = true := wfFrom_writeByte b h (Nat.zero_le _) (by omega)
    rw [writeBytes, ih (addr + 1) hw (by omega)]
    simp only [List.length_cons]
    by_cases hx : x = addr
    · subst hx
      rw [dif_neg (by omega), dif_pos (by omega), readByte_writeByte x b x h]
      simp
    · by_cases hin : addr + 1 ≤ x ∧ x < addr + 1 + rest.length
      · rw [dif_pos hin, dif_pos (by omega)]
        obtain ⟨k, rfl⟩ : ∃ k, x = addr + 1 + k := ⟨x - (addr + 1), by omega⟩
        have e1 : addr + 1 + k - (addr + 1) = k := by omega
        have e2 : addr + 1 + k - addr = k + 1 := by omega
        simp [e1, e2]
      · rw [dif_neg hin, dif_neg (by omega), readByte_writeByte addr b x h, if_neg (by omega)]

/-- Outside the bytes written, a read sees what it saw. -/
theorem readByte_writeBytes_outside {m : Memory} {addr : Nat} {bytes : List Byte} {x : Nat} (h : wfFrom 0 m = true)
    (ha : addr + bytes.length ≤ addressSpace) (hx : ¬ (addr ≤ x ∧ x < addr + bytes.length)) :
    readByte (writeBytes m addr bytes) x = readByte m x := by
  rw [readByte_writeBytes addr bytes x h ha, dif_neg hx]

/-- Reading back the string just written. -/
theorem readBytes_writeBytes_same {m : Memory} {addr : Nat} {bytes : List Byte} (h : wfFrom 0 m = true)
    (ha : addr + bytes.length ≤ addressSpace) :
    readBytes (writeBytes m addr bytes) addr bytes.length = bytes := by
  apply List.ext_getElem (by simp)
  intro k h1 h2
  rw [getElem_readBytes, readByte_writeBytes addr bytes _ h ha, dif_pos (by omega)]
  simp

/-- Two memories in canonical form that read alike everywhere are equal. -/
theorem memory_ext {m m' : Memory} {low low' : Nat} (h : wfFrom low m = true) (h' : wfFrom low' m' = true)
    (he : ∀ x, readByte m x = readByte m' x) : m = m' := by
  induction m generalizing m' low low' with
  | nil =>
    cases m' with
    | nil => rfl
    | cons c rest =>
      obtain ⟨a, b⟩ := c
      have := he a
      simp only [wfFrom, Bool.and_eq_true, decide_eq_true_eq] at h'
      simp [readByte] at this
      simp [← this] at h'
  | cons c rest ih =>
    obtain ⟨a, b⟩ := c
    simp only [wfFrom, Bool.and_eq_true, decide_eq_true_eq, bne_iff_ne] at h
    cases m' with
    | nil => have := he a; simp [readByte] at this; exact absurd this h.1.2
    | cons c' rest' =>
      obtain ⟨a', b'⟩ := c'
      simp only [wfFrom, Bool.and_eq_true, decide_eq_true_eq, bne_iff_ne] at h'
      have haa : a = a' := by
        by_contra hne
        rcases Nat.lt_or_gt_of_ne hne with hlt | hlt
        · have := he a
          simp only [readByte, if_true, show a' ≠ a from by omega, if_false, readByte_below h'.2 (show a < a' + 1 by omega)] at this
          exact h.1.2 this
        · have := he a'
          simp only [readByte, if_true, hne, if_false, readByte_below h.2 (show a' < a + 1 by omega)] at this
          exact h'.1.2 this.symm
      subst haa
      have hbb : b = b' := by have := he a; simpa [readByte] using this
      subst hbb
      congr 1
      refine ih h.2 h'.2 fun x => ?_
      by_cases hx : a = x
      · subst hx; rw [readByte_below h.2 (by omega), readByte_below h'.2 (by omega)]
      · have := he x; simpa [readByte, hx] using this

/-! ## Free values -/

@[simp] theorem length_freeBytes (c n : Nat) : (freeBytes c n).length = n := by
  induction n generalizing c with
  | zero => rfl
  | succ n ih => simp [freeBytes, ih]

@[simp] theorem length_drawBytes (c : Nat) (m : Memory) (addr : Nat) (bytes : List Byte) :
    (drawBytes c m addr bytes).length = bytes.length := by
  induction bytes generalizing c addr with
  | nil => rfl
  | cons b rest ih => simp [drawBytes, ih]

/-- Each drawn byte is the old or the new one. -/
theorem getElem_drawBytes (c : Nat) (m : Memory) (addr : Nat) (bytes : List Byte) (k : Nat) (h : k < bytes.length) :
    (drawBytes c m addr bytes)[k]'(by simpa using h) = readByte m (addr + k)
      ∨ (drawBytes c m addr bytes)[k]'(by simpa using h) = bytes[k] := by
  induction bytes generalizing c addr k with
  | nil => simp at h
  | cons b rest ih =>
    cases k with
    | zero =>
      simp only [drawBytes, List.getElem_cons_zero, Nat.add_zero]
      split
      · exact .inr rfl
      · exact .inl rfl
    | succ k =>
      have hk : k < rest.length := by simpa using h
      have := ih (c + 1) (addr + 1) k hk
      simp only [drawBytes, List.getElem_cons_succ]
      rwa [show addr + 1 + k = addr + (k + 1) by omega] at this

end Sys2Proof.Machine
end

