-- ==== Sys2Proof/Laws/State.lean ====
section
/-! SUPPORT. What each named update of the state does to each field, so that no proof unfolds one. -/

namespace Sys2Proof.Machine

variable (s : State)

/-! Error entry (60_exceptions.md R209) -/

@[simp] theorem raiseError_errCode (code : ErrorCode) (addr : Nat) : (raiseError code addr s).errCode = code := rfl
@[simp] theorem raiseError_errAddr (code : ErrorCode) (addr : Nat) :
    (raiseError code addr s).errAddr = BitVec.ofNat 64 addr := rfl
@[simp] theorem raiseError_irqEn (code : ErrorCode) (addr : Nat) : (raiseError code addr s).irqEn = s.irqEn := rfl
@[simp] theorem raiseError_desc (code : ErrorCode) (addr : Nat) : (raiseError code addr s).desc = s.desc := rfl
@[simp] theorem raiseError_cmdDropped (code : ErrorCode) (addr : Nat) :
    (raiseError code addr s).cmdDropped = s.cmdDropped := rfl
@[simp] theorem raiseError_stage (code : ErrorCode) (addr : Nat) : (raiseError code addr s).stage = .error := rfl
@[simp] theorem raiseError_dp (code : ErrorCode) (addr : Nat) :
    (raiseError code addr s).dp = Datapath.zero s.platform.keyBytes := rfl
@[simp] theorem raiseError_mem (code : ErrorCode) (addr : Nat) : (raiseError code addr s).mem = s.mem := rfl
@[simp] theorem raiseError_platform (code : ErrorCode) (addr : Nat) :
    (raiseError code addr s).platform = s.platform := rfl
@[simp] theorem raiseError_events (code : ErrorCode) (addr : Nat) : (raiseError code addr s).events = s.events := rfl
@[simp] theorem raiseError_rdata (code : ErrorCode) (addr : Nat) : (raiseError code addr s).rdata = s.rdata := rfl
@[simp] theorem raiseError_hostByte (code : ErrorCode) (addr : Nat) :
    (raiseError code addr s).hostByte = s.hostByte := rfl
@[simp] theorem raiseError_hazard (code : ErrorCode) (addr : Nat) : (raiseError code addr s).hazard = s.hazard := rfl
@[simp] theorem raiseError_callMem (code : ErrorCode) (addr : Nat) :
    (raiseError code addr s).callMem = s.callMem := rfl
@[simp] theorem raiseError_draws (code : ErrorCode) (addr : Nat) : (raiseError code addr s).draws = s.draws := rfl

/-! Entry to DONE (44_tag_finalizer.md R182) -/

@[simp] theorem enterDone_errCode : (enterDone s).errCode = s.errCode := rfl
@[simp] theorem enterDone_errAddr : (enterDone s).errAddr = s.errAddr := rfl
@[simp] theorem enterDone_irqEn : (enterDone s).irqEn = s.irqEn := rfl
@[simp] theorem enterDone_desc : (enterDone s).desc = s.desc := rfl
@[simp] theorem enterDone_cmdDropped : (enterDone s).cmdDropped = s.cmdDropped := rfl
@[simp] theorem enterDone_stage : (enterDone s).stage = .done := rfl
@[simp] theorem enterDone_dp : (enterDone s).dp = Datapath.zero s.platform.keyBytes := rfl
@[simp] theorem enterDone_mem : (enterDone s).mem = s.mem := rfl
@[simp] theorem enterDone_platform : (enterDone s).platform = s.platform := rfl
@[simp] theorem enterDone_events : (enterDone s).events = s.events := rfl
@[simp] theorem enterDone_rdata : (enterDone s).rdata = s.rdata := rfl
@[simp] theorem enterDone_hostByte : (enterDone s).hostByte = s.hostByte := rfl
@[simp] theorem enterDone_hazard : (enterDone s).hazard = s.hazard := rfl
@[simp] theorem enterDone_callMem : (enterDone s).callMem = s.callMem := rfl
@[simp] theorem enterDone_draws : (enterDone s).draws = s.draws := rfl

/-! The reset event (70_reset_and_hazards.md R230) -/

@[simp] theorem resetCore_errCode : (resetCore s).errCode = .none := rfl
@[simp] theorem resetCore_errAddr : (resetCore s).errAddr = 0 := rfl
@[simp] theorem resetCore_irqEn : (resetCore s).irqEn = false := rfl
@[simp] theorem resetCore_desc : (resetCore s).desc = Descriptors.zero := rfl
@[simp] theorem resetCore_cmdDropped : (resetCore s).cmdDropped = false := rfl
@[simp] theorem resetCore_stage : (resetCore s).stage = .idle := rfl
@[simp] theorem resetCore_dp : (resetCore s).dp = Datapath.zero s.platform.keyBytes := rfl
@[simp] theorem resetCore_mem : (resetCore s).mem = s.mem := rfl
@[simp] theorem resetCore_platform : (resetCore s).platform = s.platform := rfl
@[simp] theorem resetCore_events : (resetCore s).events = s.events := rfl
@[simp] theorem resetCore_rdata : (resetCore s).rdata = s.rdata := rfl
@[simp] theorem resetCore_hostByte : (resetCore s).hostByte = s.hostByte := rfl
@[simp] theorem resetCore_hazard : (resetCore s).hazard = false := rfl
@[simp] theorem resetCore_callMem : (resetCore s).callMem = s.callMem := rfl
@[simp] theorem resetCore_draws : (resetCore s).draws = s.draws := rfl

/-! A dropped command (40_host_interface.md R109) -/

@[simp] theorem dropCommand_errCode : (dropCommand s).errCode = s.errCode := rfl
@[simp] theorem dropCommand_errAddr : (dropCommand s).errAddr = s.errAddr := rfl
@[simp] theorem dropCommand_irqEn : (dropCommand s).irqEn = s.irqEn := rfl
@[simp] theorem dropCommand_desc : (dropCommand s).desc = s.desc := rfl
@[simp] theorem dropCommand_cmdDropped : (dropCommand s).cmdDropped = true := rfl
@[simp] theorem dropCommand_stage : (dropCommand s).stage = s.stage := rfl
@[simp] theorem dropCommand_dp : (dropCommand s).dp = s.dp := rfl
@[simp] theorem dropCommand_mem : (dropCommand s).mem = s.mem := rfl
@[simp] theorem dropCommand_platform : (dropCommand s).platform = s.platform := rfl
@[simp] theorem dropCommand_events : (dropCommand s).events = s.events := rfl
@[simp] theorem dropCommand_rdata : (dropCommand s).rdata = s.rdata := rfl
@[simp] theorem dropCommand_hostByte : (dropCommand s).hostByte = s.hostByte := rfl
@[simp] theorem dropCommand_hazard : (dropCommand s).hazard = s.hazard := rfl
@[simp] theorem dropCommand_callMem : (dropCommand s).callMem = s.callMem := rfl
@[simp] theorem dropCommand_draws : (dropCommand s).draws = s.draws := rfl

/-! START accepted (40_host_interface.md R106) -/

@[simp] theorem beginCall_errCode : (beginCall s).errCode = .none := rfl
@[simp] theorem beginCall_errAddr : (beginCall s).errAddr = 0 := rfl
@[simp] theorem beginCall_irqEn : (beginCall s).irqEn = s.irqEn := rfl
@[simp] theorem beginCall_desc : (beginCall s).desc = s.desc := rfl
@[simp] theorem beginCall_cmdDropped : (beginCall s).cmdDropped = false := rfl
@[simp] theorem beginCall_stage : (beginCall s).stage = .validate := rfl
@[simp] theorem beginCall_dp : (beginCall s).dp = s.dp := rfl
@[simp] theorem beginCall_mem : (beginCall s).mem = s.mem := rfl
@[simp] theorem beginCall_platform : (beginCall s).platform = s.platform := rfl
@[simp] theorem beginCall_events : (beginCall s).events = s.events := rfl
@[simp] theorem beginCall_rdata : (beginCall s).rdata = s.rdata := rfl
@[simp] theorem beginCall_hostByte : (beginCall s).hostByte = s.hostByte := rfl
@[simp] theorem beginCall_hazard : (beginCall s).hazard = false := rfl
@[simp] theorem beginCall_callMem : (beginCall s).callMem = s.mem := rfl
@[simp] theorem beginCall_draws : (beginCall s).draws = s.draws := rfl

/-! CLEAR accepted (40_host_interface.md R107) -/

@[simp] theorem returnToIdle_errCode : (returnToIdle s).errCode = .none := rfl
@[simp] theorem returnToIdle_errAddr : (returnToIdle s).errAddr = 0 := rfl
@[simp] theorem returnToIdle_irqEn : (returnToIdle s).irqEn = s.irqEn := rfl
@[simp] theorem returnToIdle_desc : (returnToIdle s).desc = s.desc := rfl
@[simp] theorem returnToIdle_cmdDropped : (returnToIdle s).cmdDropped = false := rfl
@[simp] theorem returnToIdle_stage : (returnToIdle s).stage = .idle := rfl
@[simp] theorem returnToIdle_dp : (returnToIdle s).dp = s.dp := rfl
@[simp] theorem returnToIdle_mem : (returnToIdle s).mem = s.mem := rfl
@[simp] theorem returnToIdle_platform : (returnToIdle s).platform = s.platform := rfl
@[simp] theorem returnToIdle_events : (returnToIdle s).events = s.events := rfl
@[simp] theorem returnToIdle_rdata : (returnToIdle s).rdata = s.rdata := rfl
@[simp] theorem returnToIdle_hostByte : (returnToIdle s).hostByte = s.hostByte := rfl
@[simp] theorem returnToIdle_hazard : (returnToIdle s).hazard = s.hazard := rfl
@[simp] theorem returnToIdle_callMem : (returnToIdle s).callMem = s.callMem := rfl
@[simp] theorem returnToIdle_draws : (returnToIdle s).draws = s.draws := rfl

/-! A write that completes (20_memory.md R63) -/

@[simp] theorem completeWrite_errCode (addr : Nat) (bytes : List Byte) :
    (completeWrite addr bytes s).errCode = s.errCode := rfl
@[simp] theorem completeWrite_errAddr (addr : Nat) (bytes : List Byte) :
    (completeWrite addr bytes s).errAddr = s.errAddr := rfl
@[simp] theorem completeWrite_irqEn (addr : Nat) (bytes : List Byte) :
    (completeWrite addr bytes s).irqEn = s.irqEn := rfl
@[simp] theorem completeWrite_desc (addr : Nat) (bytes : List Byte) : (completeWrite addr bytes s).desc = s.desc := rfl
@[simp] theorem completeWrite_cmdDropped (addr : Nat) (bytes : List Byte) :
    (completeWrite addr bytes s).cmdDropped = s.cmdDropped := rfl
@[simp] theorem completeWrite_stage (addr : Nat) (bytes : List Byte) :
    (completeWrite addr bytes s).stage = s.stage := rfl
@[simp] theorem completeWrite_dp (addr : Nat) (bytes : List Byte) : (completeWrite addr bytes s).dp = s.dp := rfl
@[simp] theorem completeWrite_mem (addr : Nat) (bytes : List Byte) :
    (completeWrite addr bytes s).mem = writeBytes s.mem addr (storedBytes bytes s) := rfl
@[simp] theorem completeWrite_platform (addr : Nat) (bytes : List Byte) :
    (completeWrite addr bytes s).platform = s.platform := rfl
@[simp] theorem completeWrite_events (addr : Nat) (bytes : List Byte) :
    (completeWrite addr bytes s).events = s.events := rfl
@[simp] theorem completeWrite_rdata (addr : Nat) (bytes : List Byte) :
    (completeWrite addr bytes s).rdata = s.rdata := rfl
@[simp] theorem completeWrite_hostByte (addr : Nat) (bytes : List Byte) :
    (completeWrite addr bytes s).hostByte = s.hostByte := rfl
@[simp] theorem completeWrite_hazard (addr : Nat) (bytes : List Byte) :
    (completeWrite addr bytes s).hazard = s.hazard := rfl
@[simp] theorem completeWrite_callMem (addr : Nat) (bytes : List Byte) :
    (completeWrite addr bytes s).callMem = s.callMem := rfl
@[simp] theorem completeWrite_draws (addr : Nat) (bytes : List Byte) :
    (completeWrite addr bytes s).draws = storedDraws bytes s := rfl

/-! A write that fails or is cut short (20_memory.md R63) -/

@[simp] theorem drawnWrite_errCode (addr : Nat) (bytes : List Byte) :
    (drawnWrite addr bytes s).errCode = s.errCode := rfl
@[simp] theorem drawnWrite_errAddr (addr : Nat) (bytes : List Byte) :
    (drawnWrite addr bytes s).errAddr = s.errAddr := rfl
@[simp] theorem drawnWrite_irqEn (addr : Nat) (bytes : List Byte) : (drawnWrite addr bytes s).irqEn = s.irqEn := rfl
@[simp] theorem drawnWrite_desc (addr : Nat) (bytes : List Byte) : (drawnWrite addr bytes s).desc = s.desc := rfl
@[simp] theorem drawnWrite_cmdDropped (addr : Nat) (bytes : List Byte) :
    (drawnWrite addr bytes s).cmdDropped = s.cmdDropped := rfl
@[simp] theorem drawnWrite_stage (addr : Nat) (bytes : List Byte) : (drawnWrite addr bytes s).stage = s.stage := rfl
@[simp] theorem drawnWrite_dp (addr : Nat) (bytes : List Byte) : (drawnWrite addr bytes s).dp = s.dp := rfl
@[simp] theorem drawnWrite_mem (addr : Nat) (bytes : List Byte) :
    (drawnWrite addr bytes s).mem = writeBytes s.mem addr (drawBytes (storedDraws bytes s) s.mem addr (storedBytes bytes s)) := rfl
@[simp] theorem drawnWrite_platform (addr : Nat) (bytes : List Byte) :
    (drawnWrite addr bytes s).platform = s.platform := rfl
@[simp] theorem drawnWrite_events (addr : Nat) (bytes : List Byte) : (drawnWrite addr bytes s).events = s.events := rfl
@[simp] theorem drawnWrite_rdata (addr : Nat) (bytes : List Byte) : (drawnWrite addr bytes s).rdata = s.rdata := rfl
@[simp] theorem drawnWrite_hostByte (addr : Nat) (bytes : List Byte) :
    (drawnWrite addr bytes s).hostByte = s.hostByte := rfl
@[simp] theorem drawnWrite_hazard (addr : Nat) (bytes : List Byte) : (drawnWrite addr bytes s).hazard = s.hazard := rfl
@[simp] theorem drawnWrite_callMem (addr : Nat) (bytes : List Byte) :
    (drawnWrite addr bytes s).callMem = s.callMem := rfl
@[simp] theorem drawnWrite_draws (addr : Nat) (bytes : List Byte) :
    (drawnWrite addr bytes s).draws = storedDraws bytes s + bytes.length := rfl

/-! Views of the state after an update -/

@[simp] theorem raiseError_busy (code : ErrorCode) (addr : Nat) : (raiseError code addr s).busy = false := rfl
@[simp] theorem enterDone_busy : (enterDone s).busy = false := rfl
@[simp] theorem resetCore_busy : (resetCore s).busy = false := rfl
@[simp] theorem beginCall_busy : (beginCall s).busy = true := rfl
@[simp] theorem returnToIdle_busy : (returnToIdle s).busy = false := rfl

/-- A second reset changes nothing. -/
theorem resetCore_resetCore : resetCore (resetCore s) = resetCore s := rfl

end Sys2Proof.Machine
end

