-- ==== Sys2Proof/Laws/Access.lean ====
section
/-! SUPPORT. The laws of the memory primitives: what each answers for a transaction that completes or is denied, and
everything it can answer. -/

namespace Sys2Proof.Machine

/-! ## Sequencing -/

@[simp] theorem bind_ok {α β : Type} (a : α) (f : α → Access β) : (Access.ok a).bind f = f a := rfl
@[simp] theorem bind_raised {α β : Type} (s : State) (f : α → Access β) : (Access.raised s).bind f = .raised s := rfl
@[simp] theorem bind_fault {α β : Type} (w : Fault) (f : α → Access β) : (Access.fault w).bind f = .fault w := rfl
@[simp] theorem bind_refused {α β : Type} (w : Refusal) (f : α → Access β) : (Access.refused w).bind f = .refused w := rfl
@[simp] theorem finish_ok {α : Type} (a : α) (f : α → State) : (Access.ok a).finish f = .next (f a) := rfl
@[simp] theorem finish_raised {α : Type} (s : State) (f : α → State) : (Access.raised s).finish f = .next s := rfl
@[simp] theorem finish_fault {α : Type} (w : Fault) (f : α → State) : (Access.fault w).finish f = .fault w := rfl
@[simp] theorem finish_refused {α : Type} (w : Refusal) (f : α → State) : (Access.refused w).finish f = .refused w := rfl

/-- A sequence answers a value when both of its parts do. -/
theorem bind_eq_ok {α β : Type} {x : Access α} {f : α → Access β} {b : β} (h : x.bind f = .ok b) :
    ∃ a, x = .ok a ∧ f a = .ok b := by
  cases x with
  | ok a => exact ⟨a, rfl, h⟩
  | raised _ => cases h
  | fault _ => cases h
  | refused _ => cases h

/-- A sequence raises an error when one of its parts does. -/
theorem bind_eq_raised {α β : Type} {x : Access α} {f : α → Access β} {t : State} (h : x.bind f = .raised t) :
    x = .raised t ∨ ∃ a, x = .ok a ∧ f a = .raised t := by
  cases x with
  | ok a => exact .inr ⟨a, rfl, h⟩
  | raised _ => cases h; exact .inl rfl
  | fault _ => cases h
  | refused _ => cases h

/-- A micro-operation's next state is its own end or an error entry. -/
theorem finish_eq_next {α : Type} {x : Access α} {f : α → State} {t : State} (h : x.finish f = .next t) :
    (∃ a, x = .ok a ∧ t = f a) ∨ x = .raised t := by
  cases x with
  | ok a => cases h; exact .inl ⟨a, rfl, rfl⟩
  | raised _ => cases h; exact .inr rfl
  | fault _ => cases h
  | refused _ => cases h

/-! ## One transaction -/

theorem guardAccess_eq_ok {α : Type} {addr n : Nat} {s : State} {x : Access α} {a : α}
    (h : guardAccess addr n s x = .ok a) : addr + n ≤ addressSpace ∧ x = .ok a := by
  unfold guardAccess at h
  split at h
  · cases h
  · split at h
    · cases h
    · exact ⟨by omega, h⟩

theorem guardAccess_eq_raised {α : Type} {addr n : Nat} {s t : State} {x : Access α}
    (h : guardAccess addr n s x = .raised t) : addr + n ≤ addressSpace ∧ x = .raised t := by
  unfold guardAccess at h
  split at h
  · cases h
  · split at h
    · cases h
    · exact ⟨by omega, h⟩

/-- Inside the address space and in ordinary memory, the platform answers. -/
theorem guardAccess_pass {α : Type} {addr n : Nat} {s : State} {x : Access α} (ha : addr + n ≤ addressSpace)
    (hs : hasSideEffects s.platform addr n = false) : guardAccess addr n s x = x := by
  simp [guardAccess, hs, show ¬ addressSpace < addr + n by omega]

theorem transactionOk_iff {p : Platform} {addr n : Nat} {kind : AccessKind} :
    transactionOk p addr n kind = true ↔
      addr + n ≤ addressSpace ∧ hasSideEffects p addr n = false ∧ memAccessible p addr n kind = true := by
  simp [transactionOk, and_assoc]

theorem transactionDenied_iff {p : Platform} {addr n : Nat} {kind : AccessKind} :
    transactionDenied p addr n kind = true ↔
      addr + n ≤ addressSpace ∧ hasSideEffects p addr n = false ∧ memAccessible p addr n kind = false := by
  simp [transactionDenied, and_assoc]

/-- A read that completes returns the bytes of memory (20_memory.md R62). -/
theorem memRead_ok {addr n : Nat} {s : State} (h : transactionOk s.platform addr n .read = true) :
    memRead addr n s = .ok (readBytes s.mem addr n) := by
  obtain ⟨ha, hs, hk⟩ := transactionOk_iff.mp h
  simp [memRead, guardAccess_pass ha hs, hk]

/-- A read that is denied raises BUS_ERROR at its start address (20_memory.md R62, 60_exceptions.md R206). -/
theorem memRead_denied {addr n : Nat} {s : State} (h : transactionDenied s.platform addr n .read = true) :
    memRead addr n s = .raised (raiseError .busError addr s) := by
  obtain ⟨ha, hs, hk⟩ := transactionDenied_iff.mp h
  simp [memRead, guardAccess_pass ha hs, hk]

/-- Everything a read can answer with a value. -/
theorem memRead_eq_ok {addr n : Nat} {s : State} {v : List Byte} (h : memRead addr n s = .ok v) :
    addr + n ≤ addressSpace ∧ v = readBytes s.mem addr n := by
  obtain ⟨ha, h⟩ := guardAccess_eq_ok h
  split at h <;> cases h
  exact ⟨ha, rfl⟩

/-- A read that answers with a value is one the platform completes. -/
theorem memRead_completes {addr n : Nat} {s : State} {v : List Byte} (h : memRead addr n s = .ok v) :
    transactionOk s.platform addr n .read = true := by
  unfold memRead guardAccess at h
  split_ifs at h with h1 h2 h3
  simpa [transactionOk, h2, h3] using h1

/-- Everything a read can raise. -/
theorem memRead_eq_raised {addr n : Nat} {s t : State} (h : memRead addr n s = .raised t) :
    addr + n ≤ addressSpace ∧ t = raiseError .busError addr s := by
  obtain ⟨ha, h⟩ := guardAccess_eq_raised h
  split at h <;> cases h
  exact ⟨ha, rfl⟩

/-- A write that completes (20_memory.md R63). -/
theorem memWrite_ok {addr : Nat} {bytes : List Byte} {s : State}
    (h : transactionOk s.platform addr bytes.length .write = true) :
    memWrite addr bytes s = .ok (completeWrite addr bytes s) := by
  obtain ⟨ha, hs, hk⟩ := transactionOk_iff.mp h
  simp [memWrite, guardAccess_pass ha hs, hk]

/-- A write that is denied raises BUS_ERROR at its start address, and leaves drawn bytes (20_memory.md R63). -/
theorem memWrite_denied {addr : Nat} {bytes : List Byte} {s : State}
    (h : transactionDenied s.platform addr bytes.length .write = true) :
    memWrite addr bytes s = .raised (raiseError .busError addr (drawnWrite addr bytes s)) := by
  obtain ⟨ha, hs, hk⟩ := transactionDenied_iff.mp h
  simp [memWrite, guardAccess_pass ha hs, hk]

/-- Everything a write can answer with a value. -/
theorem memWrite_eq_ok {addr : Nat} {bytes : List Byte} {s t : State} (h : memWrite addr bytes s = .ok t) :
    addr + bytes.length ≤ addressSpace ∧ t = completeWrite addr bytes s := by
  obtain ⟨ha, h⟩ := guardAccess_eq_ok h
  split at h <;> cases h
  exact ⟨ha, rfl⟩

/-- A write that answers with a value is one the platform completes. -/
theorem memWrite_completes {addr : Nat} {bytes : List Byte} {s t : State} (h : memWrite addr bytes s = .ok t) :
    transactionOk s.platform addr bytes.length .write = true := by
  unfold memWrite guardAccess at h
  split_ifs at h with h1 h2 h3
  simpa [transactionOk, h2, h3] using h1

/-- Everything a write can raise. -/
theorem memWrite_eq_raised {addr : Nat} {bytes : List Byte} {s t : State} (h : memWrite addr bytes s = .raised t) :
    addr + bytes.length ≤ addressSpace ∧ t = raiseError .busError addr (drawnWrite addr bytes s) := by
  obtain ⟨ha, h⟩ := guardAccess_eq_raised h
  split at h <;> cases h
  exact ⟨ha, rfl⟩

/-- Everything a cut write can answer with a value. -/
theorem cutWrite_eq_ok {addr : Nat} {bytes : List Byte} {s t : State} (h : cutWrite addr bytes s = .ok t) :
    addr + bytes.length ≤ addressSpace ∧ t = drawnWrite addr bytes s := by
  obtain ⟨ha, h⟩ := guardAccess_eq_ok h
  cases h
  exact ⟨ha, rfl⟩

/-- A cut write raises no error. -/
theorem cutWrite_ne_raised {addr : Nat} {bytes : List Byte} {s t : State} : cutWrite addr bytes s ≠ .raised t := by
  intro h
  obtain ⟨_, h⟩ := guardAccess_eq_raised h
  cases h

/-! ## The bytes a write stores -/

@[simp] theorem length_storedBytes (bytes : List Byte) (s : State) : (storedBytes bytes s).length = bytes.length := by
  unfold storedBytes
  split <;> simp

/-- Without a buffer hazard the core stores its own bytes and takes no free value. -/
theorem storedBytes_of_no_hazard {bytes : List Byte} {s : State} (h : s.hazard = false) : storedBytes bytes s = bytes := by
  simp [storedBytes, h]

theorem storedDraws_of_no_hazard {bytes : List Byte} {s : State} (h : s.hazard = false) : storedDraws bytes s = s.draws := by
  simp [storedDraws, h]

/-- A write that completes keeps memory canonical. -/
theorem completeWrite_wf {addr : Nat} {bytes : List Byte} {s : State} (h : s.mem.wf = true)
    (ha : addr + bytes.length ≤ addressSpace) : (completeWrite addr bytes s).mem.wf = true :=
  wfFrom_writeBytes _ h (Nat.zero_le _) (by simpa using ha)

/-- A write that fails or is cut keeps memory canonical. -/
theorem drawnWrite_wf {addr : Nat} {bytes : List Byte} {s : State} (h : s.mem.wf = true)
    (ha : addr + bytes.length ≤ addressSpace) : (drawnWrite addr bytes s).mem.wf = true :=
  wfFrom_writeBytes _ h (Nat.zero_le _) (by simpa using ha)

/-- A write leaves every byte outside its range. -/
theorem completeWrite_outside {addr : Nat} {bytes : List Byte} {s : State} {x : Nat} (h : s.mem.wf = true)
    (ha : addr + bytes.length ≤ addressSpace) (hx : ¬ (addr ≤ x ∧ x < addr + bytes.length)) :
    readByte (completeWrite addr bytes s).mem x = readByte s.mem x :=
  readByte_writeBytes_outside h (by simpa using ha) (by simpa using hx)

/-- A failing or cut write leaves every byte outside its range. -/
theorem drawnWrite_outside {addr : Nat} {bytes : List Byte} {s : State} {x : Nat} (h : s.mem.wf = true)
    (ha : addr + bytes.length ≤ addressSpace) (hx : ¬ (addr ≤ x ∧ x < addr + bytes.length)) :
    readByte (drawnWrite addr bytes s).mem x = readByte s.mem x :=
  readByte_writeBytes_outside h (by simpa using ha) (by simpa using hx)

/-- Without a buffer hazard, each byte of a failing or cut write is the old or the new one (20_memory.md R63). -/
theorem drawnWrite_inside {addr : Nat} {bytes : List Byte} {s : State} {k : Nat} (h : s.mem.wf = true)
    (hz : s.hazard = false) (ha : addr + bytes.length ≤ addressSpace) (hk : k < bytes.length) :
    readByte (drawnWrite addr bytes s).mem (addr + k) = readByte s.mem (addr + k)
      ∨ readByte (drawnWrite addr bytes s).mem (addr + k) = bytes[k] := by
  simp only [drawnWrite_mem, storedBytes_of_no_hazard hz]
  rw [readByte_writeBytes _ _ _ h (by simpa using ha), dif_pos (by simp; omega)]
  simpa using getElem_drawBytes (storedDraws bytes s) s.mem addr bytes k hk

end Sys2Proof.Machine
end

