-- ==== Sys2Proof/Laws/Blocks.lean ====
section
/-! SUPPORT. The laws of byte strings and blocks: which byte of a block is which, and the integer views of counter blocks
and trailers. -/

namespace Sys2Proof.Machine

@[simp] theorem length_bytesOfBlock (b : Block) : (bytesOfBlock b).length = 16 := by simp [bytesOfBlock, blockBytes]

theorem getElem_bytesOfBlock (b : Block) (k : Nat) (h : k < (bytesOfBlock b).length) :
    (bytesOfBlock b)[k] = blockByte b k := by
  simp [bytesOfBlock]

@[simp] theorem length_xorBytes (a b : List Byte) : (xorBytes a b).length = min a.length b.length := by simp [xorBytes]

theorem getElem_xorBytes (a b : List Byte) (k : Nat) (h : k < (xorBytes a b).length) :
    (xorBytes a b)[k] = a[k]'(by simp at h; omega) ^^^ b[k]'(by simp at h; omega) := by
  simp [xorBytes]

/-! ## The integer view of a byte string -/

theorem natOfBytes_append_one (bytes : List Byte) (b : Byte) : natOfBytes (bytes ++ [b]) = natOfBytes bytes * 256 + b.toNat := by
  simp [natOfBytes]

theorem natOfBytes_lt (bytes : List Byte) : natOfBytes bytes < 256 ^ bytes.length := by
  induction bytes using List.reverseRecOn with
  | nil => simp [natOfBytes]
  | append_singleton bs b ih =>
    rw [natOfBytes_append_one]
    have := b.isLt
    simp only [List.length_append, List.length_singleton, Nat.pow_succ]
    omega

/-- Byte k of a string is its k-th digit in base 256, the first the most significant. -/
theorem natOfBytes_digit (bytes : List Byte) (k : Nat) (h : k < bytes.length) :
    natOfBytes bytes / 256 ^ (bytes.length - 1 - k) % 256 = (bytes[k]).toNat := by
  induction bytes using List.reverseRecOn with
  | nil => simp at h
  | append_singleton bs b ih =>
    rw [natOfBytes_append_one]
    simp only [List.length_append, List.length_singleton] at h ⊢
    have hb := b.isLt
    by_cases hk : k = bs.length
    · subst hk
      simp
      omega
    · have hk' : k < bs.length := by omega
      have hdiv : (natOfBytes bs * 256 + b.toNat) / 256 = natOfBytes bs := by omega
      rw [List.getElem_append_left hk', ← ih hk', show bs.length + 1 - 1 - k = (bs.length - 1 - k) + 1 by omega,
        Nat.pow_succ, Nat.mul_comm (256 ^ _) 256, ← Nat.div_div_eq_div_mul, hdiv]

/-! ## Padded blocks -/

theorem length_padBlock (bytes : List Byte) (h : bytes.length ≤ 16) : (padBlock bytes).length = 16 := by
  simp [padBlock, blockBytes]; omega

theorem getElem_padBlock (bytes : List Byte) (h : bytes.length ≤ 16) (k : Nat) (hk : k < 16) :
    (padBlock bytes)[k]'(by rw [length_padBlock bytes h]; exact hk) = if hb : k < bytes.length then bytes[k] else 0 := by
  unfold padBlock
  rw [List.getElem_append]
  split <;> simp

/-- Byte k of the block of a byte string: the string's byte, then zeros (43_ghash_accumulator.md R162). -/
theorem blockByte_blockOfBytes (bytes : List Byte) (h : bytes.length ≤ 16) (k : Nat) (hk : k < 16) :
    blockByte (blockOfBytes bytes) k = if hb : k < bytes.length then bytes[k] else 0 := by
  rw [← getElem_padBlock bytes h k hk]
  have hl := length_padBlock bytes h
  have hd := natOfBytes_digit (padBlock bytes) k (by omega)
  have hlt := natOfBytes_lt (padBlock bytes)
  apply BitVec.eq_of_toNat_eq
  rw [← hd]
  simp only [hl] at hlt ⊢
  have hmod : natOfBytes (padBlock bytes) % 2 ^ 128 = natOfBytes (padBlock bytes) := Nat.mod_eq_of_lt (by simpa using hlt)
  simp only [blockByte, blockOfBytes, BitVec.extractLsb'_toNat, BitVec.toNat_ofNat, Nat.shiftRight_eq_div_pow, hmod,
    Nat.pow_mul]

/-- A block is determined by its sixteen bytes. -/
theorem block_ext {a b : Block} (h : ∀ k < 16, blockByte a k = blockByte b k) : a = b := by
  apply BitVec.eq_of_getLsbD_eq
  intro i hi
  have := congrArg (fun v : Byte => v.getLsbD (i % 8)) (h (15 - i / 8) (by omega))
  simp only [blockByte, BitVec.getLsbD_extractLsb', show i % 8 < 8 from by omega, decide_true, Bool.true_and,
    show 8 * (15 - (15 - i / 8)) + i % 8 = i from by omega] at this
  exact this

/-- The bytes of the block of sixteen bytes. -/
theorem bytesOfBlock_blockOfBytes (bytes : List Byte) (h : bytes.length = 16) : bytesOfBlock (blockOfBytes bytes) = bytes := by
  apply List.ext_getElem (by simp [h])
  intro k h1 h2
  rw [getElem_bytesOfBlock, blockByte_blockOfBytes bytes (by omega) k (by omega), dif_pos h2]

/-! ## Counter blocks and trailers -/

theorem toNat_counterBlock (j0 : Block) (c : Nat) :
    (counterBlock j0 c).toNat = j0.toNat / 2 ^ 32 * 2 ^ 32 + c % 2 ^ 32 := by
  have hj := j0.isLt
  have h1 : (j0.extractLsb' 32 96).toNat = j0.toNat / 2 ^ 32 := by
    simp only [BitVec.extractLsb'_toNat, Nat.shiftRight_eq_div_pow]
    exact Nat.mod_eq_of_lt (by omega)
  unfold counterBlock
  rw [BitVec.toNat_append, h1, ← Nat.shiftLeft_add_eq_or_of_lt (be32 c).isLt, Nat.shiftLeft_eq]
  simp [be32]

theorem toNat_initialCounterBlock (n : Nonce) : (initialCounterBlock n).toNat = n.toNat * 2 ^ 32 := by
  unfold initialCounterBlock
  rw [BitVec.toNat_append, ← Nat.shiftLeft_add_eq_or_of_lt (be32 0).isLt, Nat.shiftLeft_eq]
  simp [be32]

theorem toNat_lengthTrailer (a p : Nat) (ha : 8 * a < 2 ^ 64) (hp : 8 * p < 2 ^ 64) :
    (lengthTrailer a p).toNat = 8 * a * 2 ^ 64 + 8 * p := by
  unfold lengthTrailer
  rw [BitVec.toNat_append, ← Nat.shiftLeft_add_eq_or_of_lt (be64 (8 * p)).isLt, Nat.shiftLeft_eq]
  simp only [be64, BitVec.toNat_ofNat, Nat.mod_eq_of_lt ha, Nat.mod_eq_of_lt hp]

/-- The counter block of a counter on the initial counter block: the same nonce, that counter (30_encoding.md R87). -/
theorem toNat_counterBlock_initial (n : Nonce) (c : Nat) :
    (counterBlock (initialCounterBlock n) c).toNat = n.toNat * 2 ^ 32 + c % 2 ^ 32 := by
  rw [toNat_counterBlock, toNat_initialCounterBlock]
  omega

/-! ## Block lengths -/

theorem blockLen_le (len i : Nat) : blockLen len i ≤ 16 := by simp [blockLen, blockBytes]

theorem blockLen_pos {len i : Nat} (h : i < nblocks len) : 0 < blockLen len i := by
  simp only [nblocks] at h
  simp only [blockLen, blockBytes]
  omega

/-- A block stays inside its string. -/
theorem blockLen_end {len i : Nat} (h : i < nblocks len) : 16 * i + blockLen len i ≤ len := by
  simp only [nblocks] at h
  simp only [blockLen, blockBytes]
  omega

/-- Every block but the last is full. -/
theorem blockLen_full {len i : Nat} (h : i + 1 < nblocks len) : blockLen len i = 16 := by
  simp only [nblocks] at h
  simp only [blockLen, blockBytes]
  omega

end Sys2Proof.Machine
end

