-- ==== Sys2Proof/Laws/Encoding.lean ====
section
/-! SUPPORT. The laws of the formats: the fields of a HOSTTX word, as bits and as digits of its value, and the code maps. -/

namespace Sys2Proof

/-- A bit of a HOSTTX word: WDATA below, then OFFSET, then WE (30_encoding.md R80). -/
theorem getLsbD_hosttxWord (we : Bool) (off : BitVec 7) (wd : Word) (i : Nat) :
    (hosttxWord we off wd).getLsbD i
      = if i < 64 then wd.getLsbD i else if i < 71 then off.getLsbD (i - 64) else (BitVec.ofBool we).getLsbD (i - 71) := by
  change BitVec.getLsbD (w := 1 + 7 + 64) (BitVec.ofBool we ++ off ++ wd) i = _
  rw [BitVec.getLsbD_append, BitVec.getLsbD_append]
  split
  · rfl
  · split
    · rw [if_pos (by omega)]
    · rw [if_neg (by omega), Nat.sub_sub]

@[simp] theorem hosttxWe_hosttxWord (we : Bool) (off : BitVec 7) (wd : Word) : hosttxWe (hosttxWord we off wd) = we := by
  rw [hosttxWe, getLsbD_hosttxWord]
  simp

@[simp] theorem hosttxOffset_hosttxWord (we : Bool) (off : BitVec 7) (wd : Word) :
    hosttxOffset (hosttxWord we off wd) = off := by
  apply BitVec.eq_of_getLsbD_eq
  intro i hi
  rw [hosttxOffset, BitVec.getLsbD_extractLsb', getLsbD_hosttxWord]
  simp [hi, show 64 + i < 71 by omega]

@[simp] theorem hosttxWdata_hosttxWord (we : Bool) (off : BitVec 7) (wd : Word) :
    hosttxWdata (hosttxWord we off wd) = wd := by
  apply BitVec.eq_of_getLsbD_eq
  intro i hi
  rw [hosttxWdata, BitVec.getLsbD_extractLsb', getLsbD_hosttxWord]
  simp [hi]

/-- OFFSET is a digit of the word's value (30_encoding.md R80). -/
theorem toNat_hosttxOffset (tx : BitVec 72) : (hosttxOffset tx).toNat = tx.toNat / 2 ^ 64 % 128 := by
  simp [hosttxOffset, Nat.shiftRight_eq_div_pow]

/-- WE is the top digit of the word's value (30_encoding.md R80). -/
theorem hosttxWe_eq (tx : BitVec 72) : hosttxWe tx = decide (tx.toNat / 2 ^ 71 = 1) := by
  have h := tx.isLt
  simp only [hosttxWe, BitVec.getLsbD, Nat.testBit, Nat.shiftRight_eq_div_pow, Nat.one_and_eq_mod_two]
  have h2 : tx.toNat / 2 ^ 71 < 2 := by omega
  interval_cases tx.toNat / 2 ^ 71 <;> rfl

/-- OFFSET[2:0] as a digit (30_encoding.md R81). -/
theorem toNat_offset_low (tx : BitVec 72) : ((hosttxOffset tx).extractLsb' 0 3).toNat = tx.toNat / 2 ^ 64 % 8 := by
  rw [BitVec.extractLsb'_toNat, toNat_hosttxOffset]
  simp

/-- OFFSET[6:3] as a digit: the register index (30_encoding.md R81). -/
theorem offset_index (tx : BitVec 72) : (hosttxOffset tx).extractLsb' 3 4 = BitVec.ofNat 4 (tx.toNat / 2 ^ 67) := by
  apply BitVec.eq_of_toNat_eq
  rw [BitVec.extractLsb'_toNat, toNat_hosttxOffset, Nat.shiftRight_eq_div_pow, BitVec.toNat_ofNat]
  omega

theorem hosttxWdata_eq (tx : BitVec 72) : hosttxWdata tx = BitVec.ofNat 64 tx.toNat := by
  apply BitVec.eq_of_toNat_eq
  simp [hosttxWdata]

/-- Every register is the one its index names (10_state.md R20). -/
@[simp] theorem ofIndex_index (r : HostReg) : HostReg.ofIndex r.index = r := by cases r <;> rfl

/-- A register's offset is aligned (10_state.md R20). -/
@[simp] theorem offset_aligned (r : HostReg) : r.offset.extractLsb' 0 3 = 0 := by cases r <;> rfl

@[simp] theorem offset_index_field (r : HostReg) : r.offset.extractLsb' 3 4 = r.index := by cases r <;> rfl

/-- Only CMD stands at offset 0 (10_state.md R20). -/
theorem offset_eq_zero (r : HostReg) : r.offset = 0#7 ↔ r = .cmd := by cases r <;> decide

/-- Every STATE is the one its code names (30_encoding.md R85). -/
@[simp] theorem ofCode_code (st : Stage) : Stage.ofCode st.code = some st := by cases st <;> rfl

/-- The micro-operation of a STATE, read off its code (30_encoding.md R85). -/
theorem decodeUstate_code (st : Stage) :
    decodeUstate st.code = match microOperation st with
      | none => .rejected .noMicroOperation
      | some i => .instr i := by
  cases st <;> rfl

end Sys2Proof
end

