-- ==== Sys2Proof/Laws/Validate.lean ====
section
/-! SUPPORT. The laws of VALIDATE's checks (41_setup.md R120, R121): each Boolean check as the condition it stands for, and
what the descriptors of a valid call satisfy. -/

namespace Sys2Proof.Machine

/-- A range meets `n` bytes from `addr` when it shares a byte with them. -/
theorem meets_iff (r : AddrRange) (addr n : Nat) : r.meets addr n = true ↔ r.sharesByte ⟨addr, n⟩ := by
  simp only [AddrRange.meets, AddrRange.sharesByte, AddrRange.has, Bool.and_eq_true, decide_eq_true_eq]
  constructor
  · rintro ⟨⟨⟨h1, h2⟩, h3⟩, h4⟩
    exact ⟨max r.base addr, by omega⟩
  · rintro ⟨x, h⟩
    omega

/-- A range meets one byte exactly when it has that byte. -/
theorem meets_one (r : AddrRange) (addr : Nat) : r.meets addr 1 = true ↔ r.has addr := by
  simp only [AddrRange.meets, AddrRange.has, Bool.and_eq_true, decide_eq_true_eq]
  omega

/-- The overlap test compares regions byte by byte. -/
theorem overlaps_iff (r q : AddrRange) : r.overlaps q = true ↔ r.sharesByte q := meets_iff r q.base q.size

/-- The overlap check of VALIDATE. -/
theorem badOverlap_iff (p : Platform) (d : Descriptors) : badOverlap p d = true ↔ errorCause p d .bufferOverlap := by
  simp only [badOverlap, errorCause, Bool.or_eq_true, Bool.and_eq_true, overlaps_iff, bne_iff_ne, ne_eq, or_assoc]

/-- The range check of VALIDATE. -/
theorem anyWraps_iff (p : Platform) (d : Descriptors) :
    (callRegions p d).any AddrRange.wraps = true ↔ errorCause p d .addressRange := by
  simp only [errorCause, List.any_eq_true, AddrRange.wraps, Bool.and_eq_true, decide_eq_true_eq]
  rfl

/-- VALIDATE never reports NONE or BUS_ERROR. -/
theorem validationError_code {p : Platform} {d : Descriptors} {c : ErrorCode} (h : validationError p d = some c) :
    c ≠ .none ∧ c ≠ .busError := by
  unfold validationError at h
  split_ifs at h <;> cases h <;> exact ⟨by decide, by decide⟩

/-- What VALIDATE has checked when no cause holds. -/
structure Valid (p : Platform) (d : Descriptors) : Prop where
  nonceLen : d.nonceLen.toNat = nonceBytes
  ptLen : d.ptLen.toNat ≤ ptMax
  aadLen : d.aadLen.toNat ≤ aadMax
  ctCap : d.ptLen.toNat ≤ d.ctCap.toNat
  tagCap : tagBytes ≤ d.tagCap.toNat
  inRange : ∀ r ∈ callRegions p d, r.size = 0 ∨ r.base + r.size ≤ addressSpace
  noOverlap : badOverlap p d = false

/-- VALIDATE passes exactly when all its checks do. -/
theorem validationError_eq_none {p : Platform} {d : Descriptors} : validationError p d = none ↔ Valid p d := by
  have hr : (callRegions p d).any AddrRange.wraps = false ↔
      ∀ r ∈ callRegions p d, r.size = 0 ∨ r.base + r.size ≤ addressSpace := by
    rw [← Bool.not_eq_true, anyWraps_iff]
    show (¬ ∃ r ∈ callRegions p d, 0 < r.size ∧ addressSpace < r.base + r.size) ↔ _
    constructor
    · intro h r hm
      by_contra hc
      exact h ⟨r, hm, by omega⟩
    · rintro h ⟨r, hm, hc⟩
      have := h r hm
      omega
  unfold validationError
  constructor
  · intro h
    split_ifs at h with h1 h2 h3 h4 h5
    have h4' := hr.mp (by simpa using h4)
    exact ⟨by omega, by omega, by omega, by omega, by omega, h4', by simpa using h5⟩
  · rintro ⟨h1, h2, h3, h4, h5, h6, h7⟩
    rw [if_neg (by omega), if_neg (by omega), if_neg (by omega), hr.mpr h6, h7]
    rfl

/-- The ciphertext region is the plaintext region or shares no byte with it. -/
theorem Valid.inPlaceOrApart {p : Platform} {d : Descriptors} (h : Valid p d) :
    d.ctAddr = d.ptAddr ∨ ¬ (ctRegion d).sharesByte (ptRegion d) := by
  have := (badOverlap_iff p d).not.mp (by simp [h.noOverlap])
  simp only [errorCause] at this
  tauto

/-- The counts of a valid call fit their registers (10_state.md R46, 42_keystream_generator.md R148). -/
theorem Valid.counts {p : Platform} {d : Descriptors} (h : Valid p d) :
    d.ptBlocks ≤ 2 ^ 32 - 1 ∧ d.pairs ≤ 2 ^ 31 ∧ d.ghashBlocks < 2 ^ 62 := by
  have h1 := h.ptLen
  have h2 := h.aadLen
  simp only [ptMax, aadMax] at h1 h2
  simp only [Descriptors.pairs, Descriptors.ghashBlocks, Descriptors.ptBlocks, Descriptors.aadBlocks, nblocks]
  omega

/-! ## The blocks of a valid call lie in the address space -/

theorem Valid.plaintextInSpace {p : Platform} {d : Descriptors} {i : Nat} (h : Valid p d) (hi : i < d.ptBlocks) :
    d.ptAddr.toNat + 16 * i + blockLen d.ptLen.toNat i ≤ addressSpace := by
  have hr := h.inRange (ptRegion d) (by simp [callRegions])
  have a := blockLen_end (len := d.ptLen.toNat) hi
  have b := blockLen_pos (len := d.ptLen.toNat) hi
  simp only [ptRegion] at hr
  omega

theorem Valid.ciphertextInSpace {p : Platform} {d : Descriptors} {i : Nat} (h : Valid p d) (hi : i < d.ptBlocks) :
    d.ctAddr.toNat + 16 * i + blockLen d.ptLen.toNat i ≤ addressSpace := by
  have hr := h.inRange (ctRegion d) (by simp [callRegions])
  have a := blockLen_end (len := d.ptLen.toNat) hi
  have b := blockLen_pos (len := d.ptLen.toNat) hi
  simp only [ctRegion] at hr
  omega

theorem Valid.aadInSpace {p : Platform} {d : Descriptors} {i : Nat} (h : Valid p d) (hi : i < d.aadBlocks) :
    d.aadAddr.toNat + 16 * i + blockLen d.aadLen.toNat i ≤ addressSpace := by
  have hr := h.inRange (aadRegion d) (by simp [callRegions])
  have a := blockLen_end (len := d.aadLen.toNat) hi
  have b := blockLen_pos (len := d.aadLen.toNat) hi
  simp only [aadRegion] at hr
  omega

theorem Valid.tagInSpace {p : Platform} {d : Descriptors} (h : Valid p d) : d.tagAddr.toNat + 16 ≤ addressSpace := by
  have hr := h.inRange (tagRegion d) (by simp [callRegions])
  simp only [tagRegion, tagBytes] at hr
  omega

theorem Valid.keyInSpace {p : Platform} {d : Descriptors} (h : Valid p d) :
    d.keyAddr.toNat + p.keyBytes ≤ addressSpace := by
  have hr := h.inRange (keyRegion p d) (by simp [callRegions])
  have hk : d.keyAddr.toNat < addressSpace := d.keyAddr.isLt
  simp only [keyRegion] at hr
  omega

theorem Valid.nonceInSpace {p : Platform} {d : Descriptors} (h : Valid p d) :
    d.nonceAddr.toNat + 12 ≤ addressSpace := by
  have hr := h.inRange (nonceRegion d) (by simp [callRegions])
  simp only [nonceRegion, nonceBytes] at hr
  omega

/-- The number of GHASH blocks fits its register, for any descriptors. -/
theorem ghashBlocks_lt (d : Descriptors) : d.ghashBlocks < 2 ^ 64 := by
  have h1 := d.aadLen.isLt
  have h2 := d.ptLen.isLt
  simp only [Descriptors.ghashBlocks, Descriptors.aadBlocks, Descriptors.ptBlocks, nblocks]
  omega

end Sys2Proof.Machine
end

