-- ==== Sys2Proof/Laws/Instructions.lean ====
section
/-! SUPPORT. What each micro-operation that accesses memory can do, said once: its lanes, its next states, and what it leaves
of the rest of the machine. -/

namespace Sys2Proof.Machine

/-! ## The rest of the machine -/

/-- `t` is `s` but for the error registers, STATE, the datapath, memory and the free values taken. -/
structure SameOutside (s t : State) : Prop where
  desc : t.desc = s.desc
  irqEn : t.irqEn = s.irqEn
  cmdDropped : t.cmdDropped = s.cmdDropped
  rdata : t.rdata = s.rdata
  hostByte : t.hostByte = s.hostByte
  platform : t.platform = s.platform
  events : t.events = s.events
  hazard : t.hazard = s.hazard
  callMem : t.callMem = s.callMem

theorem SameOutside.refl (s : State) : SameOutside s s := ⟨rfl, rfl, rfl, rfl, rfl, rfl, rfl, rfl, rfl⟩

theorem SameOutside.trans {s t u : State} (h : SameOutside s t) (k : SameOutside t u) : SameOutside s u :=
  ⟨k.desc.trans h.desc, k.irqEn.trans h.irqEn, k.cmdDropped.trans h.cmdDropped, k.rdata.trans h.rdata,
    k.hostByte.trans h.hostByte, k.platform.trans h.platform, k.events.trans h.events, k.hazard.trans h.hazard,
    k.callMem.trans h.callMem⟩

theorem sameOutside_raiseError (code : ErrorCode) (addr : Nat) (s : State) : SameOutside s (raiseError code addr s) :=
  ⟨rfl, rfl, rfl, rfl, rfl, rfl, rfl, rfl, rfl⟩

theorem sameOutside_completeWrite (addr : Nat) (bytes : List Byte) (s : State) :
    SameOutside s (completeWrite addr bytes s) := ⟨rfl, rfl, rfl, rfl, rfl, rfl, rfl, rfl, rfl⟩

theorem sameOutside_drawnWrite (addr : Nat) (bytes : List Byte) (s : State) :
    SameOutside s (drawnWrite addr bytes s) := ⟨rfl, rfl, rfl, rfl, rfl, rfl, rfl, rfl, rfl⟩

theorem sameOutside_loadLanes (s : State) : SameOutside s (loadLanes s) :=
  ⟨rfl, rfl, rfl, rfl, rfl, rfl, rfl, rfl, rfl⟩

theorem sameOutside_advancePair (s : State) : SameOutside s (advancePair s) :=
  ⟨rfl, rfl, rfl, rfl, rfl, rfl, rfl, rfl, rfl⟩

/-- An error entry after writes: what it changes of the state the micro-operation began in (60_exceptions.md R209). -/
theorem raiseError_eq {s t : State} (h : SameOutside s t) (code : ErrorCode) (addr : Nat) :
    raiseError code addr t = { s with
      errCode := code, errAddr := BitVec.ofNat 64 addr, stage := .error, dp := Datapath.zero s.platform.keyBytes
      mem := t.mem, draws := t.draws } := by
  unfold raiseError zeroize
  simp [h.desc, h.irqEn, h.cmdDropped, h.rdata, h.hostByte, h.platform, h.events, h.hazard, h.callMem]

/-! ## VALIDATE and LOAD -/

/-- Everything VALIDATE can do. -/
theorem execValidate_cases {s t : State} (h : execValidate s = .next t) :
    (validationError s.platform s.desc = none ∧ t = { s with stage := .load })
      ∨ ∃ c, validationError s.platform s.desc = some c ∧ t = raiseError c 0 s := by
  unfold execValidate at h
  split at h <;> cases h
  · next c hc => exact .inr ⟨c, hc, rfl⟩
  · next hc => exact .inl ⟨hc, rfl⟩

/-- Everything LOAD can do. -/
theorem execLoad_cases {s t : State} (h : execLoad s = .next t) :
    t = { s with
        dp := { s.dp with
          keyr := readBytes s.mem s.desc.keyAddr.toNat s.platform.keyBytes
          noncer := nonceOfBytes (readBytes s.mem s.desc.nonceAddr.toNat nonceBytes) }
        stage := .deriveSubkey }
      ∨ ∃ a, t = raiseError .busError a s := by
  rcases finish_eq_next h with ⟨l, hl, rfl⟩ | hr
  · obtain ⟨k, hk, h2⟩ := bind_eq_ok hl
    obtain ⟨n, hn, h3⟩ := bind_eq_ok h2
    cases h3
    obtain ⟨_, rfl⟩ := memRead_eq_ok hk
    obtain ⟨_, rfl⟩ := memRead_eq_ok hn
    exact .inl rfl
  · rcases bind_eq_raised hr with h1 | ⟨k, hk, h2⟩
    · exact .inr ⟨_, (memRead_eq_raised h1).2⟩
    · rcases bind_eq_raised h2 with h1 | ⟨n, _, h3⟩
      · exact .inr ⟨_, (memRead_eq_raised h1).2⟩
      · cases h3

/-! ## The lanes of KEYSTREAM (42_keystream_generator.md R145 to R147) -/

/-- The ciphertext bytes of block `i` under the keystream block `ks`. -/
def laneBytes (s : State) (i : Nat) (ks : Block) : List Byte :=
  xorBytes (readBytes s.mem (s.desc.ptAddr.toNat + 16 * i) (blockLen s.desc.ptLen.toNat i))
    ((bytesOfBlock ks).take (blockLen s.desc.ptLen.toNat i))

@[simp] theorem length_laneBytes (s : State) (i : Nat) (ks : Block) :
    (laneBytes s i ks).length = blockLen s.desc.ptLen.toNat i := by
  have := blockLen_le s.desc.ptLen.toNat i
  simp [laneBytes]
  omega

theorem getElem_laneBytes (s : State) (i : Nat) (ks : Block) (k : Nat) (h : k < (laneBytes s i ks).length) :
    (laneBytes s i ks)[k] = readByte s.mem (s.desc.ptAddr.toNat + 16 * i + k) ^^^ blockByte ks k := by
  simp only [laneBytes] at h ⊢
  rw [getElem_xorBytes, getElem_readBytes, List.getElem_take, getElem_bytesOfBlock]

/-- Everything a lane can answer with a value. -/
theorem laneStep_cases {w : Nat → List Byte → State → Access State} {i : Nat} {ks : Block} {s t : State}
    (h : laneStep w i ks s = .ok t) :
    (s.desc.ptBlocks ≤ i ∧ t = s)
      ∨ (i < s.desc.ptBlocks ∧ s.desc.ptAddr.toNat + 16 * i + blockLen s.desc.ptLen.toNat i ≤ addressSpace
        ∧ w (s.desc.ctAddr.toNat + 16 * i) (laneBytes s i ks) s = .ok t) := by
  unfold laneStep at h
  split at h
  · next hi =>
    obtain ⟨p, hp, hw⟩ := bind_eq_ok h
    obtain ⟨ha, rfl⟩ := memRead_eq_ok hp
    exact .inr ⟨hi, ha, by simpa [laneBytes] using hw⟩
  · next hi => cases h; exact .inl ⟨by omega, rfl⟩

/-- Everything a lane can raise. -/
theorem laneStep_raised {w : Nat → List Byte → State → Access State} {i : Nat} {ks : Block} {s t : State}
    (h : laneStep w i ks s = .raised t) :
    i < s.desc.ptBlocks ∧ (t = raiseError .busError (s.desc.ptAddr.toNat + 16 * i) s
      ∨ w (s.desc.ctAddr.toNat + 16 * i) (laneBytes s i ks) s = .raised t) := by
  unfold laneStep at h
  split at h
  · next hi =>
    refine ⟨hi, ?_⟩
    rcases bind_eq_raised h with hr | ⟨p, hp, hw⟩
    · exact .inl (memRead_eq_raised hr).2
    · obtain ⟨ha, rfl⟩ := memRead_eq_ok hp
      exact .inr (by simpa [laneBytes] using hw)
  · cases h

/-- A lane whose read completes does its write. -/
theorem laneStep_read {w : Nat → List Byte → State → Access State} {i : Nat} {ks : Block} {s : State}
    (hi : i < s.desc.ptBlocks)
    (hr : transactionOk s.platform (s.desc.ptAddr.toNat + 16 * i) (blockLen s.desc.ptLen.toNat i) .read = true) :
    laneStep w i ks s = w (s.desc.ctAddr.toNat + 16 * i) (laneBytes s i ks) s := by
  unfold laneStep
  rw [if_pos hi, memRead_ok hr, bind_ok, length_readBytes]
  rfl

/-- A lane whose transactions complete. -/
theorem laneStep_ok {i : Nat} {ks : Block} {s : State} (hi : i < s.desc.ptBlocks)
    (hr : transactionOk s.platform (s.desc.ptAddr.toNat + 16 * i) (blockLen s.desc.ptLen.toNat i) .read = true)
    (hw : transactionOk s.platform (s.desc.ctAddr.toNat + 16 * i) (blockLen s.desc.ptLen.toNat i) .write = true) :
    laneStep memWrite i ks s = .ok (completeWrite (s.desc.ctAddr.toNat + 16 * i) (laneBytes s i ks) s) := by
  rw [laneStep_read hi hr, memWrite_ok (by rw [length_laneBytes]; exact hw)]

/-- A lane whose read is denied. -/
theorem laneStep_readDenied {w : Nat → List Byte → State → Access State} {i : Nat} {ks : Block} {s : State}
    (hi : i < s.desc.ptBlocks)
    (hr : transactionDenied s.platform (s.desc.ptAddr.toNat + 16 * i) (blockLen s.desc.ptLen.toNat i) .read = true) :
    laneStep w i ks s = .raised (raiseError .busError (s.desc.ptAddr.toNat + 16 * i) s) := by
  unfold laneStep
  rw [if_pos hi, memRead_denied hr, bind_raised]

/-- A lane whose write is denied. -/
theorem laneStep_writeDenied {i : Nat} {ks : Block} {s : State} (hi : i < s.desc.ptBlocks)
    (hr : transactionOk s.platform (s.desc.ptAddr.toNat + 16 * i) (blockLen s.desc.ptLen.toNat i) .read = true)
    (hw : transactionDenied s.platform (s.desc.ctAddr.toNat + 16 * i) (blockLen s.desc.ptLen.toNat i) .write = true) :
    laneStep memWrite i ks s = .raised (raiseError .busError (s.desc.ctAddr.toNat + 16 * i)
      (drawnWrite (s.desc.ctAddr.toNat + 16 * i) (laneBytes s i ks) s)) := by
  rw [laneStep_read hi hr, memWrite_denied (by rw [length_laneBytes]; exact hw)]

/-- A lane past the last block accesses no memory. -/
theorem laneStep_none {w : Nat → List Byte → State → Access State} {i : Nat} {ks : Block} {s : State}
    (hi : s.desc.ptBlocks ≤ i) : laneStep w i ks s = .ok s := by
  unfold laneStep
  rw [if_neg (by omega)]

/-- Memory after a lane's write: the block is the plaintext XOR the keystream, and the rest is as before. -/
theorem readByte_lane {i : Nat} {s : State} (ks : Block) (hm : s.mem.wf = true) (hz : s.hazard = false)
    (ha : s.desc.ctAddr.toNat + 16 * i + blockLen s.desc.ptLen.toNat i ≤ addressSpace) (x : Nat) :
    readByte (completeWrite (s.desc.ctAddr.toNat + 16 * i) (laneBytes s i ks) s).mem x =
      if s.desc.ctAddr.toNat + 16 * i ≤ x ∧ x < s.desc.ctAddr.toNat + 16 * i + blockLen s.desc.ptLen.toNat i then
        readByte s.mem (s.desc.ptAddr.toNat + 16 * i + (x - (s.desc.ctAddr.toNat + 16 * i)))
          ^^^ blockByte ks (x - (s.desc.ctAddr.toNat + 16 * i))
      else readByte s.mem x := by
  rw [completeWrite_mem, storedBytes_of_no_hazard hz, readByte_writeBytes _ _ _ hm (by simpa using ha)]
  simp only [length_laneBytes, getElem_laneBytes, dite_eq_ite]

/-- A lane's write leaves the plaintext of every later block: the regions are the same or share no byte. -/
theorem lane_spares_later_plaintext {i j k : Nat} {s : State} (ks : Block) (hm : s.mem.wf = true) (hz : s.hazard = false)
    (hv : Valid s.platform s.desc) (hij : i < j) (hj : j < s.desc.ptBlocks) (hk : k < blockLen s.desc.ptLen.toNat j)
    (ha : s.desc.ctAddr.toNat + 16 * i + blockLen s.desc.ptLen.toNat i ≤ addressSpace) :
    readByte (completeWrite (s.desc.ctAddr.toNat + 16 * i) (laneBytes s i ks) s).mem (s.desc.ptAddr.toNat + 16 * j + k)
      = readByte s.mem (s.desc.ptAddr.toNat + 16 * j + k) := by
  rw [readByte_lane ks hm hz ha, if_neg]
  intro hx
  have hi := blockLen_le s.desc.ptLen.toNat i
  have hie := blockLen_end (len := s.desc.ptLen.toNat) (show i < nblocks s.desc.ptLen.toNat from hij.trans hj)
  have hje := blockLen_end (len := s.desc.ptLen.toNat) (show j < nblocks s.desc.ptLen.toNat from hj)
  rcases hv.inPlaceOrApart with he | he
  · rw [he] at hx
    omega
  · refine he ⟨s.desc.ptAddr.toNat + 16 * j + k, ?_, ?_⟩
    · show s.desc.ctAddr.toNat ≤ _ ∧ _ < s.desc.ctAddr.toNat + s.desc.ptLen.toNat
      omega
    · show s.desc.ptAddr.toNat ≤ _ ∧ _ < s.desc.ptAddr.toNat + s.desc.ptLen.toNat
      omega

theorem sameOutside_lane_ok {i : Nat} {ks : Block} {s t : State} (h : laneStep memWrite i ks s = .ok t) :
    SameOutside s t := by
  rcases laneStep_cases h with ⟨_, rfl⟩ | ⟨_, _, hw⟩
  · exact .refl _
  · obtain ⟨_, rfl⟩ := memWrite_eq_ok hw
    exact sameOutside_completeWrite _ _ _

theorem sameOutside_lane_raised {i : Nat} {ks : Block} {s t : State} (h : laneStep memWrite i ks s = .raised t) :
    SameOutside s t := by
  rcases (laneStep_raised h).2 with rfl | hw
  · exact sameOutside_raiseError _ _ _
  · obtain ⟨_, rfl⟩ := memWrite_eq_raised hw
    exact (sameOutside_drawnWrite _ _ _).trans (sameOutside_raiseError _ _ _)

/-- A lane that completes changes memory and the free values taken, and nothing else. -/
theorem lane_ok_core {i : Nat} {ks : Block} {s t : State} (h : laneStep memWrite i ks s = .ok t) :
    t.errCode = s.errCode ∧ t.errAddr = s.errAddr ∧ t.stage = s.stage ∧ t.dp = s.dp := by
  rcases laneStep_cases h with ⟨_, rfl⟩ | ⟨_, _, hw⟩
  · exact ⟨rfl, rfl, rfl, rfl⟩
  · obtain ⟨_, rfl⟩ := memWrite_eq_ok hw
    exact ⟨rfl, rfl, rfl, rfl⟩

/-- An error of a lane is BUS_ERROR. -/
theorem lane_raised_eq {i : Nat} {ks : Block} {s t : State} (h : laneStep memWrite i ks s = .raised t) :
    ∃ a u, t = raiseError .busError a u := by
  rcases (laneStep_raised h).2 with rfl | hw
  · exact ⟨_, _, rfl⟩
  · obtain ⟨_, rfl⟩ := memWrite_eq_raised hw
    exact ⟨_, _, rfl⟩

/-- A lane keeps memory canonical. -/
theorem lane_ok_wf {i : Nat} {ks : Block} {s t : State} (h : laneStep memWrite i ks s = .ok t) (hm : s.mem.wf = true) :
    t.mem.wf = true := by
  rcases laneStep_cases h with ⟨_, rfl⟩ | ⟨_, _, hw⟩
  · exact hm
  · obtain ⟨ha, rfl⟩ := memWrite_eq_ok hw
    exact completeWrite_wf hm ha

/-- A lane that ends in an error keeps memory canonical. -/
theorem lane_raised_wf {i : Nat} {ks : Block} {s t : State} (h : laneStep memWrite i ks s = .raised t)
    (hm : s.mem.wf = true) : t.mem.wf = true := by
  rcases (laneStep_raised h).2 with rfl | hw
  · exact hm
  · obtain ⟨ha, rfl⟩ := memWrite_eq_raised hw
    exact drawnWrite_wf hm ha

/-- A lane leaves every byte outside the ciphertext region. -/
theorem lane_outside {i : Nat} {ks : Block} {s t : State} {x : Nat} (h : laneStep memWrite i ks s = .ok t)
    (hm : s.mem.wf = true) (hx : ¬ (ctRegion s.desc).has x) : readByte t.mem x = readByte s.mem x := by
  rcases laneStep_cases h with ⟨_, rfl⟩ | ⟨hi, _, hw⟩
  · rfl
  · obtain ⟨ha, rfl⟩ := memWrite_eq_ok hw
    refine completeWrite_outside hm ha ?_
    have he := blockLen_end (len := s.desc.ptLen.toNat) hi
    simp only [AddrRange.has, ctRegion] at hx
    rw [length_laneBytes]
    omega

/-- So does a lane that ends in an error. -/
theorem lane_raised_outside {i : Nat} {ks : Block} {s t : State} {x : Nat} (h : laneStep memWrite i ks s = .raised t)
    (hm : s.mem.wf = true) (hx : ¬ (ctRegion s.desc).has x) : readByte t.mem x = readByte s.mem x := by
  obtain ⟨hi, rfl | hw⟩ := laneStep_raised h
  · rfl
  · obtain ⟨ha, rfl⟩ := memWrite_eq_raised hw
    refine drawnWrite_outside hm ha ?_
    have he := blockLen_end (len := s.desc.ptLen.toNat) hi
    simp only [AddrRange.has, ctRegion] at hx
    rw [length_laneBytes]
    omega

/-- The end of a pair moves STATE to BUILD_GHASH or leaves it. -/
theorem advancePair_stage (s : State) : (advancePair s).stage = .buildGhash ∨ (advancePair s).stage = s.stage := by
  simp only [advancePair]
  split_ifs <;> simp

/-- Everything KEYSTREAM can do. -/
theorem execKeystreamPair_cases {s t : State} (h : execKeystreamPair s = .next t) :
    (∃ s1 s2, laneStep memWrite (laneIndex 0 s) (loadLanes s).dp.ks0 (loadLanes s) = .ok s1
        ∧ laneStep memWrite (laneIndex 1 s) (loadLanes s).dp.ks1 s1 = .ok s2 ∧ t = advancePair s2)
      ∨ laneStep memWrite (laneIndex 0 s) (loadLanes s).dp.ks0 (loadLanes s) = .raised t
      ∨ ∃ s1, laneStep memWrite (laneIndex 0 s) (loadLanes s).dp.ks0 (loadLanes s) = .ok s1
        ∧ laneStep memWrite (laneIndex 1 s) (loadLanes s).dp.ks1 s1 = .raised t := by
  rcases finish_eq_next h with ⟨s2, hs, rfl⟩ | hr
  · obtain ⟨s1, h1, h2⟩ := bind_eq_ok hs
    exact .inl ⟨s1, s2, h1, h2, rfl⟩
  · rcases bind_eq_raised hr with h1 | ⟨s1, h1, h2⟩
    · exact .inr (.inl h1)
    · exact .inr (.inr ⟨s1, h1, h2⟩)

/-! ## ACCUMULATE -/

/-- An error of a GHASH read is BUS_ERROR, before anything has changed. -/
theorem ghashInput_raised {g : Nat} {s t : State} (h : ghashInput g s = .raised t) :
    ∃ a, t = raiseError .busError a s := by
  unfold ghashInput at h
  split at h
  · rcases bind_eq_raised h with h1 | ⟨_, _, h3⟩
    · exact ⟨_, (memRead_eq_raised h1).2⟩
    · cases h3
  · split at h
    · rcases bind_eq_raised h with h1 | ⟨_, _, h3⟩
      · exact ⟨_, (memRead_eq_raised h1).2⟩
      · cases h3
    · cases h

/-- Everything ACCUMULATE can do. -/
theorem execAccumulate_cases {s t : State} (h : execAccumulate s = .next t) :
    (∃ b, ghashInput s.dp.gIdx.toNat s = .ok b ∧ t = advanceGhash s b) ∨ ∃ a, t = raiseError .busError a s := by
  rcases finish_eq_next h with ⟨b, hb, rfl⟩ | hr
  · exact .inl ⟨b, hb, rfl⟩
  · exact .inr (ghashInput_raised hr)

/-- A fold step while a block is left (43_ghash_accumulator.md R165). -/
theorem advanceGhash_eq (s : State) (b : Block) (hg : s.dp.gIdx.toNat < s.desc.ghashBlocks) :
    advanceGhash s b = { s with
      dp := { s.dp with y := Config.mul (s.dp.y ^^^ b) s.dp.h, gIdx := BitVec.ofNat 64 (s.dp.gIdx.toNat + 1) }
      stage := if s.dp.gIdx.toNat + 1 = s.desc.ghashBlocks then .computeMask else s.stage } := by
  have hl := ghashBlocks_lt s.desc
  have hn : (BitVec.ofNat 64 (s.dp.gIdx.toNat + 1)).toNat = s.dp.gIdx.toNat + 1 := by
    rw [BitVec.toNat_ofNat]
    exact Nat.mod_eq_of_lt (by omega)
  simp only [advanceGhash, foldBlock, hn]

/-- A fold step moves STATE to COMPUTE_MASK or leaves it. -/
theorem advanceGhash_stage (s : State) (b : Block) :
    (advanceGhash s b).stage = .computeMask ∨ (advanceGhash s b).stage = s.stage := by
  simp only [advanceGhash]
  split_ifs <;> simp

/-- The bytes of a block read from memory: zero past its valid bytes (20_memory.md R73). -/
theorem blockByte_read (m : Memory) (addr n k : Nat) (hn : n ≤ 16) (hk : k < 16) :
    blockByte (blockOfBytes (readBytes m addr n)) k = if k < n then readByte m (addr + k) else 0 := by
  rw [blockByte_blockOfBytes _ (by simpa) _ hk]
  simp only [length_readBytes]
  split_ifs with h
  · rw [getElem_readBytes]
  · rfl

/-- A block of a byte string in memory is the read of its own bytes. -/
theorem readBytes_block (m : Memory) (addr n i : Nat) :
    ((readBytes m addr n).drop (16 * i)).take 16 = readBytes m (addr + 16 * i) (blockLen n i) := by
  apply List.ext_getElem
  · simp [blockLen, blockBytes]
  · intro k h1 h2
    rw [List.getElem_take, List.getElem_drop, getElem_readBytes, getElem_readBytes, Nat.add_assoc]

/-! ## FINALIZE_TAG -/

/-- Everything FINALIZE_TAG can do. -/
theorem execFinalizeTag_cases {s t : State} (h : execFinalizeTag s = .next t) :
    s.desc.tagAddr.toNat + 16 ≤ addressSpace
      ∧ (t = enterDone (completeWrite s.desc.tagAddr.toNat (bytesOfBlock (s.dp.y ^^^ s.dp.m)) (formTag s))
        ∨ t = raiseError .busError s.desc.tagAddr.toNat
          (drawnWrite s.desc.tagAddr.toNat (bytesOfBlock (s.dp.y ^^^ s.dp.m)) (formTag s))) := by
  rcases finish_eq_next h with ⟨b, hb, rfl⟩ | hr
  · obtain ⟨h1, rfl⟩ := memWrite_eq_ok hb
    exact ⟨by simpa using h1, .inl rfl⟩
  · obtain ⟨h1, rfl⟩ := memWrite_eq_raised hr
    exact ⟨by simpa using h1, .inr rfl⟩

end Sys2Proof.Machine
end

