-- ==== Sys2Proof/Laws/Environment.lean ====
section
/-! SUPPORT. The laws of the moves that are no instruction: another agent's accesses, and the reset input inside a memory
write. -/

namespace Sys2Proof.Machine

/-! ## Another agent's accesses -/

theorem inCallRegion_iff (addr : Nat) (s : State) :
    inCallRegion addr s = true ↔ ∃ r ∈ callRegions s.platform s.desc, r.has addr := by
  simp only [inCallRegion, List.any_eq_true, meets_one]

theorem inOutputRegion_iff (addr : Nat) (s : State) :
    inOutputRegion addr s = true ↔ (ctRegion s.desc).has addr ∨ (tagRegion s.desc).has addr := by
  simp only [inOutputRegion, Bool.or_eq_true, meets_one]

/-- Freeing a range keeps memory canonical. -/
theorem freeRange_wf (r : AddrRange) {s : State} (h : s.mem.wf = true) : (freeRange r s).mem.wf = true := by
  by_cases hb : r.base ≤ addressSpace
  · exact wfFrom_writeBytes _ h (Nat.zero_le _) (by simp; omega)
  · have hn : min r.size (addressSpace - r.base) = 0 := by omega
    simp only [freeRange, hn]
    exact h

/-- Freeing a range leaves every byte outside it. -/
theorem freeRange_outside (r : AddrRange) {s : State} {x : Nat} (h : s.mem.wf = true) (hx : ¬ r.has x) :
    readByte (freeRange r s).mem x = readByte s.mem x := by
  by_cases hb : r.base ≤ addressSpace
  · refine readByte_writeBytes_outside h (by simp; omega) ?_
    simp only [AddrRange.has] at hx
    simp
    omega
  · have hn : min r.size (addressSpace - r.base) = 0 := by omega
    simp only [freeRange, hn]
    rfl

/-- Another agent's write changes memory, the hazard mark and the free values taken, and nothing else. -/
theorem foreignStore_eq (addr : Word) (value : Byte) (s : State) :
    foreignStore addr value s = { s with
      mem := (foreignStore addr value s).mem
      draws := (foreignStore addr value s).draws
      hazard := (foreignStore addr value s).hazard } := by
  unfold foreignStore
  split_ifs <;> rfl

/-- Outside a buffer hazard, another agent's write changes its own byte of memory and nothing else. -/
theorem foreignStore_ordinary {addr : Word} {value : Byte} {s : State}
    (h : s.busy = false ∨ ∀ r ∈ callRegions s.platform s.desc, ¬ r.has addr.toNat) :
    foreignStore addr value s = { s with mem := writeByte s.mem addr.toNat value } := by
  unfold foreignStore
  rw [if_neg]
  rw [Bool.and_eq_true, inCallRegion_iff]
  rintro ⟨hb, r, hr, hx⟩
  rcases h with h | h
  · rw [h] at hb
    cases hb
  · exact h r hr hx

/-- A buffer hazard frees the output regions, over the memory with the byte written. -/
theorem foreignStore_hazard {addr : Word} {value : Byte} {s : State} (hb : s.busy = true)
    (h : ∃ r ∈ callRegions s.platform s.desc, r.has addr.toNat) :
    foreignStore addr value s = spoilOutputs { s with mem := writeByte s.mem addr.toNat value } := by
  unfold foreignStore
  rw [if_pos]
  rw [Bool.and_eq_true, inCallRegion_iff]
  exact ⟨hb, h⟩

/-- Freeing the output regions leaves every byte outside them. -/
theorem spoilOutputs_outside {s : State} {x : Nat} (h : s.mem.wf = true) (hc : ¬ (ctRegion s.desc).has x)
    (ht : ¬ (tagRegion s.desc).has x) : readByte (spoilOutputs s).mem x = readByte s.mem x :=
  (freeRange_outside (tagRegion s.desc) (freeRange_wf (ctRegion s.desc) h) ht).trans (freeRange_outside (ctRegion s.desc) h hc)

/-- Another agent's write keeps memory canonical. -/
theorem foreignStore_wf (addr : Word) (value : Byte) {s : State} (h : s.mem.wf = true) :
    (foreignStore addr value s).mem.wf = true := by
  have hw : (writeByte s.mem addr.toNat value).wf = true := wfFrom_writeByte value h (Nat.zero_le _) addr.isLt
  unfold foreignStore
  simp only
  split_ifs
  · exact freeRange_wf _ (freeRange_wf _ hw)
  · exact hw

/-! ## The reset input inside a memory write -/

/-- A cut write that the platform would answer, either way. -/
theorem cutWrite_answered {addr : Nat} {bytes : List Byte} {s : State}
    (h : transactionOk s.platform addr bytes.length .write = true ∨ transactionDenied s.platform addr bytes.length .write = true) :
    addr + bytes.length ≤ addressSpace ∧ cutWrite addr bytes s = .ok (drawnWrite addr bytes s) := by
  have hp : addr + bytes.length ≤ addressSpace ∧ hasSideEffects s.platform addr bytes.length = false := by
    rcases h with h | h
    · exact ⟨(transactionOk_iff.mp h).1, (transactionOk_iff.mp h).2.1⟩
    · exact ⟨(transactionDenied_iff.mp h).1, (transactionDenied_iff.mp h).2.1⟩
  exact ⟨hp.1, guardAccess_pass hp.1 hp.2⟩

/-- The reset after some memory accesses: memory and the free values taken stay, the rest is the reset core. -/
theorem resetCore_eq {s t : State} (h : SameOutside s t) :
    resetCore t = { resetCore s with mem := t.mem, draws := t.draws } := by
  unfold resetCore zeroize
  simp [h.rdata, h.hostByte, h.platform, h.events, h.callMem]

/-- A cut lane: everything it answers. -/
theorem cutLane_cases {i : Nat} {ks : Block} {s t : State}
    (h : laneStep cutWrite i ks s = .ok t ∨ laneStep cutWrite i ks s = .raised t) :
    SameOutside s t ∧ (s.mem.wf = true → t.mem.wf = true) := by
  rcases h with h | h
  · rcases laneStep_cases h with ⟨_, rfl⟩ | ⟨_, _, hw⟩
    · exact ⟨.refl _, id⟩
    · obtain ⟨ha, rfl⟩ := cutWrite_eq_ok hw
      exact ⟨sameOutside_drawnWrite _ _ _, fun hm => drawnWrite_wf hm ha⟩
  · rcases (laneStep_raised h).2 with rfl | hw
    · exact ⟨sameOutside_raiseError _ _ _, id⟩
    · exact absurd hw cutWrite_ne_raised

/-- A cut lane leaves every byte outside the ciphertext region. -/
theorem cutLane_outside {i : Nat} {ks : Block} {s t : State} {x : Nat}
    (h : laneStep cutWrite i ks s = .ok t ∨ laneStep cutWrite i ks s = .raised t) (hm : s.mem.wf = true)
    (hx : ¬ (ctRegion s.desc).has x) : readByte t.mem x = readByte s.mem x := by
  rcases h with h | h
  · rcases laneStep_cases h with ⟨_, rfl⟩ | ⟨hi, _, hw⟩
    · rfl
    · obtain ⟨ha, rfl⟩ := cutWrite_eq_ok hw
      refine drawnWrite_outside hm ha ?_
      have he := blockLen_end (len := s.desc.ptLen.toNat) hi
      simp only [AddrRange.has, ctRegion, length_laneBytes] at hx ⊢
      omega
  · rcases (laneStep_raised h).2 with rfl | hw
    · rfl
    · exact absurd hw cutWrite_ne_raised

/-- KEYSTREAM up to the cut leaves every byte outside the ciphertext region. -/
theorem cutKeystream_outside {lane : Fin 2} {s t : State} {x : Nat}
    (h : cutKeystream lane s = .ok t ∨ cutKeystream lane s = .raised t) (hm : s.mem.wf = true)
    (hx : ¬ (ctRegion s.desc).has x) : readByte t.mem x = readByte s.mem x := by
  have second : ∀ {i : Nat} {ks : Block} {u : State},
      laneStep memWrite (laneIndex 0 s) (loadLanes s).dp.ks0 (loadLanes s) = .ok u →
      (laneStep cutWrite i ks u = .ok t ∨ laneStep cutWrite i ks u = .raised t) → readByte t.mem x = readByte s.mem x := by
    intro i ks u h1 h2
    have hu := (sameOutside_lane_ok h1).desc
    exact (cutLane_outside h2 (lane_ok_wf h1 hm) (by rw [hu]; exact hx)).trans
      (lane_outside (s := loadLanes s) h1 hm hx)
  unfold cutKeystream at h
  split_ifs at h
  · exact cutLane_outside (s := loadLanes s) h hm hx
  · rcases h with h | h
    · obtain ⟨u, h1, h2⟩ := bind_eq_ok h
      exact second h1 (.inl h2)
    · rcases bind_eq_raised h with h1 | ⟨u, h1, h2⟩
      · exact lane_raised_outside (s := loadLanes s) h1 hm hx
      · exact second h1 (.inr h2)

/-- What the micro-operation does up to the cut: memory changes, and it stays canonical. -/
theorem cutMicroOperation_cases {lane : Fin 2} {s t : State}
    (h : cutMicroOperation lane s = .ok t ∨ cutMicroOperation lane s = .raised t) :
    SameOutside s t ∧ (s.mem.wf = true → t.mem.wf = true) := by
  have hl := sameOutside_loadLanes s
  unfold cutMicroOperation cutKeystream cutFinalizeTag at h
  split_ifs at h
  · obtain ⟨ho, hw⟩ := cutLane_cases h
    exact ⟨hl.trans ho, hw⟩
  · rcases h with h | h
    · obtain ⟨s1, h1, h2⟩ := bind_eq_ok h
      obtain ⟨ho, hw⟩ := cutLane_cases (.inl h2)
      exact ⟨(hl.trans (sameOutside_lane_ok h1)).trans ho, fun hm => hw (lane_ok_wf h1 hm)⟩
    · rcases bind_eq_raised h with h1 | ⟨s1, h1, h2⟩
      · exact ⟨hl.trans (sameOutside_lane_raised h1), fun hm => lane_raised_wf h1 hm⟩
      · obtain ⟨ho, hw⟩ := cutLane_cases (.inr h2)
        exact ⟨(hl.trans (sameOutside_lane_ok h1)).trans ho, fun hm => hw (lane_ok_wf h1 hm)⟩
  · rcases h with h | h
    · obtain ⟨ha, rfl⟩ := cutWrite_eq_ok h
      exact ⟨⟨rfl, rfl, rfl, rfl, rfl, rfl, rfl, rfl, rfl⟩, fun hm => drawnWrite_wf hm ha⟩
    · exact absurd h cutWrite_ne_raised
  · rcases h with h | h <;> cases h
    exact ⟨.refl _, id⟩

/-- A reset inside a memory write: the memory it leaves, and the reset. -/
theorem resetInWrite_cases {lane : Fin 2} {s t : State} (h : resetInWrite lane s = .next t) :
    ∃ v, SameOutside s v ∧ (s.mem.wf = true → v.mem.wf = true) ∧ t = resetCore v := by
  unfold resetInWrite resetAfter at h
  split at h <;> cases h
  · next v hv => exact ⟨v, (cutMicroOperation_cases (.inl hv)).1, (cutMicroOperation_cases (.inl hv)).2, rfl⟩
  · next v hv => exact ⟨v, (cutMicroOperation_cases (.inr hv)).1, (cutMicroOperation_cases (.inr hv)).2, rfl⟩

end Sys2Proof.Machine
end

