-- ==== Sys2Proof/Laws/Foresight.lean ====
section
/-! SUPPORT. The laws of another agent's read: what it changes, which byte it returns, and that what it foresees of the
call is what the core then does. -/

namespace Sys2Proof.Machine

@[simp] theorem takeTurn_run (i : Instr) (s : State) : takeTurn (.run i s) = exec i s := rfl
@[simp] theorem takeTurn_settled (outcome : Result) : takeTurn (.settled outcome) = outcome := rfl

/-- Another agent's read changes its own latch and the free values taken, and nothing else. -/
theorem foreignLoad_eq (addr : Word) (s : State) :
    foreignLoad addr s = { s with
      hostByte := (foreignLoad addr s).hostByte
      draws := (foreignLoad addr s).draws } := rfl

/-- Outside the output regions, and outside a call, another agent's read returns the byte of memory. -/
theorem foreignLoad_ordinary {addr : Word} {s : State}
    (h : s.busy = false ∨ ¬ (ctRegion s.desc).has addr.toNat ∧ ¬ (tagRegion s.desc).has addr.toNat) :
    foreignLoad addr s = { s with hostByte := readByte s.mem addr.toNat } := by
  have hn : ¬ (s.busy && inOutputRegion addr.toNat s) = true := by
    rw [Bool.and_eq_true, inOutputRegion_iff]
    rintro ⟨hb, hx⟩
    rcases h with h | h
    · rw [h] at hb
      cases hb
    · exact hx.elim h.1 h.2
  unfold foreignLoad unansweredLoad loadedByte
  rw [if_neg hn, if_neg hn]

/-- During a call, another agent's read of an output byte is a draw. -/
theorem foreignLoad_output {addr : Word} {s : State} (hb : s.busy = true)
    (h : (ctRegion s.desc).has addr.toNat ∨ (tagRegion s.desc).has addr.toNat) :
    foreignLoad addr s = { s with hostByte := outputByte addr.toNat s, draws := s.draws + 1 } := by
  have hp : (s.busy && inOutputRegion addr.toNat s) = true := by
    rw [Bool.and_eq_true, inOutputRegion_iff]
    exact ⟨hb, h⟩
  unfold foreignLoad unansweredLoad loadedByte
  rw [if_pos hp, if_pos hp]

/-- Without a buffer hazard, a read of an output byte returns the old value, the one memory holds, or the one the rest of the
call writes (70_reset_and_hazards.md R236). -/
theorem outputByte_cases {addr : Nat} {s : State} (h : s.hazard = false) :
    outputByte addr s = readByte s.callMem addr ∨ outputByte addr s = readByte s.mem addr
      ∨ laterWrite addr (stepsToEnd s) { s with draws := s.draws + 1 } = some (outputByte addr s) := by
  unfold outputByte
  rw [if_neg (by rw [h]; exact Bool.false_ne_true)]
  split
  · cases hw : laterWrite addr (stepsToEnd s) { s with draws := s.draws + 1 } with
    | none => exact .inr (.inl rfl)
    | some b => exact .inr (.inr rfl)
  · exact .inl rfl

/-! ## No step of the core depends on what another agent's read returned -/

/-- The state with another last byte read. -/
def State.heard (s : State) (b : Byte) : State := { s with hostByte := b }

/-- An outcome with another last byte read. -/
def heardNext (b : Byte) : Result → Result
  | .next t => .next (t.heard b)
  | .fault why => .fault why
  | .refused why => .refused why

/-- An answer with another last byte read: `g` says how the value changes. -/
def Access.heard {α : Type} (x : Access α) (g : α → α) (b : Byte) : Access α :=
  match x with
  | .ok value => .ok (g value)
  | .raised t => .raised (t.heard b)
  | .fault why => .fault why
  | .refused why => .refused why

theorem bind_heard {α β : Type} {x : Access α} {g : α → α} {h : β → β} {b : Byte} {k k' : α → Access β}
    (hk : ∀ a, k' (g a) = (k a).heard h b) : (x.heard g b).bind k' = (x.bind k).heard h b := by
  cases x with
  | ok a => exact hk a
  | raised _ => rfl
  | fault _ => rfl
  | refused _ => rfl

theorem finish_heard {α : Type} {x : Access α} {g : α → α} {b : Byte} {k k' : α → State}
    (hk : ∀ a, k' (g a) = (k a).heard b) : (x.heard g b).finish k' = heardNext b (x.finish k) := by
  cases x with
  | ok a => exact congrArg _ (hk a)
  | raised _ => rfl
  | fault _ => rfl
  | refused _ => rfl

theorem guardAccess_heard {α : Type} {x : Access α} {g : α → α} (addr n : Nat) (s : State) (b : Byte) :
    guardAccess addr n (s.heard b) (x.heard g b) = (guardAccess addr n s x).heard g b := by
  unfold guardAccess
  rw [show (s.heard b).platform = s.platform from rfl]
  split
  · rfl
  · split <;> rfl

theorem memRead_heard (addr n : Nat) (s : State) (b : Byte) :
    memRead addr n (s.heard b) = (memRead addr n s).heard id b := by
  refine Eq.trans ?_ (guardAccess_heard addr n s b)
  rw [memRead, show (s.heard b).platform = s.platform from rfl]
  cases memAccessible s.platform addr n .read <;> rfl

theorem memWrite_heard (b : Byte) (addr : Nat) (bytes : List Byte) (s : State) :
    memWrite addr bytes (s.heard b) = (memWrite addr bytes s).heard (·.heard b) b := by
  refine Eq.trans ?_ (guardAccess_heard addr bytes.length s b)
  rw [memWrite, show (s.heard b).platform = s.platform from rfl]
  cases memAccessible s.platform addr bytes.length .write <;> rfl

theorem cutWrite_heard (b : Byte) (addr : Nat) (bytes : List Byte) (s : State) :
    cutWrite addr bytes (s.heard b) = (cutWrite addr bytes s).heard (·.heard b) b :=
  guardAccess_heard (x := .ok (drawnWrite addr bytes s)) (g := (·.heard b)) addr bytes.length s b

theorem laneStep_heard {w : Nat → List Byte → State → Access State} {b : Byte}
    (hw : ∀ addr bytes s, w addr bytes (s.heard b) = (w addr bytes s).heard (·.heard b) b) (i : Nat) (ks : Block) (s : State) :
    laneStep w i ks (s.heard b) = (laneStep w i ks s).heard (·.heard b) b := by
  unfold laneStep
  by_cases hi : i < s.desc.ptBlocks
  · rw [if_pos hi, if_pos (show i < (s.heard b).desc.ptBlocks from hi)]
    exact (congrArg (Access.bind · _) (memRead_heard _ _ s b)).trans (bind_heard fun p => hw _ _ s)
  · rw [if_neg hi, if_neg (show ¬ i < (s.heard b).desc.ptBlocks from hi)]
    rfl

theorem ghashInput_heard (g : Nat) (s : State) (b : Byte) : ghashInput g (s.heard b) = (ghashInput g s).heard id b := by
  unfold ghashInput
  simp only [memRead_heard, show (s.heard b).desc = s.desc from rfl, show (s.heard b).dp = s.dp from rfl]
  split_ifs
  · exact bind_heard fun _ => rfl
  · exact bind_heard fun _ => rfl
  · rfl

theorem writeRegister_heard (reg : HostReg) (value : Word) (s : State) (b : Byte) :
    writeRegister reg value (s.heard b) = (writeRegister reg value s).heard b := by
  have cmd : commandWrite value (s.heard b) = (commandWrite value s).heard b := by
    unfold commandWrite startCommand clearCommand reservedCommand
    simp only [show (s.heard b).busy = s.busy from rfl]
    split_ifs <;> rfl
  have desc : ∀ r, writeDescriptor r value (s.heard b) = (writeDescriptor r value s).heard b := by
    intro r
    unfold writeDescriptor
    simp only [show (s.heard b).busy = s.busy from rfl]
    split_ifs <;> rfl
  cases reg
  case cmd => exact cmd
  case status => rfl
  case errCode => rfl
  case errAddr => rfl
  case irqEn => rfl
  all_goals exact desc _

/-- What another agent last read has no part in what an instruction does. -/
theorem exec_heard (i : Instr) (s : State) (b : Byte) : exec i (s.heard b) = heardNext b (exec i s) := by
  cases i with
  | regRead reg => cases reg <;> rfl
  | regWrite reg value => exact congrArg Host.Outcome.next (writeRegister_heard reg value s b)
  | nop => rfl
  | start => exact congrArg Host.Outcome.next (writeRegister_heard .cmd 1 s b)
  | clear => exact congrArg Host.Outcome.next (writeRegister_heard .cmd 2 s b)
  | cmdReserved _ => exact congrArg Host.Outcome.next (writeRegister_heard .cmd 3 s b)
  | validate =>
    simp only [exec, execValidate, show (s.heard b).platform = s.platform from rfl, show (s.heard b).desc = s.desc from rfl]
    split <;> rfl
  | load =>
    simp only [exec, execLoad, show (s.heard b).desc = s.desc from rfl, show (s.heard b).platform = s.platform from rfl,
      memRead_heard]
    refine Eq.trans (congrArg (Access.finish · _) (bind_heard (h := id) fun _ => ?_)) (finish_heard fun _ => rfl)
    exact bind_heard fun _ => rfl
  | deriveSubkey => rfl
  | buildJ0 => rfl
  | keystreamPair =>
    refine (congrArg (Access.finish · _) ?_).trans (finish_heard (g := (·.heard b)) fun _ => rfl)
    refine (congrArg (Access.bind · _) (laneStep_heard (memWrite_heard b) _ _ (loadLanes s))).trans (bind_heard fun u => ?_)
    exact laneStep_heard (memWrite_heard b) _ _ u
  | buildGhash => rfl
  | accumulate =>
    exact (congrArg (Access.finish · _) (ghashInput_heard _ s b)).trans (finish_heard (g := id) fun _ => rfl)
  | computeMask => rfl
  | finalizeTag =>
    exact (congrArg (Access.finish · _) (memWrite_heard b _ _ (formTag s))).trans (finish_heard fun _ => rfl)

theorem resetInWrite_heard (lane : Fin 2) (s : State) (b : Byte) :
    resetInWrite lane (s.heard b) = heardNext b (resetInWrite lane s) := by
  have after : ∀ x : Access State, resetAfter (x.heard (·.heard b) b) = heardNext b (resetAfter x) := by
    intro x
    cases x <;> rfl
  have cut : cutMicroOperation lane (s.heard b) = (cutMicroOperation lane s).heard (·.heard b) b := by
    unfold cutMicroOperation cutKeystream
    simp only [show (s.heard b).stage = s.stage from rfl]
    split_ifs
    · exact laneStep_heard (cutWrite_heard b) _ _ (loadLanes s)
    · refine (congrArg (Access.bind · _) (laneStep_heard (memWrite_heard b) _ _ (loadLanes s))).trans (bind_heard fun u => ?_)
      exact laneStep_heard (cutWrite_heard b) _ _ u
    · exact cutWrite_heard b _ _ (formTag s)
    · rfl
  rw [resetInWrite, cut, after, resetInWrite]

/-- The step that is foreseen is the step there is, but for what another agent's read returns. -/
theorem step_heard (s : State) (b : Byte) : ∃ c, step (s.heard b) = heardNext c (blindStep s) := by
  have core : ∀ u : State, takeTurn (coreTurn (u.heard b)) = heardNext b (takeTurn (coreTurn u)) := by
    intro u
    unfold coreTurn turnOf
    simp only [show (u.heard b).stage = u.stage from rfl]
    split
    · exact exec_heard _ u b
    · next why _ => cases why <;> rfl
  unfold blindStep step fetch
  simp only [show (s.heard b).events = s.events from rfl]
  cases s.events with
  | nil => exact ⟨b, core s⟩
  | cons e rest =>
    cases e with
    | core => exact ⟨b, core { s with events := rest }⟩
    | transact tx =>
      refine ⟨b, ?_⟩
      simp only [eventTurn, turnOf]
      split
      · exact exec_heard _ { s with events := rest } b
      · next why _ => cases why <;> rfl
    | poll reg mask value => exact ⟨b, by cases reg <;> rfl⟩
    | reset => exact ⟨b, rfl⟩
    | resetInWrite lane => exact ⟨b, resetInWrite_heard lane { s with events := rest } b⟩
    | store addr value =>
      refine ⟨b, congrArg Host.Outcome.next ?_⟩
      simp only [foreignStore]
      split_ifs <;> first | rfl | contradiction
    | load addr => exact ⟨_, rfl⟩

/-- What is foreseen comes true: in the run there is, the core writes that byte in a later move of the same call. -/
theorem laterWrite_run {addr n : Nat} {s : State} {value : Byte} (b : Byte) (h : laterWrite addr n s = some value) :
    ∃ (m : Nat) (u v : State), runSteps m (s.heard b) = .next u
      ∧ (∀ k ≤ m, ∃ w, runSteps k (s.heard b) = .next w ∧ w.busy = true)
      ∧ nextMoveWrites addr u = true ∧ step u = .next v ∧ value = readByte v.mem addr := by
  induction n generalizing s b with
  | zero => cases h
  | succ n ih =>
    unfold laterWrite at h
    split at h
    · next hb =>
      split at h
      · next t ht =>
        obtain ⟨c, hc⟩ := step_heard s b
        rw [ht] at hc
        split at h
        · next hw =>
          cases h
          refine ⟨0, s.heard b, t.heard c, rfl, fun k hk => ⟨s.heard b, ?_, hb⟩, hw, hc, rfl⟩
          rw [Nat.le_zero.mp hk]
          rfl
        · obtain ⟨m, u, v, hr, hbusy, hu⟩ := ih c h
          have first : ∀ k, runSteps (k + 1) (s.heard b) = runSteps k (t.heard c) := by
            intro k
            rw [runSteps, hc]
            rfl
          refine ⟨m + 1, u, v, (first m).trans hr, fun k hk => ?_, hu⟩
          cases k with
          | zero => exact ⟨s.heard b, rfl, hb⟩
          | succ k => rw [first]; exact hbusy k (by omega)
      · cases h
      · cases h
    · cases h

/-- Nothing the core writes is left out: its first write of that byte in the rest of the call is the one foreseen. -/
theorem laterWrite_of_run {addr n m : Nat} {s u v : State} (b : Byte) (hn : m < n)
    (run : ∀ k ≤ m, ∃ w, runSteps k (s.heard b) = .next w ∧ w.busy = true ∧ (k < m → nextMoveWrites addr w = false))
    (hu : runSteps m (s.heard b) = .next u) (hw : nextMoveWrites addr u = true) (hv : step u = .next v) :
    laterWrite addr n s = some (readByte v.mem addr) := by
  induction m generalizing n s b with
  | zero =>
    cases hu
    obtain ⟨n, rfl⟩ : ∃ k, n = k + 1 := ⟨n - 1, by omega⟩
    obtain ⟨w, h0, hb, _⟩ := run 0 (Nat.le_refl _)
    cases h0
    obtain ⟨c, hc⟩ := step_heard s b
    rw [hv] at hc
    unfold laterWrite
    rw [if_pos (show s.busy = true from hb)]
    cases ht : blindStep s with
    | next t =>
      rw [ht] at hc
      cases hc
      exact if_pos hw
    | fault _ => rw [ht] at hc; cases hc
    | refused _ => rw [ht] at hc; cases hc
  | succ m ih =>
    obtain ⟨n, rfl⟩ : ∃ k, n = k + 1 := ⟨n - 1, by omega⟩
    obtain ⟨w, h0, hb, hf⟩ := run 0 (Nat.zero_le _)
    cases h0
    obtain ⟨c, hc⟩ := step_heard s b
    unfold laterWrite
    rw [if_pos (show s.busy = true from hb)]
    cases ht : blindStep s with
    | next t =>
      have first : ∀ k, runSteps (k + 1) (s.heard b) = runSteps k (t.heard c) := by
        intro k
        rw [runSteps, hc, ht]
        rfl
      rw [first] at hu
      refine Eq.trans (if_neg ?_) (ih (s := t) c (by omega) (fun k hk => ?_) hu)
      · rw [show nextMoveWrites addr s = false from hf (Nat.succ_pos _)]
        exact Bool.false_ne_true
      · obtain ⟨w, h1, h2, h3⟩ := run (k + 1) (by omega)
        exact ⟨w, (first k).symm.trans h1, h2, fun hlt => h3 (by omega)⟩
    | fault _ => rw [runSteps, hc, ht] at hu; cases hu
    | refused _ => rw [runSteps, hc, ht] at hu; cases hu

/-! ## A move of the core leaves every byte that `nextMoveWrites` does not name -/

/-- A write, cut or not, leaves every byte it does not store to. -/
theorem write_spares {w : Nat → List Byte → State → Access State} (hw : w = memWrite ∨ w = cutWrite) {addr x : Nat}
    {bytes : List Byte} {s t : State} (h : w addr bytes s = .ok t ∨ w addr bytes s = .raised t) (hm : s.mem.wf = true)
    (hx : ¬(addr ≤ x ∧ x < addr + bytes.length)) : readByte t.mem x = readByte s.mem x := by
  rcases hw with rfl | rfl <;> rcases h with h | h
  · obtain ⟨ha, rfl⟩ := memWrite_eq_ok h
    exact completeWrite_outside hm ha hx
  · obtain ⟨ha, rfl⟩ := memWrite_eq_raised h
    exact drawnWrite_outside hm ha hx
  · obtain ⟨ha, rfl⟩ := cutWrite_eq_ok h
    exact drawnWrite_outside hm ha hx
  · exact absurd h cutWrite_ne_raised

/-- The byte of block i that the address names. -/
def BlockByte (i x : Nat) (s : State) : Prop :=
  i < s.desc.ptBlocks ∧ s.desc.ctAddr.toNat + 16 * i ≤ x ∧ x < s.desc.ctAddr.toNat + 16 * i + blockLen s.desc.ptLen.toNat i

/-- A lane leaves every byte but those of its block, and those too where its read does not complete. -/
theorem laneStep_spares {w : Nat → List Byte → State → Access State} (hw : w = memWrite ∨ w = cutWrite) {i x : Nat}
    {ks : Block} {s t : State} (h : laneStep w i ks s = .ok t ∨ laneStep w i ks s = .raised t) (hm : s.mem.wf = true)
    (hx : ¬(BlockByte i x s ∧ ptReadCompletes i s = true)) : readByte t.mem x = readByte s.mem x := by
  unfold laneStep at h
  split at h
  · next hi =>
    cases hr : memRead (s.desc.ptAddr.toNat + 16 * i) (blockLen s.desc.ptLen.toNat i) s with
    | ok p =>
      have hc : ptReadCompletes i s = true := memRead_completes hr
      simp only [hr, bind_ok] at h
      refine write_spares hw h hm fun hin => hx ⟨⟨hi, hin.1, ?_⟩, hc⟩
      have := hin.2
      obtain ⟨_, rfl⟩ := memRead_eq_ok hr
      simpa [Nat.min_eq_left (blockLen_le _ _)] using this
    | raised u =>
      simp only [hr, bind_raised] at h
      rcases h with h | h <;> cases h
      obtain ⟨_, rfl⟩ := memRead_eq_raised hr
      rfl
    | fault _ => rw [hr] at h; rcases h with h | h <;> cases h
    | refused _ => rw [hr] at h; rcases h with h | h <;> cases h
  · rcases h with h | h <;> cases h
    rfl

/-- Where lane 0 ends well, its two transactions complete. -/
theorem lane_ok_completes {i : Nat} {ks : Block} {s t : State} (hi : i < s.desc.ptBlocks)
    (h : laneStep memWrite i ks s = .ok t) : ptReadCompletes i s = true ∧ ctWriteCompletes i s = true := by
  unfold laneStep at h
  rw [if_pos hi] at h
  obtain ⟨p, hp, hw⟩ := bind_eq_ok h
  refine ⟨memRead_completes hp, ?_⟩
  have := memWrite_completes hw
  obtain ⟨_, rfl⟩ := memRead_eq_ok hp
  simpa [ctWriteCompletes, Nat.min_eq_left (blockLen_le _ _)] using this

/-- Such a byte is one the pair writes. -/
theorem microOperationWrites_of_block {lane l x : Nat} {s : State} (hs : s.stage = .keystream) (hl : l ≤ lane) (h2 : l < 2)
    (hb : BlockByte (laneIndex l s) x s) (hr : ptReadCompletes (laneIndex l s) s = true)
    (h0 : l = 1 → ptReadCompletes (laneIndex 0 s) s = true ∧ ctWriteCompletes (laneIndex 0 s) s = true) :
    microOperationWrites lane x s = true := by
  obtain ⟨hi, hlo, hhi⟩ := hb
  have he := blockLen_end (len := s.desc.ptLen.toNat) hi
  have hk : (x - s.desc.ctAddr.toNat) / 16 = laneIndex l s := by
    have := blockLen_le s.desc.ptLen.toNat (laneIndex l s)
    omega
  have hmeet : (ctRegion s.desc).meets x 1 = true := by
    rw [meets_one]
    exact ⟨by simp only [ctRegion]; omega, by simp only [ctRegion]; omega⟩
  have hd : laneIndex l s / 2 = s.dp.pIdx.toNat ∧ laneIndex l s % 2 = l := by unfold laneIndex; omega
  simp only [microOperationWrites, hs, hmeet, pairWrites, hk, hi, hd, hl, hr]
  have : l = 0 ∨ l = 1 := by omega
  rcases this with rfl | rfl
  · simp
  · obtain ⟨ha, hb⟩ := h0 rfl
    have : laneIndex 1 s - 1 = laneIndex 0 s := rfl
    simp [this, ha, hb]

/-- The second lane leaves a byte that the pair does not write. -/
theorem secondLane_spares {w : Nat → List Byte → State → Access State} (hw : w = memWrite ∨ w = cutWrite) {x : Nat}
    {ks ks' : Block} {s u t : State} (hs : s.stage = .keystream) (hm : s.mem.wf = true)
    (h1 : laneStep memWrite (laneIndex 0 s) ks (loadLanes s) = .ok u)
    (h2 : laneStep w (laneIndex 1 s) ks' u = .ok t ∨ laneStep w (laneIndex 1 s) ks' u = .raised t)
    (hx : microOperationWrites 1 x s = false) : readByte t.mem x = readByte s.mem x := by
  have hu := sameOutside_lane_ok h1
  have first : readByte u.mem x = readByte s.mem x := laneStep_spares (s := loadLanes s) (.inl rfl) (.inl h1) hm
    fun h => Bool.false_ne_true (hx.symm.trans (microOperationWrites_of_block hs (Nat.zero_le _) (by omega) h.1 h.2 (by omega)))
  refine (laneStep_spares hw h2 (lane_ok_wf h1 hm) fun h => ?_).trans first
  have hd : u.desc = s.desc := hu.desc
  have hp : u.platform = s.platform := hu.platform
  obtain ⟨⟨hi, hb⟩, hr⟩ := h
  unfold ptReadCompletes at hr
  rw [hd] at hi hb hr
  rw [hp] at hr
  have h0 : laneIndex 0 s < s.desc.ptBlocks := by unfold laneIndex at hi ⊢; omega
  exact Bool.false_ne_true (hx.symm.trans (microOperationWrites_of_block hs (Nat.le_refl _) (by omega) ⟨hi, hb⟩ hr
    fun _ => lane_ok_completes (s := loadLanes s) h0 h1))

/-- FINALIZE_TAG is foreseen to write the tag region. -/
theorem tag_spared {lane x : Nat} {s : State} (hs : s.stage = .finalizeTag) (hx : microOperationWrites lane x s = false) :
    ¬ (s.desc.tagAddr.toNat ≤ x ∧ x < s.desc.tagAddr.toNat + 16) := by
  intro h
  have hh := (meets_one (tagRegion s.desc) x).mpr h
  simp [microOperationWrites, hs, hh] at hx

/-- A micro-operation leaves every byte it is not foreseen to write. -/
theorem microOperation_spares {i : Instr} {x : Nat} {s t : State} (hs : microOperation s.stage = some i) (hm : s.mem.wf = true)
    (hx : microOperationWrites 1 x s = false) (h : exec i s = .next t) : readByte t.mem x = readByte s.mem x := by
  cases hst : s.stage <;> rw [hst] at hs <;> cases hs
  case validate => rcases execValidate_cases h with ⟨_, rfl⟩ | ⟨_, _, rfl⟩ <;> rfl
  case load => rcases execLoad_cases h with rfl | ⟨_, rfl⟩ <;> rfl
  case deriveSubkey => cases h; rfl
  case buildJ0 => cases h; rfl
  case keystream =>
    have first : ∀ {t : State}, (laneStep memWrite (laneIndex 0 s) (loadLanes s).dp.ks0 (loadLanes s) = .ok t
        ∨ laneStep memWrite (laneIndex 0 s) (loadLanes s).dp.ks0 (loadLanes s) = .raised t) →
        readByte t.mem x = readByte s.mem x := fun h => laneStep_spares (s := loadLanes s) (.inl rfl) h hm
      fun h => Bool.false_ne_true (hx.symm.trans (microOperationWrites_of_block hst (Nat.zero_le _) (by omega) h.1 h.2 (by omega)))
    rcases execKeystreamPair_cases h with ⟨s1, s2, h1, h2, rfl⟩ | h1 | ⟨s1, h1, h2⟩
    · exact secondLane_spares (t := s2) (.inl rfl) hst hm h1 (.inl h2) hx
    · exact first (.inr h1)
    · exact secondLane_spares (.inl rfl) hst hm h1 (.inr h2) hx
  case buildGhash => cases h; rfl
  case accumulate => rcases execAccumulate_cases h with ⟨_, _, rfl⟩ | ⟨_, rfl⟩ <;> rfl
  case computeMask => cases h; rfl
  case finalizeTag =>
    have hn := tag_spared hst hx
    rcases finish_eq_next h with ⟨b, hb, rfl⟩ | hr
    · exact write_spares (s := formTag s) (t := b) (.inl rfl) (.inl hb) hm (by rw [length_bytesOfBlock]; exact hn)
    · exact write_spares (s := formTag s) (.inl rfl) (.inr hr) hm (by rw [length_bytesOfBlock]; exact hn)

/-- What the reset input cuts short leaves every byte it is not foreseen to write. -/
theorem resetInWrite_spares {lane : Fin 2} {x : Nat} {s t : State} (hm : s.mem.wf = true)
    (hx : microOperationWrites lane.val x s = false) (h : resetInWrite lane s = .next t) :
    readByte t.mem x = readByte s.mem x := by
  have cut : ∀ {u : State}, (cutMicroOperation lane s = .ok u ∨ cutMicroOperation lane s = .raised u) →
      readByte u.mem x = readByte s.mem x := by
    intro u h
    unfold cutMicroOperation at h
    split_ifs at h with hk ht
    · have first : ∀ {w : Nat → List Byte → State → Access State} {v : State}, (w = memWrite ∨ w = cutWrite) →
          (laneStep w (laneIndex 0 s) (loadLanes s).dp.ks0 (loadLanes s) = .ok v
            ∨ laneStep w (laneIndex 0 s) (loadLanes s).dp.ks0 (loadLanes s) = .raised v) →
          readByte v.mem x = readByte s.mem x := fun hw h => laneStep_spares (s := loadLanes s) hw h hm fun h =>
        Bool.false_ne_true (hx.symm.trans (microOperationWrites_of_block hk (Nat.zero_le _) (by omega) h.1 h.2 (by omega)))
      unfold cutKeystream at h
      split_ifs at h with hl
      · exact first (.inr rfl) h
      · have hx1 : microOperationWrites 1 x s = false := by rw [← hx, show lane.val = 1 by omega]
        rcases h with h | h
        · obtain ⟨v, h1, h2⟩ := bind_eq_ok h
          exact secondLane_spares (.inr rfl) hk hm h1 (.inl h2) hx1
        · rcases bind_eq_raised h with h1 | ⟨v, h1, h2⟩
          · exact first (.inl rfl) (.inr h1)
          · exact secondLane_spares (.inr rfl) hk hm h1 (.inr h2) hx1
    · exact write_spares (s := formTag s) (.inr rfl) h hm (by rw [length_bytesOfBlock]; exact tag_spared ht hx)
    · rcases h with h | h <;> cases h
      rfl
  unfold resetInWrite resetAfter at h
  split at h <;> cases h
  · next v hv => exact cut (u := v) (.inl hv)
  · next v hv => exact cut (u := v) (.inr hv)

end Sys2Proof.Machine
end

