-- ==== Sys2Proof/Laws/PerInstr.lean ====
section
/-! SUPPORT. The per-instruction family `TableMask`: the word of every well-formed instruction matches its own row of the
opcode table (spec/opcode_table.json): word AND mask = match. -/

namespace Sys2Proof.Laws.TableMask

/-- One row of the opcode table: its format by width, its mask and its match. -/
structure Row where
  width : Nat
  mask : Nat
  pattern : Nat
  deriving DecidableEq, Repr

/-- A word in one of the three formats matches a row of its own format. -/
def Row.matches (r : Row) : Encoded → Prop
  | .hosttx w => r.width = 72 ∧ w &&& BitVec.ofNat 72 r.mask = BitVec.ofNat 72 r.pattern
  | .cmdw w => r.width = 64 ∧ w &&& BitVec.ofNat 64 r.mask = BitVec.ofNat 64 r.pattern
  | .ustate w => r.width = 4 ∧ w &&& BitVec.ofNat 4 r.mask = BitVec.ofNat 4 r.pattern

/-- The row of each constructor, as the opcode table writes it. -/
def row : Instr → Row
  | .regRead _ => ⟨72, 0x870000000000000000, 0x000000000000000000⟩
  | .regWrite _ _ => ⟨72, 0x870000000000000000, 0x800000000000000000⟩
  | .nop => ⟨64, 0xFFFFFFFFFFFFFFFF, 0x0000000000000000⟩
  | .start => ⟨64, 0xFFFFFFFFFFFFFFFF, 0x0000000000000001⟩
  | .clear => ⟨64, 0xFFFFFFFFFFFFFFFF, 0x0000000000000002⟩
  | .cmdReserved _ => ⟨64, 0x0000000000000000, 0x0000000000000000⟩
  | .validate => ⟨4, 0xF, 0x1⟩
  | .load => ⟨4, 0xF, 0x2⟩
  | .deriveSubkey => ⟨4, 0xF, 0x3⟩
  | .buildJ0 => ⟨4, 0xF, 0x4⟩
  | .keystreamPair => ⟨4, 0xF, 0x5⟩
  | .buildGhash => ⟨4, 0xF, 0x6⟩
  | .accumulate => ⟨4, 0xF, 0x7⟩
  | .computeMask => ⟨4, 0xF, 0x8⟩
  | .finalizeTag => ⟨4, 0xF, 0x9⟩

/-- The encoding of a well-formed instruction matches its own row. -/
def Statement (i : Instr) : Prop := i.wf = true → (row i).matches (encode i)

/-- A transaction word under the HOSTTX mask: WE and OFFSET[2:0] alone (30_encoding.md R80, R82). -/
theorem hosttx_masked (we : Bool) (reg : HostReg) (value : Word) :
    hosttxWord we reg.offset value &&& BitVec.ofNat 72 0x870000000000000000
      = BitVec.ofNat 72 (if we then 0x800000000000000000 else 0) := by
  have hv : hosttxWord we reg.offset value &&& BitVec.ofNat 72 0x870000000000000000
      = hosttxWord we reg.offset 0 &&& BitVec.ofNat 72 0x870000000000000000 := by
    apply BitVec.eq_of_getLsbD_eq
    intro k hk
    simp only [BitVec.getLsbD_and, getLsbD_hosttxWord]
    by_cases h : k < 64
    · have hm : ∀ j < 64, (BitVec.ofNat 72 0x870000000000000000).getLsbD j = false := by decide
      rw [hm k h, Bool.and_false, Bool.and_false]
    · simp [h]
  rw [hv]
  cases we <;> cases reg <;> decide

theorem regRead (reg : HostReg) : Statement (.regRead reg) := fun _ => ⟨rfl, hosttx_masked false reg 0⟩
theorem regWrite (reg : HostReg) (value : Word) : Statement (.regWrite reg value) :=
  fun _ => ⟨rfl, hosttx_masked true reg value⟩
theorem nop : Statement .nop := fun _ => ⟨rfl, rfl⟩
theorem start : Statement .start := fun _ => ⟨rfl, rfl⟩
theorem clear : Statement .clear := fun _ => ⟨rfl, rfl⟩
theorem cmdReserved (value : Word) : Statement (.cmdReserved value) :=
  fun _ => ⟨rfl, show value &&& 0#64 = 0#64 from BitVec.and_zero⟩
theorem validate : Statement .validate := fun _ => ⟨rfl, rfl⟩
theorem load : Statement .load := fun _ => ⟨rfl, rfl⟩
theorem deriveSubkey : Statement .deriveSubkey := fun _ => ⟨rfl, rfl⟩
theorem buildJ0 : Statement .buildJ0 := fun _ => ⟨rfl, rfl⟩
theorem keystreamPair : Statement .keystreamPair := fun _ => ⟨rfl, rfl⟩
theorem buildGhash : Statement .buildGhash := fun _ => ⟨rfl, rfl⟩
theorem accumulate : Statement .accumulate := fun _ => ⟨rfl, rfl⟩
theorem computeMask : Statement .computeMask := fun _ => ⟨rfl, rfl⟩
theorem finalizeTag : Statement .finalizeTag := fun _ => ⟨rfl, rfl⟩

end Sys2Proof.Laws.TableMask
end

