-- ==== Sys2Proof/Laws/Step.lean ====
section
/-! SUPPORT. Everything a host operation and one step can do, said once, and runs of several steps. -/

namespace Sys2Proof.Machine

/-- A transaction decodes to an operation of the host. -/
theorem decodeHosttx_host {tx : BitVec 72} {i : Instr} (h : decodeHosttx tx = .instr i) : hostTx i ≠ none := by
  have hc : ∀ w, hostTx (decodeCmd w) ≠ none := by
    intro w
    unfold decodeCmd
    split_ifs <;> simp [hostTx, encode]
  unfold decodeHosttx at h
  simp only at h
  split_ifs at h <;> cases h
  · simp [hostTx, encode]
  · exact hc _
  · simp [hostTx, encode]

/-- The sequencer's micro-operation is no operation of the host. -/
theorem hostTx_microOperation {st : Stage} {i : Instr} (h : microOperation st = some i) : hostTx i = none := by
  cases st <;> simp [microOperation] at h <;> subst h <;> rfl

/-- STATE has a micro-operation exactly during a call. -/
theorem stageBusy_iff_microOperation (st : Stage) : stageBusy st = true ↔ ∃ i, microOperation st = some i := by
  cases st <;> simp [stageBusy, microOperation]

/-- The sequencer's turn: the micro-operation of STATE, or a wait. -/
theorem coreTurn_cases (s : State) :
    (∃ i, microOperation s.stage = some i ∧ coreTurn s = .run i s) ∨ (s.busy = false ∧ coreTurn s = .settled (.next s)) := by
  unfold coreTurn State.busy
  cases s.stage <;> simp [microOperation, decodeUstate, Stage.code, Stage.ofCode, turnOf, rejectedWord, stageBusy]

/-- Everything a host operation can do: a latch, IRQ_EN or CMD_DROPPED changes; outside a call also a descriptor, or a command
takes its effect. -/
theorem hostOperation_cases {i : Instr} {s t : State} (hi : hostTx i ≠ none) (h : exec i s = .next t) :
    t = { s with rdata := t.rdata, irqEn := t.irqEn, cmdDropped := t.cmdDropped }
      ∨ (s.busy = false ∧ t = { s with desc := t.desc })
      ∨ (s.busy = false ∧ (t = beginCall s ∨ t = returnToIdle s ∨ t = raiseError .badCommand 0 s)) := by
  have cmd : ∀ w, t = commandWrite w s →
      t = { s with rdata := t.rdata, irqEn := t.irqEn, cmdDropped := t.cmdDropped }
        ∨ (s.busy = false ∧ t = { s with desc := t.desc })
        ∨ (s.busy = false ∧ (t = beginCall s ∨ t = returnToIdle s ∨ t = raiseError .badCommand 0 s)) := by
    intro w e
    subst e
    unfold commandWrite startCommand clearCommand reservedCommand
    split_ifs with h1 h2 hb h3 hb hb
    · exact .inl rfl
    · exact .inl rfl
    · exact .inr (.inr ⟨by simpa using hb, .inl rfl⟩)
    · exact .inl rfl
    · exact .inr (.inr ⟨by simpa using hb, .inr (.inl rfl)⟩)
    · exact .inl rfl
    · exact .inr (.inr ⟨by simpa using hb, .inr (.inr rfl)⟩)
  cases i with
  | regRead r => cases h; exact .inl rfl
  | regWrite r v =>
    cases h
    cases r
    case cmd => exact cmd v rfl
    case irqEn => exact .inl rfl
    case status => exact .inl rfl
    case errCode => exact .inl rfl
    case errAddr => exact .inl rfl
    all_goals
      simp only [writeRegister, writeDescriptor]
      split_ifs with hb
      · exact .inl rfl
      · exact .inr (.inl ⟨by simpa using hb, rfl⟩)
  | nop => cases h; exact .inl rfl
  | start => cases h; exact cmd 1 rfl
  | clear => cases h; exact cmd 2 rfl
  | cmdReserved w => cases h; exact cmd 3 rfl
  | _ => exact absurd rfl hi

/-- How one step comes to the next state `t`: `u` is the state it starts in, with the pending moves that come after it. -/
inductive Moves (u t : State) : Prop where
  /-- The micro-operation STATE selects runs. -/
  | micro (i : Instr) (selected : microOperation u.stage = some i) (ran : exec i u = .next t)
  /-- The sequencer waits outside a call. -/
  | waits (outside : u.busy = false) (same : t = u)
  /-- An operation of the host runs. -/
  | host (i : Instr) (issued : hostTx i ≠ none) (ran : exec i u = .next t)
  /-- A misaligned transaction. -/
  | misaligned (read : Bool) (same : t = if read then { u with rdata := 0 } else u)
  /-- The reset input between two steps. -/
  | reset (done : t = resetCore u)
  /-- The reset input inside a memory write. -/
  | resetInWrite (lane : Fin 2) (done : Machine.resetInWrite lane u = .next t)
  /-- Another agent writes a byte. -/
  | store (addr : Word) (value : Byte) (done : t = foreignStore addr value u)
  /-- Another agent reads a byte. -/
  | load (addr : Word) (done : t = foreignLoad addr u)

/-- Everything a step can do. -/
theorem step_cases {s t : State} (h : step s = .next t) : ∃ ev, Moves { s with events := ev } t := by
  have core : ∀ u, takeTurn (coreTurn u) = .next t → Moves u t := by
    intro u h
    rcases coreTurn_cases u with ⟨i, hi, hc⟩ | ⟨hb, hc⟩
    · rw [hc] at h
      exact .micro i hi h
    · rw [hc] at h
      cases h
      exact .waits hb rfl
  unfold step fetch at h
  cases he : s.events with
  | nil =>
    rw [he] at h
    refine ⟨[], core _ ?_⟩
    rw [← he]
    exact h
  | cons e rest =>
    rw [he] at h
    simp only at h
    cases e with
    | core => exact ⟨rest, core _ h⟩
    | transact tx =>
      refine ⟨rest, ?_⟩
      simp only [eventTurn] at h
      unfold turnOf at h
      split at h
      · next i hi => exact .host i (decodeHosttx_host hi) h
      · next why hw =>
        cases h
        unfold decodeHosttx at hw
        simp only at hw
        split_ifs at hw <;> cases hw
        · exact .misaligned false rfl
        · exact .misaligned true rfl
    | poll reg mask value =>
      exact ⟨_, .host (.regRead reg) (by simp [hostTx, encode]) h⟩
    | reset => cases h; exact ⟨rest, .reset rfl⟩
    | resetInWrite lane => exact ⟨rest, .resetInWrite lane h⟩
    | store addr value => cases h; exact ⟨rest, .store addr value rfl⟩
    | load addr => cases h; exact ⟨rest, .load addr rfl⟩

/-- During a call with nothing else pending, a step is the micro-operation of STATE. -/
theorem step_microOperation {s : State} {i : Instr} (he : s.events = []) (hs : microOperation s.stage = some i) :
    step s = exec i s := by
  unfold step fetch
  rw [he]
  rcases coreTurn_cases s with ⟨j, hj, hc⟩ | ⟨hb, hc⟩
  · rw [hs] at hj
    cases hj
    simp only [hc, takeTurn_run]
  · have h := (stageBusy_iff_microOperation s.stage).mpr ⟨i, hs⟩
    rw [State.busy, h] at hb
    cases hb

/-- Runs compose. -/
theorem runSteps_add (m n : Nat) {s u : State} (h : runSteps m s = .next u) : runSteps (m + n) s = runSteps n u := by
  induction m generalizing s with
  | zero =>
    cases h
    rw [Nat.zero_add]
  | succ m ih =>
    rw [Nat.succ_add]
    simp only [runSteps] at h ⊢
    cases hs : step s with
    | next t => rw [hs] at h; exact ih h
    | fault _ => rw [hs] at h; cases h
    | refused _ => rw [hs] at h; cases h

end Sys2Proof.Machine
end

