-- ==== Sys2Proof/Tests/Slice0.lean ====
section
/-! SUPPORT. Tests: values written out in 95_test_vectors.md, and for every statement with hypotheses a state and operands that
meet them. -/

namespace Sys2Proof.Tests

open Sys2Proof.Machine

/-! ## Helpers -/

/-- The descriptors of the VALIDATE baseline (95_test_vectors.md section 2.3). -/
def baseline : Descriptors where
  keyAddr := 0x1000
  nonceAddr := 0x1010
  nonceLen := 12
  aadAddr := 0x1020
  aadLen := 20
  ptAddr := 0x1100
  ptLen := 60
  ctAddr := 0x2000
  ctCap := 60
  tagAddr := 0x2100
  tagCap := 16

/-- The reset state with these descriptors, in this stage. -/
def at' (stage : Stage) (d : Descriptors) : State := { State.reset with stage := stage, desc := d }

/-- A state of a call of the baseline. -/
def during (stage : Stage) : State := at' stage baseline

/-- A platform that denies transactions of one kind that meet a range. -/
def denying (kind : AccessKind) (base size : Nat) : Platform := { Platform.example16 with busErrors := [.region kind ⟨base, size⟩] }

/-- What a function of the next state gives; nothing at a stop. -/
def ofNext {α : Type} (f : State → α) : Result → Option α
  | .next s => some (f s)
  | .fault _ => none
  | .refused _ => none

/-- The bytes of a hexadecimal number, most significant first, as memory from an address on. -/
def place (addr n value : Nat) (m : Memory) : Memory :=
  writeBytes m addr ((List.range n).map fun k => BitVec.ofNat 8 (value / 256 ^ (n - 1 - k)))

/-- K3 and N3 where the baseline has them (95_test_vectors.md). -/
def keyAndNonce : Memory :=
  place 0x1010 12 0xcafebabefacedbaddecaf888 (place 0x1000 16 0xfeffe9928665731c6d6a8f9467308308 [])

/-! ## Well-formedness -/

theorem test_wf_regWrite_cmd_refused : (Instr.regWrite .cmd 1).wf = false := by decide
theorem test_wf_regWrite_status : (Instr.regWrite .status 0).wf = true := by decide
theorem test_wf_cmdReserved_nop_refused : (Instr.cmdReserved 0).wf = false := by decide
theorem test_wf_cmdReserved_start_refused : (Instr.cmdReserved 1).wf = false := by decide
theorem test_wf_cmdReserved_clear_refused : (Instr.cmdReserved 2).wf = false := by decide
theorem test_wf_cmdReserved_three : (Instr.cmdReserved 3).wf = true := by decide

/-! ## Decoding (95_test_vectors.md section 2.1; 30_encoding.md R80, R83, R85) -/

theorem test_decode_E1 : decode (.hosttx 0x080000000000000000#72) = .instr (.regRead .status) := by decide
theorem test_decode_E2 : decode (.hosttx 0x000000000000000000#72) = .instr (.regRead .cmd) := by decide
theorem test_decode_E3 : decode (.hosttx 0x090000000000000000#72) = .rejected .misalignedRead := by decide
theorem test_decode_E5 : decode (.hosttx 0x800000000000000000#72) = .instr .nop := by decide
theorem test_decode_E6 : decode (.hosttx 0x800000000000000001#72) = .instr .start := by decide
theorem test_decode_E7 : decode (.hosttx 0x800000000000000002#72) = .instr .clear := by decide
theorem test_decode_E8 : decode (.hosttx 0x800000000000000003#72) = .instr (.cmdReserved 3) := by decide
theorem test_decode_E11 : decode (.hosttx 0x88000000000000ffff#72) = .instr (.regWrite .status 0xFFFF) := by decide
theorem test_decode_E12 : decode (.hosttx 0xa000000000000000ff#72) = .instr (.regWrite .irqEn 0xFF) := by decide
theorem test_decode_E14 : decode (.hosttx 0xff0000000000000000#72) = .rejected .misalignedWrite := by decide

/-- Bit by bit: WE = 1, OFFSET = 1011000 (0x58), WDATA = 60 (30_encoding.md R80). -/
theorem test_decode_bits_ptLen :
    decode (.hosttx (1#1 ++ 0b1011000#7 ++ 0b111100#64)) = .instr (.regWrite .ptLen 60) := by decide

/-- Bit by bit: OP = 00000010, bits 63:8 zero (30_encoding.md R83). -/
theorem test_decode_bits_clear : decode (.cmdw (0#56 ++ 0b00000010#8)) = .instr .clear := by decide

theorem test_decode_stages :
    decode (.ustate 0b0001#4) = .instr .validate ∧ decode (.ustate 0b0010#4) = .instr .load
      ∧ decode (.ustate 0b0011#4) = .instr .deriveSubkey ∧ decode (.ustate 0b0100#4) = .instr .buildJ0
      ∧ decode (.ustate 0b0101#4) = .instr .keystreamPair ∧ decode (.ustate 0b0110#4) = .instr .buildGhash
      ∧ decode (.ustate 0b0111#4) = .instr .accumulate ∧ decode (.ustate 0b1000#4) = .instr .computeMask
      ∧ decode (.ustate 0b1001#4) = .instr .finalizeTag := by decide

theorem test_decode_no_stage :
    decode (.ustate 0) = .rejected .noMicroOperation ∧ decode (.ustate 12) = .rejected .unusedStateCode := by decide

/-- The words of the table reach the decoder in their own format. -/
theorem test_table_words :
    decodeTableWord 72 0x080000000000000000 = some (.regRead .status) ∧ decodeTableWord 64 1 = some .start
      ∧ decodeTableWord 8 9 = some .finalizeTag ∧ decodeTableWord 4 9 = some .finalizeTag
      ∧ decodeTableWord 8 15 = none := by decide

/-- A placed word is what the next step runs. -/
theorem test_withFetchWord_start : ofNext (·.stage) (step (State.reset.withFetchWord 64 1)) = some .validate := by decide
theorem test_withFetchWord_validate :
    ofNext (fun s => (s.stage, s.errCode)) (step (State.reset.withFetchWord 8 1)) = some (.error, .invalidNonceLength) := by
  decide

/-! ## The host interface (95_test_vectors.md section 2.2) -/

theorem test_H1 : ofNext (·.rdata) (exec (.regRead .status) State.reset) = some 0 := by decide
theorem test_H2 : ofNext (fun s => (readRegister .status s, s.errCode)) (exec .start State.reset) = some (0x0101, .none) := by
  decide
theorem test_H3 : ofNext (fun s => (readRegister .status s, readRegister .errCode s, s.errAddr))
    (exec (.cmdReserved 3) State.reset) = some (0x0B04, 7, 0) := by decide
theorem test_H4 : ofNext (fun s => (readRegister .status s, readRegister .errCode s))
    (exec .nop { State.reset with stage := .error, errCode := .invalidNonceLength }) = some (0x0B04, 1) := by decide
theorem test_H5 : ofNext (fun s => (readRegister .status s, readRegister .errCode s))
    (exec (.cmdReserved 0x100) { State.reset with stage := .error, errCode := .invalidNonceLength })
      = some (0x0B04, 7) := by decide
theorem test_H6 : ofNext (fun s => (readRegister .status s, readRegister .errCode s))
    (exec .clear { State.reset with stage := .error, errCode := .invalidNonceLength }) = some (0, 0) := by decide
theorem test_H7 : ofNext (readRegister .status) (exec .clear (during .keystream)) = some 0x0509 := by decide
theorem test_H9 : ofNext (readRegister .ptLen) (exec (.regWrite .ptLen 16) (at' .keystream { baseline with ptLen := 64 }))
    = some 0x40 := by decide
theorem test_H12 : ofNext (readRegister .status) (exec .start { State.reset with stage := .done, cmdDropped := true })
    = some 0x0101 := by decide
theorem test_H14 : ofNext State.irq (exec (.regWrite .irqEn 1) { State.reset with stage := .done }) = some true := by decide
theorem test_H16 : ofNext (·.rdata) (step { State.reset with
    rdata := 5, events := [.transact 0x0c0000000000000000#72] }) = some 0 := by decide

/-! ## Setup (95_test_vectors.md section 2.3) -/

/-- The result of one VALIDATE step. -/
def validated (d : Descriptors) : Option (Stage × ErrorCode) :=
  ofNext (fun s => (s.stage, s.errCode)) (exec .validate (at' .validate d))

theorem test_V1_V14_V15_V19 :
    validated baseline = some (.load, .none)
      ∧ validated { baseline with tagAddr := 0x2000 + 60 } = some (.load, .none)
      ∧ validated { baseline with ctAddr := 0x1100 } = some (.load, .none)
      ∧ validated { baseline with ptAddr := 0x1020 } = some (.load, .none) := by decide

theorem test_V3_V5_V11_V13_V21 :
    validated { baseline with nonceLen := 16, ptLen := 0xFFFFFFFF1 } = some (.error, .invalidNonceLength)
      ∧ validated { baseline with
          ptLen := 0xFFFFFFFF1, ctCap := 0xFFFFFFFF0, ptAddr := 0x10000000000, ctAddr := 0x20000000000 }
        = some (.error, .lengthOverflow)
      ∧ validated { baseline with tagAddr := 0xFFFFFFFFFFFFFFF1 } = some (.error, .addressRange)
      ∧ validated { baseline with tagAddr := 0x2000 + 59 } = some (.error, .bufferOverlap)
      ∧ validated { baseline with ctCap := 59, tagAddr := 0x2000 } = some (.error, .bufferTooSmall) := by decide

theorem test_S1 : ofNext (fun s => (s.dp.keyr, s.dp.noncer, s.stage)) (exec .load { during .load with mem := keyAndNonce })
    = some ([0xfe, 0xff, 0xe9, 0x92, 0x86, 0x65, 0x73, 0x1c, 0x6d, 0x6a, 0x8f, 0x94, 0x67, 0x30, 0x83, 0x08],
      0xcafebabefacedbaddecaf888, .deriveSubkey) := by decide

theorem test_S2 : ofNext (fun s => (s.stage, readRegister .errCode s, s.errAddr))
    (exec .load { at' .load { baseline with keyAddr := 0x9000 } with platform := denying .read 0x9000 1 })
      = some (.error, 6, 0x9000) := by decide

theorem test_S5 : ofNext (fun s => (s.dp.j0, s.dp.pIdx, s.stage))
    (exec .buildJ0 { during .buildJ0 with dp := { State.reset.dp with noncer := 0xcafebabefacedbaddecaf888 } })
      = some (0xcafebabefacedbaddecaf88800000000, 0, .keystream) := by decide

theorem test_S6 : ofNext (fun s => (s.dp.j0, s.stage)) (exec .buildJ0 (at' .buildJ0 { baseline with ptLen := 0 }))
    = some (0, .buildGhash) := by decide

/-- DERIVE_SUBKEY encrypts the zero block under KEYR (S-3, for any cipher). -/
theorem test_S3 : ofNext (fun s => (s.dp.h, s.stage)) (exec .deriveSubkey (during .deriveSubkey))
    = some (Config.encrypt (List.replicate 16 0) 0#128, .buildJ0) := rfl

/-! ## Keystream (95_test_vectors.md section 2.5) -/

theorem test_K1_K4_K5 :
    counterBlock 0xcafebabefacedbaddecaf88800000000#128 1 = 0xcafebabefacedbaddecaf88800000001#128
      ∧ counterBlock 0xcafebabefacedbaddecaf88800000000#128 0xFFFFFFFF = 0xcafebabefacedbaddecaf888ffffffff#128
      ∧ counterBlock 0xcafebabefacedbaddecaf88800000000#128 0x100000000 = 0xcafebabefacedbaddecaf88800000000#128 := by
  decide

/-- KS-4: one pair ends the phase. -/
theorem test_KS4 : ofNext (fun s => (s.stage, s.dp.pIdx)) (exec .keystreamPair (at' .keystream { baseline with ptLen := 16 }))
    = some (.buildGhash, 1) := rfl

/-- KS-7: a bus error on the lane-1 write of pair 0. -/
theorem test_KS7 : ofNext (fun s => (s.stage, s.errCode, s.errAddr))
    (exec .keystreamPair { during .keystream with platform := denying .write 0x2010 16 })
      = some (.error, .busError, 0x2010) := rfl

/-! ## GHASH (95_test_vectors.md section 2.4) -/

theorem test_T3_T5 :
    lengthTrailer 20 60 = 0x00000000000000a000000000000001e0#128
      ∧ lengthTrailer (2 ^ 61 - 1) 0xFFFFFFFF0 = 0xfffffffffffffff80000007fffffff80#128 := by decide

theorem test_T4 : ofNext (fun s => (s.dp.tr, s.stage)) (exec .buildGhash (at' .buildGhash { baseline with aadLen := 1, ptLen := 1 }))
    = some (0x00000000000000080000000000000008, .accumulate) := by decide

/-- The short AAD block of G-5, zero-padded inside the core. -/
theorem test_G5_short_block : blockOfBytes [0x10, 0x11, 0x12, 0x13] = 0x10111213000000000000000000000000#128 := by decide

/-- X-9: AAD block 1 is not readable. -/
theorem test_X9 : ofNext (fun s => (s.stage, s.errCode, s.errAddr))
    (exec .accumulate { during .accumulate with
      platform := denying .read 0x1030 4, dp := { State.reset.dp with gIdx := 1 } })
      = some (.error, .busError, 0x1030) := by decide

/-- The trailer is the last block: NA = 2, NC = 4. -/
theorem test_accumulate_trailer : ofNext (fun s => (s.stage, s.dp.gIdx))
    (exec .accumulate { during .accumulate with dp := { State.reset.dp with gIdx := 6 } }) = some (.computeMask, 7) := by
  decide

/-! ## Tag (95_test_vectors.md sections 2.6, 2.7) -/

theorem test_computeMask : ofNext (fun s => (s.dp.m, s.stage)) (exec .computeMask (during .computeMask))
    = some (Config.encrypt (List.replicate 16 0) 0#128, .finalizeTag) := rfl

/-- The tag is Y XOR M, most significant byte first. -/
theorem test_finalizeTag : ofNext (fun s => (readBytes s.mem 0x2100 16, s.stage))
    (exec .finalizeTag { during .finalizeTag with
      dp := { State.reset.dp with y := 0x000102030405060708090a0b0c0d0e0f, m := 0xf0000000000000000000000000000000 } })
      = some ([0xf0, 1, 2, 3, 4, 5, 6, 7, 8, 9, 10, 11, 12, 13, 14, 15], .done) := by decide

/-- X-6: the tag write gets an error response. -/
theorem test_X6 : ofNext (fun s => (readRegister .status s, readRegister .errCode s, s.errAddr))
    (exec .finalizeTag { at' .finalizeTag { baseline with tagAddr := 0x9000 } with platform := denying .write 0x9000 16 })
      = some (0x0B04, 6, 0x9000) := rfl

/-! ## Witnesses: for each statement with hypotheses, a case that meets them, every clause at a boundary -/

/-- Instructions run in these witnesses. -/
def runs (i : Instr) (s : State) : Prop := ∃ t, exec i s = .next t

theorem test_witness_DecodeOfEncode : (Instr.regWrite .tagCap 16).wf = true ∧ (Instr.cmdReserved 3).wf = true := by decide

theorem test_witness_TransactionOfHostOperationDecodes :
    (Instr.cmdReserved 3).wf = true ∧ hostTx (.cmdReserved 3) = some 0x800000000000000003#72
      ∧ hostTx (.regRead .tagCap) = some 0x780000000000000000#72 := by decide

theorem test_witness_CommandsAreComparedWhole : 2 < (3 : Word).toNat ∧ 2 < (0xFFFFFFFFFFFFFFFF : Word).toNat := by decide

theorem test_witness_StateCodesSelectMicroOperations :
    ((0 : BitVec 4) = 0 ∨ (0 : BitVec 4) = 10 ∨ (0 : BitVec 4) = 11)
      ∧ ((11 : BitVec 4) = 0 ∨ (11 : BitVec 4) = 10 ∨ (11 : BitVec 4) = 11)
      ∧ 12 ≤ (12 : BitVec 4).toNat ∧ 12 ≤ (15 : BitVec 4).toNat := by decide

theorem test_witness_DecodedInstructionsAreWellFormed :
    decode (.cmdw 3) = .instr (.cmdReserved 3) ∧ decode (.hosttx 0x880000000000000000#72) = .instr (.regWrite .status 0) := by
  decide

theorem test_witness_StepRunsTheDecodedInstruction :
    ({ State.reset with events := [.transact 0x800000000000000001#72] } : State).events = .transact 0x800000000000000001#72 :: []
      ∧ decode (.hosttx 0x800000000000000001#72) = .instr .start
      ∧ ({ during .load with events := [.core] } : State).events = .core :: []
      ∧ (during .load).events = [] ∧ decode (.ustate (during .load).stage.code) = .instr .load
      ∧ ({ during .load with events := [.poll .status 1 0] } : State).events = .poll .status 1 0 :: [] := by decide

theorem test_witness_MisalignedTransactions :
    ({ State.reset with events := [.transact 0x090000000000000000#72] } : State).events = .transact 0x090000000000000000#72 :: []
      ∧ (0x090000000000000000#72).toNat / 2 ^ 64 % 8 ≠ 0 ∧ (0xff0000000000000000#72).toNat / 2 ^ 64 % 8 ≠ 0 := by decide

theorem test_witness_CoreWaitsOutsideACall :
    (during .idle).busy = false ∧ (during .done).busy = false ∧ (during .error).busy = false ∧ (during .idle).events = [] := by
  decide

theorem test_witness_DescriptorWrite :
    5 ≤ HostReg.keyAddr.index.toNat ∧ 5 ≤ HostReg.tagCap.index.toNat ∧ (during .done).busy = false
      ∧ (during .validate).busy = true ∧ (during .finalizeTag).busy = true := by decide

/-- Also of ClearReturnsToIdle, ReservedCommandRaisesBadCommand, CommandsAreDroppedDuringACall and IrqLevel. -/
theorem test_witness_StartBeginsACall :
    (during .idle).busy = false ∧ (during .error).busy = false ∧ (during .validate).busy = true
      ∧ (during .finalizeTag).busy = true ∧ 2 < (3 : Word).toNat ∧ (0xFFFFFFFFFFFFFFFE : Word).getLsbD 0 = false := by decide

theorem test_witness_HostOperationsCannotDisturbACall :
    hostTx (.regWrite .ptLen 16) = some 0xd80000000000000010#72 ∧ (during .keystream).busy = true := by decide

/-- Also of WritersOfTheErrorRegisters and IrqLevel. -/
theorem test_witness_WritersOfCmdDropped :
    (Instr.cmdReserved 3).wf = true ∧ runs (.cmdReserved 3) (during .load)
      ∧ ({ during .load with events := [.reset] } : State).events = .reset :: []
      ∧ (∃ t, step { during .load with events := [.store 0x1000 1] } = .next t)
      ∧ ∃ t, step { during .load with events := [.load 0x2000] } = .next t :=
  ⟨by decide, ⟨_, rfl⟩, by decide, ⟨_, rfl⟩, ⟨_, rfl⟩⟩

theorem test_witness_valid : validationError Platform.example16 baseline = none := by decide

theorem test_witness_ValidateReportsTheLowestCause :
    (∀ code, ¬ errorCause Platform.example16 baseline code)
      ∧ errorCause Platform.example16 { baseline with nonceLen := 11 } .invalidNonceLength
      ∧ errorCause Platform.example16 { baseline with ptLen := 0xFFFFFFFF1 } .lengthOverflow
      ∧ errorCause Platform.example16 { baseline with tagCap := 15 } .bufferTooSmall
      ∧ errorCause Platform.example16 { baseline with tagAddr := 0xFFFFFFFFFFFFFFF1 } .addressRange
      ∧ errorCause Platform.example16 { baseline with tagAddr := 0x203B } .bufferOverlap
      ∧ ∀ lower : ErrorCode, lower.code.toNat < ErrorCode.bufferOverlap.code.toNat →
        ¬ errorCause Platform.example16 { baseline with tagAddr := 0x203B } lower := by
  have range : ∀ d, (callRegions Platform.example16 d).any AddrRange.wraps = false →
      ¬ errorCause Platform.example16 d .addressRange := fun d h => by
    rw [← anyWraps_iff, h]
    exact Bool.false_ne_true
  refine ⟨?_, by show ¬ _ = _; decide, .inl (by decide), .inr (by decide), (anyWraps_iff _ _).mp (by decide),
    (badOverlap_iff _ _).mp (by decide), ?_⟩
  · intro code
    cases code with
    | none => exact id
    | invalidNonceLength => exact fun h => h (by decide)
    | lengthOverflow => rintro (h | h) <;> exact absurd h (by decide)
    | bufferTooSmall => rintro (h | h) <;> exact absurd h (by decide)
    | addressRange => exact range _ (by decide)
    | bufferOverlap => rw [← badOverlap_iff]; decide
    | busError => exact id
    | badCommand => exact id
  · intro lower hl
    cases lower with
    | none => exact id
    | invalidNonceLength => exact fun h => h (by decide)
    | lengthOverflow => rintro (h | h) <;> exact absurd h (by decide)
    | bufferTooSmall => rintro (h | h) <;> exact absurd h (by decide)
    | addressRange => exact range _ (by decide)
    | bufferOverlap => exact absurd hl (by decide)
    | busError => exact absurd hl (by decide)
    | badCommand => exact absurd hl (by decide)

theorem test_witness_LoadCopiesKeyAndNonce :
    transactionOk Platform.example16 0x1000 16 .read = true ∧ transactionOk Platform.example16 0x1010 12 .read = true
      ∧ transactionOk (denying .read 0x1010 1) 0x1000 16 .read = true
      ∧ transactionDenied (denying .read 0x1010 1) 0x1010 12 .read = true
      ∧ transactionDenied (denying .read 0x100F 1) 0x1000 16 .read = true
      ∧ transactionOk Platform.example16 0xFFFFFFFFFFFFFFF0 16 .read = true := by decide

/-- Pair 0 and pair 1 (the short last block) of the baseline. -/
theorem test_witness_KeystreamPairEncryptsItsBlocks :
    (during .keystream).mem.wf = true ∧ (during .keystream).hazard = false
      ∧ validationError Platform.example16 baseline = none ∧ 1 < baseline.pairs
      ∧ (∀ l < 2, 2 * 0 + l < baseline.ptBlocks →
        transactionOk Platform.example16 (0x1100 + 16 * (2 * 0 + l)) (blockLen 60 (2 * 0 + l)) .read = true
          ∧ transactionOk Platform.example16 (0x2000 + 16 * (2 * 0 + l)) (blockLen 60 (2 * 0 + l)) .write = true)
      ∧ ∀ l < 2, 2 * 1 + l < baseline.ptBlocks →
        transactionOk Platform.example16 (0x1100 + 16 * (2 * 1 + l)) (blockLen 60 (2 * 1 + l)) .read = true
          ∧ transactionOk Platform.example16 (0x2000 + 16 * (2 * 1 + l)) (blockLen 60 (2 * 1 + l)) .write = true := by
  decide

theorem test_witness_KeystreamBusErrorInLaneZero :
    2 * 1 < baseline.ptBlocks
      ∧ transactionDenied (denying .read 0x112F 1) (0x1100 + 16 * (2 * 1)) (blockLen 60 (2 * 1)) .read = true
      ∧ transactionDenied (denying .read 0x1120 1) (0x1100 + 16 * (2 * 1)) (blockLen 60 (2 * 1)) .read = true
      ∧ transactionOk (denying .write 0x2020 1) (0x1100 + 16 * (2 * 1)) (blockLen 60 (2 * 1)) .read = true
      ∧ transactionDenied (denying .write 0x2020 1) (0x2000 + 16 * (2 * 1)) (blockLen 60 (2 * 1)) .write = true := by
  decide

/-- The short last block: 12 bytes in lane 1 of pair 1. -/
theorem test_witness_KeystreamBusErrorInLaneOne :
    validationError (denying .write 0x203B 1) baseline = none ∧ 2 * 1 + 1 < baseline.ptBlocks
      ∧ transactionOk (denying .write 0x203B 1) 0x1120 16 .read = true
      ∧ transactionOk (denying .write 0x203B 1) 0x2020 16 .write = true
      ∧ transactionOk (denying .write 0x203B 1) (0x1120 + 16) (blockLen 60 (2 * 1 + 1)) .read = true
      ∧ transactionDenied (denying .write 0x203B 1) (0x2020 + 16) (blockLen 60 (2 * 1 + 1)) .write = true
      ∧ transactionOk (denying .read 0x1130 1) 0x1120 16 .read = true
      ∧ transactionOk (denying .read 0x1130 1) 0x2020 16 .write = true
      ∧ transactionDenied (denying .read 0x1130 1) (0x1120 + 16) (blockLen 60 (2 * 1 + 1)) .read = true := by decide

/-- The longest call of the baseline's platform: PT_LEN = PT_MAX (V-4). -/
theorem test_witness_AppliedCountersDoNotWrap :
    validationError Platform.example16 { baseline with
        ptLen := 0xFFFFFFFF0, ctCap := 0xFFFFFFFF0, ptAddr := 0x10000000000, ctAddr := 0x20000000000 } = none
      ∧ 2 ^ 32 - 2 < ({ baseline with ptLen := 0xFFFFFFFF0 } : Descriptors).ptBlocks := by decide

/-- A cipher that is a permutation per key, and a valid call of two blocks or more. -/
theorem test_witness_MaskIsNeverKeystream :
    CipherContract (fun _ b => b) ∧ validationError Platform.example16 baseline = none ∧ 0 < baseline.ptBlocks
      ∧ 1 < baseline.ptBlocks ∧ (0 : Nat) ≠ 1 :=
  ⟨fun _ => Function.bijective_id, by decide, by decide, by decide, by decide⟩

theorem test_witness_BuildGhashSetsUpTheFold :
    8 * (0x1FFFFFFFFFFFFFFF : Word).toNat < 2 ^ 64 ∧ 8 * (0xFFFFFFFF0 : Word).toNat < 2 ^ 64 := by decide

/-- The last AAD block (4 bytes), the last ciphertext block (12 bytes) and the trailer of the baseline. -/
theorem test_witness_AccumulateFoldsTheNextBlock :
    1 < baseline.aadBlocks ∧ transactionOk Platform.example16 (0x1020 + 16 * 1) (min 16 (20 - 16 * 1)) .read = true
      ∧ transactionDenied (denying .read 0x1033 1) (0x1020 + 16 * 1) (min 16 (20 - 16 * 1)) .read = true
      ∧ baseline.aadBlocks ≤ 5 ∧ 5 < baseline.aadBlocks + baseline.ptBlocks
      ∧ transactionOk Platform.example16 (0x2000 + 16 * (5 - baseline.aadBlocks)) (min 16 (60 - 16 * 3)) .read = true
      ∧ transactionDenied (denying .read 0x203B 1) (0x2000 + 16 * (5 - baseline.aadBlocks)) (min 16 (60 - 16 * 3)) .read = true
      ∧ 6 = baseline.aadBlocks + baseline.ptBlocks := by decide

/-- A multiplier that keeps the laws of R160: bitwise AND. Also of ZeroLengthTag. -/
theorem test_witness_GhashOfNothingIsZero : MulContract (fun a b => a &&& b) where
  zero_mul := fun h => BitVec.zero_and
  comm := fun y h => BitVec.and_comm y h
  xor_mul := fun a b h => by
    apply BitVec.eq_of_getLsbD_eq
    intro i _
    simp only [BitVec.getLsbD_and, BitVec.getLsbD_xor, Bool.and_xor_distrib_right]

/-- The tag region at the very end of the address space (V-10). -/
theorem test_witness_FinalizeTagStoresTheTag :
    (during .finalizeTag).mem.wf = true ∧ (during .finalizeTag).hazard = false
      ∧ transactionOk Platform.example16 0xFFFFFFFFFFFFFFF0 16 .write = true
      ∧ transactionDenied (denying .write 0x210F 1) 0x2100 16 .write = true := by decide

/-- Also of MicroOperationFrame, CallIgnoresTheHostSide and BufferContentsDoNotSteerTheCore. -/
theorem test_witness_OnlyKeystreamAndFinalizeTagWriteMemory :
    Instr.accumulate ≠ .keystreamPair ∧ Instr.accumulate ≠ .finalizeTag ∧ hostTx .accumulate = none
      ∧ runs .accumulate (during .accumulate) ∧ hostTx .keystreamPair = none ∧ runs .keystreamPair (during .keystream) :=
  ⟨by decide, by decide, rfl, ⟨_, rfl⟩, rfl, ⟨_, rfl⟩⟩

theorem test_witness_StoringInstructionsStayInTheirRegion :
    (during .keystream).mem.wf = true ∧ runs .keystreamPair (during .keystream) ∧ ¬ (ctRegion baseline).has 0x203C
      ∧ ¬ (ctRegion baseline).has 0x1FFF ∧ runs .finalizeTag (during .finalizeTag) ∧ ¬ (tagRegion baseline).has 0x20FF
      ∧ ¬ (tagRegion baseline).has 0x2110 :=
  ⟨rfl, ⟨_, rfl⟩, by decide, by decide, ⟨_, rfl⟩, by decide, by decide⟩

theorem test_witness_MemReadAfterMemWrite :
    (during .keystream).mem.wf = true ∧ (during .keystream).hazard = false
      ∧ transactionOk Platform.example16 0xFFFFFFFFFFFFFFFF [(1 : Byte)].length .write = true
      ∧ transactionOk Platform.example16 0xFFFFFFFFFFFFFFFF [(1 : Byte)].length .read = true := by decide

theorem test_witness_ResetEvent : ({ during .keystream with events := [.reset] } : State).events = .reset :: [] := rfl

/-- The tag write, both lanes of the short last pair (lane 1's write denied), and a stage that writes nothing. -/
theorem test_witness_ResetInsideAWrite :
    let s : State := { during .finalizeTag with events := [.resetInWrite 0] }
    let p := denying .write 0x2030 1
    s.mem.wf = true ∧ s.hazard = false ∧ s.stage = .finalizeTag ∧ s.events = .resetInWrite 0 :: []
      ∧ transactionOk s.platform s.desc.tagAddr.toNat 16 .write = true ∧ ¬ (tagRegion s.desc).has 0x2110
      ∧ (during .keystream).stage = .keystream ∧ validationError p baseline = none
      ∧ 2 * 1 + (0 : Fin 2).val < baseline.ptBlocks ∧ 2 * 1 + (1 : Fin 2).val < baseline.ptBlocks
      ∧ transactionOk p (0x1100 + 16 * 2) 16 .read = true ∧ transactionOk p (0x2000 + 16 * 2) 16 .write = true
      ∧ transactionOk p (0x1100 + 16 * 3) (blockLen 60 3) .read = true
      ∧ transactionDenied p (0x2000 + 16 * 3) (blockLen 60 3) .write = true
      ∧ (during .load).stage ≠ .keystream ∧ (during .load).stage ≠ .finalizeTag := by decide

/-- A cut by reset does step. -/
theorem test_witness_ResetInsideAWrite_steps :
    ∃ t, step { during .keystream with events := [.resetInWrite 1] } = .next t := ⟨_, rfl⟩

/-- The first byte of the key region in the first and the last stage of a call, and the ends of the output regions. -/
theorem test_witness_BufferHazardSparesTheCore :
    (during .validate).mem.wf = true ∧ (during .validate).busy = true ∧ (during .finalizeTag).busy = true
      ∧ (∃ r ∈ callRegions Platform.example16 baseline, r.has (0x1000 : Word).toNat)
      ∧ ¬ (ctRegion baseline).has 0x1000 ∧ ¬ (tagRegion baseline).has 0x1000
      ∧ ¬ (ctRegion baseline).has 0x203C ∧ ¬ (tagRegion baseline).has 0x20FF
      ∧ (ctRegion baseline).has (0x203B : Word).toNat ∧ (tagRegion baseline).has (0x210F : Word).toNat
      ∧ (during .validate).hazard = false :=
  ⟨by decide, by decide, by decide, ⟨keyRegion Platform.example16 baseline, by simp [callRegions], by decide⟩, by decide,
    by decide, by decide, by decide, by decide, by decide, by decide⟩

/-- A call that VALIDATE will end writes nothing more: a read of its ciphertext region returns the old byte
(70_reset_and_hazards.md R236). -/
theorem test_load_of_failing_call_is_old :
    let s : State := { at' .validate { baseline with nonceLen := 16 } with mem := [(0x2000, 9)], callMem := [(0x2000, 9)] }
    loadedByte 0x2000 s = 9 := by
  intro s
  have none : laterWrite 0x2000 (stepsToEnd s) { s with draws := s.draws + 1 } = none := rfl
  rw [loadedByte, if_pos (by decide), outputByte, if_neg (by decide), none]
  split <;> rfl

/-- A read just before the tag is written may return it, and not where the reset input comes first (70_reset_and_hazards.md R236,
R235). -/
theorem test_laterWrite_is_what_the_call_writes :
    laterWrite 0x2100 2 (during .finalizeTag) = some 0
      ∧ laterWrite 0x2100 2 { during .finalizeTag with events := [.reset] } = none := by decide

/-- Where a denied transaction keeps the core from a write, it writes nothing there (60_exceptions.md R211). -/
theorem test_nextMoveWrites_past_bus_error :
    nextMoveWrites 0x2000 { during .keystream with platform := denying .read 0x1110 1 } = true
      ∧ nextMoveWrites 0x2010 { during .keystream with platform := denying .read 0x1110 1 } = false
      ∧ nextMoveWrites 0x2010 { during .keystream with platform := denying .write 0x2000 1 } = false := by decide

/-- Outside a call, during one just past the tag region, and in an input region of one. -/
theorem test_witness_OrdinaryForeignAccess :
    (during .idle).mem.wf = true ∧ (during .idle).busy = false ∧ (during .load).busy = true
      ∧ (∀ r ∈ callRegions Platform.example16 baseline, ¬ r.has (0x2110 : Word).toNat)
      ∧ (keyRegion Platform.example16 baseline).has (0x1000 : Word).toNat
      ∧ ¬ (ctRegion baseline).has (0x1000 : Word).toNat ∧ ¬ (tagRegion baseline).has (0x1000 : Word).toNat := by decide

/-- A call that ends by reset, and one that VALIDATE ends. Also of PlatformIsFixed and StateMovesAlongTheGraph. -/
theorem test_witness_EndOfCallErasesTheDatapath :
    (during .keystream).busy = true
      ∧ (∃ t, step { during .keystream with events := [.reset] } = .next t ∧ t.busy = false)
      ∧ ∃ t, step (at' .validate { baseline with nonceLen := 16 }) = .next t ∧ t.busy = false :=
  ⟨by decide, ⟨_, rfl, by decide⟩, ⟨_, rfl, by decide⟩⟩

/-- A state of a call that meets the invariant and steps. Also of StepNeverStops and EveryCallEnds. -/
theorem test_witness_StepKeepsTheInvariant :
    (during .validate).Inv ∧ (∃ t, step (during .validate) = .next t) ∧ (during .validate).platform.sideEffects = []
      ∧ (during .validate).events = [] ∧ (during .validate).stage = .validate := by
  refine ⟨⟨rfl, rfl, ?_, fun _ => rfl, ?_, ?_, ?_, ?_, ?_, ?_, ?_, fun _ => rfl, ?_, rfl⟩, ⟨_, rfl⟩, rfl, rfl, rfl⟩ <;> decide

theorem test_witness_CallComputesGcm :
    (during .validate).mem.wf = true ∧ (during .validate).hazard = false ∧ (during .validate).events = []
      ∧ (during .validate).stage = .validate ∧ validationError Platform.example16 baseline = none
      ∧ CallAccessible Platform.example16 baseline :=
  ⟨by decide, by decide, by decide, by decide, by decide,
    ⟨by decide, by decide, by decide, by decide, by decide, by decide, by decide⟩⟩

end Sys2Proof.Tests
end

section
/-! The invariant of the machine over one step: what each way out of a call, each way on inside one, and each move of the
environment keeps of `State.Inv` (10_state.md R36 to R58). -/

namespace Sys2Proof.Machine

/-! ## Outside a call -/

/-- ERR_CODE and ERR_ADDR hold nothing outside ERROR (10_state.md R23, R24). -/
theorem State.Inv.noError {s : State} (h : s.Inv) (hs : s.stage ≠ .error) : s.errCode = .none ∧ s.errAddr = 0 := by
  have hc : s.errCode = .none := by
    by_contra hc
    exact hs (h.errorCode.mpr hc)
  exact ⟨hc, h.errorAddr (by simp [hc])⟩

/-- Outside a call and in VALIDATE the invariant asks for a zeroized datapath, and of the rest only memory, the error
registers and KEY_BYTES. -/
theorem inv_of_notPastValidate {s : State} (hs : stagePastValidate s.stage = false) (hm : s.mem.wf = true)
    (hd : s.dp = Datapath.zero s.platform.keyBytes) (hc : s.stage = .error ↔ s.errCode ≠ .none)
    (ha : s.errCode ≠ .busError → s.errAddr = 0) (hk : 0 < s.platform.keyBytes) (hcm : s.callMem.wf = true) : s.Inv where
  memory := hm
  keyLength := by simp [hd, Datapath.zero]
  validated := by simp [hs]
  zeroized _ := hd
  subkey hst := by revert hs hst; cases s.stage <;> simp [stagePastValidate, stageBusy, stageHasSubkey]
  initialCounter hst := by revert hs hst; cases s.stage <;> simp [stagePastValidate, stageBusy, stageHasJ0, stageHasSubkey]
  pairsLeft hst := by simp [hst, stagePastValidate, stageBusy] at hs
  blocksLeft hst := by simp [hst, stagePastValidate, stageBusy] at hs
  trailer hst := by simp [hst, stagePastValidate, stageBusy] at hs
  mask hst := by simp [hst, stagePastValidate, stageBusy] at hs
  errorCode := hc
  errorAddr := ha
  keyBytes := hk
  callMemory := hcm

/-- Outside a call the datapath is all zeros (10_state.md R49). -/
theorem State.Inv.dp_of_not_busy {s : State} (h : s.Inv) (hb : s.busy = false) :
    s.dp = Datapath.zero s.platform.keyBytes :=
  h.zeroized (.inl (by simp [stagePastValidate, show stageBusy s.stage = false from hb]))

/-- An error entry meets the invariant, whatever the micro-operation has done to memory before it (60_exceptions.md R209). -/
theorem inv_raiseError {s u : State} {code : ErrorCode} {addr : Nat} (h : s.Inv) (ho : SameOutside s u)
    (hm : u.mem.wf = true) (hc : code ≠ .none) (ha : code ≠ .busError → addr = 0) : (raiseError code addr u).Inv :=
  inv_of_notPastValidate rfl hm rfl (by simpa using hc) (fun hb => by simp [ha hb])
    (by simpa [ho.platform] using h.keyBytes) (by simpa [ho.callMem] using h.callMemory)

/-- The reset event meets the invariant, whatever has been done to memory before it (70_reset_and_hazards.md R230, R231). -/
theorem inv_resetCore {s u : State} (h : s.Inv) (ho : SameOutside s u) (hm : u.mem.wf = true) : (resetCore u).Inv :=
  inv_of_notPastValidate rfl hm rfl (by simp) (fun _ => rfl)
    (by simpa [ho.platform] using h.keyBytes) (by simpa [ho.callMem] using h.callMemory)

/-- Entry to DONE meets the invariant (44_tag_finalizer.md R182). -/
theorem inv_enterDone {s u : State} (h : s.Inv) (ho : SameOutside s u) (hm : u.mem.wf = true) (hc : u.errCode = .none)
    (ha : u.errAddr = 0) : (enterDone u).Inv :=
  inv_of_notPastValidate rfl hm rfl (by simp [hc]) (fun _ => ha)
    (by simpa [ho.platform] using h.keyBytes) (by simpa [ho.callMem] using h.callMemory)

/-! ## Moves of the environment -/

/-- The pending moves, the host's latches and bits, the hazard mark and the draws are free, and so is canonical memory. -/
theorem State.Inv.hostSide {s : State} (h : s.Inv) {m : Memory} {ev : List Event} {e c z : Bool} {r : Word} {b : Byte}
    {n : Nat} (hm : m.wf = true) :
    ({ s with mem := m, events := ev, irqEn := e, cmdDropped := c, hazard := z, rdata := r, hostByte := b, draws := n } :
      State).Inv :=
  { h with memory := hm }

/-- A descriptor write outside a call. -/
theorem State.Inv.setDesc {s : State} (h : s.Inv) (hb : s.busy = false) (d : Descriptors) :
    ({ s with desc := d } : State).Inv :=
  inv_of_notPastValidate (by simp [stagePastValidate, show stageBusy s.stage = false from hb]) h.memory
    (h.dp_of_not_busy hb) h.errorCode h.errorAddr h.keyBytes h.callMemory

/-- A host operation keeps the invariant. -/
theorem inv_hostOperation {i : Instr} {s t : State} (h : s.Inv) (hi : hostTx i ≠ none) (hx : exec i s = .next t) :
    t.Inv := by
  rcases hostOperation_cases hi hx with ht | ⟨hb, ht⟩ | ⟨hb, rfl | rfl | rfl⟩
  · rw [ht]
    exact h.hostSide h.memory
  · rw [ht]
    exact h.setDesc hb _
  · exact inv_of_notPastValidate rfl h.memory (h.dp_of_not_busy hb) (by simp) (fun _ => rfl) h.keyBytes h.memory
  · exact inv_of_notPastValidate rfl h.memory (h.dp_of_not_busy hb) (by simp) (fun _ => rfl) h.keyBytes h.callMemory
  · exact inv_raiseError h (.refl s) h.memory (by decide) (fun _ => rfl)

/-! ## The call goes on -/

/-- What the invariant says of the datapath `d` in the stages past LOAD, for the platform and the descriptors of `s`
(10_state.md R36 to R47). -/
structure CallDatapath (s : State) (st : Stage) (d : Datapath) : Prop where
  keyLength : d.keyr.length = s.platform.keyBytes
  subkey : stageHasSubkey st = true → d.h = Config.encrypt d.keyr 0#128
  initialCounter : stageHasJ0 st = true → d.j0 = initialCounterBlock d.noncer
  pairsLeft : st = .keystream → d.pIdx.toNat < s.desc.pairs
  blocksLeft : st = .accumulate → d.gIdx.toNat < s.desc.ghashBlocks
  trailer : st = .accumulate → d.tr = lengthTrailer s.desc.aadLen.toNat s.desc.ptLen.toNat
  mask : st = .finalizeTag → d.m = Config.encrypt d.keyr d.j0

/-- A micro-operation past VALIDATE that goes on past LOAD changes STATE, the datapath, memory and the draws alone: the new
datapath is what its stage asks for. -/
theorem State.Inv.goesOn {s : State} {st : Stage} {d : Datapath} {m : Memory} {n : Nat} (h : s.Inv)
    (hs : stagePastValidate s.stage = true) (ht : stagePastValidate st = true ∧ st ≠ .load) (hm : m.wf = true)
    (hd : CallDatapath s st d) : ({ s with dp := d, stage := st, mem := m, draws := n } : State).Inv := by
  have notError : ∀ {x : Stage}, stagePastValidate x = true → x ≠ .error := by
    rintro x hx rfl
    cases hx
  have hc := (h.noError (notError hs)).1
  exact { h with
    memory := hm
    keyLength := hd.keyLength
    validated := fun _ => h.validated hs
    zeroized := by simp [ht]
    subkey := hd.subkey
    initialCounter := hd.initialCounter
    pairsLeft := hd.pairsLeft
    blocksLeft := hd.blocksLeft
    trailer := hd.trailer
    mask := hd.mask
    errorCode := by simp [notError ht.1, hc] }

/-! ## The micro-operations -/

/-- An index that wraps stays below a bound that its exact value meets. -/
theorem toNat_ofNat_lt {w k n : Nat} (h : k < n) : (BitVec.ofNat w k).toNat < n := by
  rw [BitVec.toNat_ofNat]
  exact (Nat.mod_le k _).trans_lt h

theorem inv_validate {s t : State} (h : s.Inv) (hs : s.stage = .validate) (hx : execValidate s = .next t) : t.Inv := by
  rcases execValidate_cases hx with ⟨hv, rfl⟩ | ⟨c, hc, rfl⟩
  · have hnone := (h.noError (by simp [hs])).1
    exact { h with
      validated := fun _ => hv
      zeroized := fun _ => h.zeroized (by simp [hs, stagePastValidate])
      subkey := nofun
      initialCounter := nofun
      pairsLeft := nofun
      blocksLeft := nofun
      trailer := nofun
      mask := nofun
      errorCode := by simp [hnone] }
  · exact inv_raiseError h (.refl s) h.memory (validationError_code hc).1 (fun _ => rfl)

theorem inv_load {s t : State} (h : s.Inv) (hs : s.stage = .load) (hx : execLoad s = .next t) : t.Inv := by
  rcases execLoad_cases hx with rfl | ⟨a, rfl⟩
  · exact h.goesOn (by rw [hs]; rfl) ⟨rfl, nofun⟩ h.memory ⟨by simp, nofun, nofun, nofun, nofun, nofun, nofun⟩
  · exact inv_raiseError h (.refl s) h.memory (by decide) (absurd rfl)

theorem inv_deriveSubkey {s t : State} (h : s.Inv) (hs : s.stage = .deriveSubkey) (hx : execDeriveSubkey s = .next t) :
    t.Inv := by
  cases hx
  exact h.goesOn (by rw [hs]; rfl) ⟨rfl, nofun⟩ h.memory
    ⟨h.keyLength, fun _ => rfl, nofun, nofun, nofun, nofun, nofun⟩

theorem inv_buildJ0 {s t : State} (h : s.Inv) (hs : s.stage = .buildJ0) (hx : execBuildJ0 s = .next t) : t.Inv := by
  have hpast : stagePastValidate s.stage = true := by rw [hs]; rfl
  have hk := h.subkey (by rw [hs]; rfl)
  cases hx
  by_cases hp : 0 < s.desc.pairs
  · rw [if_pos hp]
    exact h.goesOn hpast ⟨rfl, nofun⟩ h.memory
      ⟨h.keyLength, fun _ => hk, fun _ => rfl, fun _ => hp, nofun, nofun, nofun⟩
  · rw [if_neg hp]
    exact h.goesOn hpast ⟨rfl, nofun⟩ h.memory
      ⟨h.keyLength, fun _ => hk, fun _ => rfl, nofun, nofun, nofun, nofun⟩

/-- The end of a pair while one is left: P_IDX does not wrap in a valid call (10_state.md R46). -/
theorem advancePair_eq {s u : State} (hv : Valid s.platform s.desc) (hp : s.dp.pIdx.toNat < s.desc.pairs)
    (ho : SameOutside s u)
    (hc : u.errCode = s.errCode ∧ u.errAddr = s.errAddr ∧ u.stage = s.stage ∧ u.dp = (loadLanes s).dp) :
    advancePair u = { s with
      dp := { (loadLanes s).dp with pIdx := BitVec.ofNat 32 (s.dp.pIdx.toNat + 1) }
      stage := if s.dp.pIdx.toNat + 1 = s.desc.pairs then .buildGhash else s.stage
      mem := u.mem
      draws := u.draws } := by
  obtain ⟨hcode, haddr, hstage, hdp⟩ := hc
  have hn := hv.counts.2.1
  have hnext : (s.dp.pIdx.toNat + 1) % 2 ^ 32 = s.dp.pIdx.toNat + 1 := Nat.mod_eq_of_lt (by omega)
  have hidx : (loadLanes s).dp.pIdx = s.dp.pIdx := rfl
  simp only [advancePair, hidx, BitVec.toNat_ofNat, hnext, hdp, hcode, haddr, hstage, ho.desc, ho.irqEn, ho.cmdDropped,
    ho.rdata, ho.hostByte, ho.platform, ho.events, ho.hazard, ho.callMem]

/-- A lane that ends in an error, whatever memory holds when it begins: the error is taken over what it has written. -/
theorem inv_lane_raised {i : Nat} {ks : Block} {s u t : State} (h : s.Inv) (ho : SameOutside s u) (hm : u.mem.wf = true)
    (hl : laneStep memWrite i ks u = .raised t) : t.Inv := by
  obtain ⟨a, v, rfl⟩ := lane_raised_eq hl
  have again : raiseError .busError a (raiseError .busError a v) = raiseError .busError a v := rfl
  rw [← again]
  exact inv_raiseError h (ho.trans (sameOutside_lane_raised hl)) (lane_raised_wf hl hm) (by decide) (absurd rfl)

theorem inv_keystreamPair {s t : State} (h : s.Inv) (hs : s.stage = .keystream) (hx : execKeystreamPair s = .next t) :
    t.Inv := by
  have hpast : stagePastValidate s.stage = true := by rw [hs]; rfl
  have hk := h.subkey (by rw [hs]; rfl)
  have hj := h.initialCounter (by rw [hs]; rfl)
  have hl := sameOutside_loadLanes s
  rcases execKeystreamPair_cases hx with ⟨s1, s2, h1, h2, rfl⟩ | h1 | ⟨s1, h1, h2⟩
  · have ho := (hl.trans (sameOutside_lane_ok h1)).trans (sameOutside_lane_ok h2)
    have hm : s2.mem.wf = true := lane_ok_wf h2 (lane_ok_wf h1 h.memory)
    obtain ⟨c1, a1, t1, d1⟩ := lane_ok_core h1
    obtain ⟨c2, a2, t2, d2⟩ := lane_ok_core h2
    have hp := h.pairsLeft hs
    have hv := validationError_eq_none.mp (h.validated hpast)
    rw [advancePair_eq hv hp ho ⟨c2.trans c1, a2.trans a1, t2.trans t1, d2.trans d1⟩]
    by_cases he : s.dp.pIdx.toNat + 1 = s.desc.pairs
    · rw [if_pos he]
      exact h.goesOn hpast ⟨rfl, nofun⟩ hm
        ⟨h.keyLength, fun _ => hk, fun _ => hj, nofun, nofun, nofun, nofun⟩
    · rw [if_neg he, hs]
      refine h.goesOn hpast ⟨rfl, nofun⟩ hm ⟨h.keyLength, fun _ => hk, fun _ => hj, fun _ => ?_, nofun, nofun, nofun⟩
      exact toNat_ofNat_lt (by omega)
  · exact inv_lane_raised h hl h.memory h1
  · exact inv_lane_raised h (hl.trans (sameOutside_lane_ok h1)) (lane_ok_wf h1 h.memory) h2

theorem inv_buildGhash {s t : State} (h : s.Inv) (hs : s.stage = .buildGhash) (hx : execBuildGhash s = .next t) :
    t.Inv := by
  have hk := h.subkey (by rw [hs]; rfl)
  have hj := h.initialCounter (by rw [hs]; rfl)
  cases hx
  exact h.goesOn (by rw [hs]; rfl) ⟨rfl, nofun⟩ h.memory
    ⟨h.keyLength, fun _ => hk, fun _ => hj, nofun, fun _ => Nat.succ_pos _, fun _ => rfl, nofun⟩

theorem inv_accumulate {s t : State} (h : s.Inv) (hs : s.stage = .accumulate) (hx : execAccumulate s = .next t) :
    t.Inv := by
  have hpast : stagePastValidate s.stage = true := by rw [hs]; rfl
  have hk := h.subkey (by rw [hs]; rfl)
  have hj := h.initialCounter (by rw [hs]; rfl)
  have hg := h.blocksLeft hs
  rcases execAccumulate_cases hx with ⟨b, _, rfl⟩ | ⟨a, rfl⟩
  · rw [advanceGhash_eq s b hg]
    by_cases he : s.dp.gIdx.toNat + 1 = s.desc.ghashBlocks
    · rw [if_pos he]
      exact h.goesOn hpast ⟨rfl, nofun⟩ h.memory
        ⟨h.keyLength, fun _ => hk, fun _ => hj, nofun, nofun, nofun, nofun⟩
    · rw [if_neg he, hs]
      refine h.goesOn hpast ⟨rfl, nofun⟩ h.memory
        ⟨h.keyLength, fun _ => hk, fun _ => hj, nofun, fun _ => ?_, fun _ => h.trailer hs, nofun⟩
      exact toNat_ofNat_lt (by omega)
  · exact inv_raiseError h (.refl s) h.memory (by decide) (absurd rfl)

theorem inv_computeMask {s t : State} (h : s.Inv) (hs : s.stage = .computeMask) (hx : execComputeMask s = .next t) :
    t.Inv := by
  have hk := h.subkey (by rw [hs]; rfl)
  have hj := h.initialCounter (by rw [hs]; rfl)
  cases hx
  exact h.goesOn (by rw [hs]; rfl) ⟨rfl, nofun⟩ h.memory
    ⟨h.keyLength, fun _ => hk, fun _ => hj, nofun, nofun, nofun, fun _ => rfl⟩

theorem inv_finalizeTag {s t : State} (h : s.Inv) (hs : s.stage = .finalizeTag) (hx : execFinalizeTag s = .next t) :
    t.Inv := by
  obtain ⟨hc, ha⟩ := h.noError (by simp [hs])
  have ho : SameOutside s (formTag s) := ⟨rfl, rfl, rfl, rfl, rfl, rfl, rfl, rfl, rfl⟩
  obtain ⟨hr, rfl | rfl⟩ := execFinalizeTag_cases hx
  · exact inv_enterDone h (ho.trans (sameOutside_completeWrite _ _ _)) (completeWrite_wf h.memory (by simpa using hr)) hc ha
  · exact inv_raiseError h (ho.trans (sameOutside_drawnWrite _ _ _)) (drawnWrite_wf h.memory (by simpa using hr))
      (by decide) (absurd rfl)

/-- The micro-operation that STATE selects keeps the invariant. -/
theorem inv_microOperation {i : Instr} {s t : State} (h : s.Inv) (hi : microOperation s.stage = some i)
    (hx : exec i s = .next t) : t.Inv := by
  cases hs : s.stage <;> rw [hs] at hi <;> cases hi
  case validate => exact inv_validate h hs hx
  case load => exact inv_load h hs hx
  case deriveSubkey => exact inv_deriveSubkey h hs hx
  case buildJ0 => exact inv_buildJ0 h hs hx
  case keystream => exact inv_keystreamPair h hs hx
  case buildGhash => exact inv_buildGhash h hs hx
  case accumulate => exact inv_accumulate h hs hx
  case computeMask => exact inv_computeMask h hs hx
  case finalizeTag => exact inv_finalizeTag h hs hx

/-! ## One step -/

/-- Settles O52, by what each way to a next state (`Moves`) keeps. -/
theorem stepKeepsTheInvariant : Obligations.StepKeepsTheInvariant := by
  intro s t hinv hstep
  obtain ⟨ev, hmove⟩ := step_cases hstep
  have h : ({ s with events := ev } : State).Inv := hinv.hostSide hinv.memory
  cases hmove with
  | micro i hi hx => exact inv_microOperation h hi hx
  | waits _ ht => rwa [ht]
  | host i hi hx => exact inv_hostOperation h hi hx
  | misaligned read ht =>
    cases read
    · rwa [ht]
    · rw [ht]
      exact h.hostSide h.memory
  | reset ht =>
    rw [ht]
    exact inv_resetCore h (.refl _) h.memory
  | resetInWrite lane hx =>
    obtain ⟨v, ho, hm, rfl⟩ := resetInWrite_cases hx
    exact inv_resetCore h ho (hm h.memory)
  | store addr value ht =>
    rw [ht, foreignStore_eq]
    exact h.hostSide (foreignStore_wf addr value h.memory)
  | load addr ht =>
    rw [ht, foreignLoad_eq]
    exact h.hostSide h.memory

end Sys2Proof.Machine
end

section
/-! The registers of 10_state.md: the bits of STATUS, their values at reset, what writes CMD_DROPPED, ERR_CODE and ERR_ADDR,
and where a micro-operation and a step leave STATE and the datapath. -/

namespace Sys2Proof.Machine

/-! ## STATUS (10_state.md R22) -/

@[simp] theorem getLsbD_bitWord (b : Bool) (k : Nat) : (bitWord b).getLsbD k = (decide (k = 0) && b) := by
  cases k <;> simp [bitWord]

/-- STATUS, bit by bit. -/
theorem getLsbD_statusWord (s : State) (k : Nat) :
    s.statusWord.getLsbD k = (decide (k = 0) && s.busy || decide (k = 1) && s.isDone || decide (k = 2) && s.isError
      || decide (k = 3) && s.cmdDropped || decide (8 ≤ k) && s.stage.code.getLsbD (k - 8)) := by
  have hcode : 12 ≤ k → s.stage.code.getLsbD (k - 8) = false := fun hk => BitVec.getLsbD_of_ge _ _ (by omega)
  simp only [State.statusWord, BitVec.getLsbD_or, BitVec.getLsbD_shiftLeft, BitVec.getLsbD_setWidth, getLsbD_bitWord]
  grind

theorem busy_iff_code (s : State) : s.busy = true ↔ 1 ≤ s.stage.code.toNat ∧ s.stage.code.toNat ≤ 9 := by
  unfold State.busy
  cases s.stage <;> decide

theorem isDone_iff_code (s : State) : s.isDone = true ↔ s.stage.code.toNat = 10 := by
  unfold State.isDone
  cases s.stage <;> decide

theorem isError_iff_code (s : State) : s.isError = true ↔ s.stage.code.toNat = 11 := by
  unfold State.isError
  cases s.stage <;> decide

/-- BUSY, DONE and ERROR are all 0 exactly in IDLE. -/
theorem idle_iff_no_flag (s : State) :
    (s.busy = false ∧ s.isDone = false ∧ s.isError = false) ↔ s.stage = .idle := by
  unfold State.busy State.isDone State.isError
  cases s.stage <;> decide

theorem statusWord_cmdDropped (s : State) : s.statusWord.getLsbD 3 = s.cmdDropped :=
  (getLsbD_statusWord s 3).trans (by simp)

/-- STATUS bits 11:8 are the STATE code. -/
theorem statusWord_stageField (s : State) : s.statusWord.extractLsb' 8 4 = s.stage.code := by
  apply BitVec.eq_of_getLsbD_eq
  intro k hk
  have hlow : ¬ 8 + k = 0 ∧ ¬ 8 + k = 1 ∧ ¬ 8 + k = 2 ∧ ¬ 8 + k = 3 := by omega
  simp [getLsbD_statusWord, hk, hlow]

/-- Settles O12, from the bits of STATUS and the STATE code behind each flag. -/
theorem statusFields : Obligations.StatusFields := by
  refine ⟨rfl, fun s => ?_⟩
  have hbusy : s.statusWord.getLsbD 0 = s.busy := (getLsbD_statusWord s 0).trans (by simp)
  have hdone : s.statusWord.getLsbD 1 = s.isDone := (getLsbD_statusWord s 1).trans (by simp)
  have herror : s.statusWord.getLsbD 2 = s.isError := (getLsbD_statusWord s 2).trans (by simp)
  have hb := busy_iff_code s
  have hd := isDone_iff_code s
  have he := isError_iff_code s
  simp only [readRegister, hbusy, hdone, herror]
  refine ⟨hb, hd, he, statusWord_cmdDropped s, fun b h4 h8 => ?_, statusWord_stageField s, fun b h12 => ?_, ?_, ?_, ?_,
    idle_iff_no_flag s, fun _ => rfl⟩
  · grind [getLsbD_statusWord]
  · have hcode : s.stage.code.getLsbD (b - 8) = false := BitVec.getLsbD_of_ge _ _ (by omega)
    grind [getLsbD_statusWord]
  · rw [hb, hd]; omega
  · rw [hb, he]; omega
  · rw [hd, he]; omega

/-! ## Reset (10_state.md R57) -/

/-- Settles O44, register by register. -/
theorem resetValues : Obligations.ResetValues := by
  refine ⟨fun r => ?_, rfl, rfl, rfl, rfl⟩
  cases r <;> rfl

/-- Settles O51: reset is outside a call, with the datapath zeroized and no error. -/
theorem invariantAtReset : Obligations.InvariantAtReset :=
  inv_of_notPastValidate rfl rfl rfl (by decide) (fun _ => rfl) (by decide) rfl

/-! ## Host operations -/

/-- A register write that is no command writes IRQ_EN or a descriptor (40_host_interface.md R101 to R104). -/
theorem writeRegister_frame {reg : HostReg} (h : reg ≠ .cmd) (v : Word) (s : State) :
    writeRegister reg v s = { s with irqEn := (writeRegister reg v s).irqEn, desc := (writeRegister reg v s).desc } := by
  cases reg
  case cmd => exact absurd rfl h
  case irqEn => rfl
  case status => rfl
  case errCode => rfl
  case errAddr => rfl
  all_goals
    simp only [writeRegister, writeDescriptor]
    split_ifs <;> rfl

theorem writeRegister_cmdDropped {reg : HostReg} (h : reg ≠ .cmd) (v : Word) (s : State) :
    (writeRegister reg v s).cmdDropped = s.cmdDropped := by
  rw [writeRegister_frame h]

theorem startCommand_of_busy {s : State} (h : s.busy = true) : startCommand s = dropCommand s := if_pos h
theorem startCommand_of_not_busy {s : State} (h : s.busy = false) : startCommand s = beginCall s := if_neg (by simp [h])
theorem clearCommand_of_busy {s : State} (h : s.busy = true) : clearCommand s = dropCommand s := if_pos h
theorem clearCommand_of_not_busy {s : State} (h : s.busy = false) : clearCommand s = returnToIdle s := if_neg (by simp [h])
theorem reservedCommand_of_busy {s : State} (h : s.busy = true) : reservedCommand s = dropCommand s := if_pos h
theorem reservedCommand_of_not_busy {s : State} (h : s.busy = false) : reservedCommand s = raiseError .badCommand 0 s :=
  if_neg (by simp [h])

@[simp] theorem startCommand_cmdDropped (s : State) : (startCommand s).cmdDropped = s.busy := by
  cases hb : s.busy
  · rw [startCommand_of_not_busy hb, beginCall_cmdDropped]
  · rw [startCommand_of_busy hb, dropCommand_cmdDropped]

@[simp] theorem clearCommand_cmdDropped (s : State) : (clearCommand s).cmdDropped = s.busy := by
  cases hb : s.busy
  · rw [clearCommand_of_not_busy hb, returnToIdle_cmdDropped]
  · rw [clearCommand_of_busy hb, dropCommand_cmdDropped]

@[simp] theorem reservedCommand_cmdDropped (s : State) : (reservedCommand s).cmdDropped = (s.busy || s.cmdDropped) := by
  cases hb : s.busy
  · rw [reservedCommand_of_not_busy hb, raiseError_cmdDropped, Bool.false_or]
  · rw [reservedCommand_of_busy hb, dropCommand_cmdDropped, Bool.true_or]

/-! ## Micro-operations -/

/-- ERR_CODE and ERR_ADDR are as they were, or hold an error that has been taken (10_state.md R23, R24). -/
def KeptOrRaised (s t : State) : Prop :=
  (t.errCode = s.errCode ∧ t.errAddr = s.errAddr)
    ∨ (t.stage = .error ∧ t.errCode ≠ .none ∧ (t.errCode ≠ .busError → t.errAddr = 0))

/-- Where a micro-operation moves STATE, when it does (10_state.md R52); a host operation is none. -/
def stagesAfter : Instr → List Stage
  | .validate => [.load, .error]
  | .load => [.deriveSubkey, .error]
  | .deriveSubkey => [.buildJ0]
  | .buildJ0 => [.keystream, .buildGhash]
  | .keystreamPair => [.buildGhash, .error]
  | .buildGhash => [.accumulate]
  | .accumulate => [.computeMask, .error]
  | .computeMask => [.finalizeTag]
  | .finalizeTag => [.done, .error]
  | .regRead _ => []
  | .regWrite _ _ => []
  | .nop => []
  | .start => []
  | .clear => []
  | .cmdReserved _ => []

/-- How a micro-operation leaves the machine. -/
structure MicroEnd (i : Instr) (s t : State) : Prop where
  outside : SameOutside s t
  errors : KeptOrRaised s t
  edge : t.stage = s.stage ∨ t.stage ∈ stagesAfter i
  /-- The end of a call erases the datapath (10_state.md R49). -/
  erased : s.busy = true → t.busy = false → t.dp = Datapath.zero t.platform.keyBytes

/-- The call goes on. -/
theorem MicroEnd.goesOn {i : Instr} {s t : State} (ho : SameOutside s t) (hc : t.errCode = s.errCode)
    (ha : t.errAddr = s.errAddr) (hs : t.stage = s.stage ∨ t.stage ∈ stagesAfter i ∧ stageBusy t.stage = true) :
    MicroEnd i s t where
  outside := ho
  errors := .inl ⟨hc, ha⟩
  edge := hs.imp_right And.left
  erased hb hnb := by
    have ht : t.busy = true := hs.elim (fun he => by rw [State.busy, he]; exact hb) And.right
    exact absurd (ht.symm.trans hnb) (by decide)

/-- The call goes on, with STATE and the datapath alone changed. -/
theorem MicroEnd.moves {i : Instr} {s : State} {st : Stage} (d : Datapath) (hs : st ∈ stagesAfter i)
    (hb : stageBusy st = true) : MicroEnd i s { s with stage := st, dp := d } :=
  .goesOn ⟨rfl, rfl, rfl, rfl, rfl, rfl, rfl, rfl, rfl⟩ rfl rfl (.inr ⟨hs, hb⟩)

/-- An error entry, after whatever the micro-operation has written (60_exceptions.md R209). -/
theorem MicroEnd.raised {i : Instr} {s t u : State} {code : ErrorCode} {addr : Nat} (ho : SameOutside s t)
    (ht : t = raiseError code addr u) (hc : code ≠ .none) (ha : code ≠ .busError → addr = 0)
    (hs : Stage.error ∈ stagesAfter i) : MicroEnd i s t := by
  subst ht
  exact ⟨ho, .inr ⟨rfl, hc, fun hb => by simp [ha hb]⟩, .inr hs, fun _ _ => rfl⟩

/-- A denied transaction that nothing was written before. -/
theorem MicroEnd.busError {i : Instr} {s : State} (addr : Nat) (hs : Stage.error ∈ stagesAfter i) :
    MicroEnd i s (raiseError .busError addr s) :=
  .raised (sameOutside_raiseError _ _ _) rfl (by decide) (absurd rfl) hs

theorem microEnd_validate {s t : State} (h : execValidate s = .next t) : MicroEnd .validate s t := by
  rcases execValidate_cases h with ⟨_, rfl⟩ | ⟨c, hc, rfl⟩
  · exact .moves _ (by decide) rfl
  · exact .raised (sameOutside_raiseError _ _ _) rfl (validationError_code hc).1 (fun _ => rfl) (by decide)

theorem microEnd_load {s t : State} (h : execLoad s = .next t) : MicroEnd .load s t := by
  rcases execLoad_cases h with rfl | ⟨a, rfl⟩
  · exact .moves _ (by decide) rfl
  · exact .busError a (by decide)

theorem microEnd_deriveSubkey {s t : State} (h : execDeriveSubkey s = .next t) : MicroEnd .deriveSubkey s t := by
  cases h
  exact .moves _ (by decide) rfl

theorem microEnd_buildJ0 {s t : State} (h : execBuildJ0 s = .next t) : MicroEnd .buildJ0 s t := by
  cases h
  by_cases hp : 0 < s.desc.pairs
  · rw [if_pos hp]
    exact .moves _ (by decide) rfl
  · rw [if_neg hp]
    exact .moves _ (by decide) rfl

theorem microEnd_keystreamPair {s t : State} (h : execKeystreamPair s = .next t) : MicroEnd .keystreamPair s t := by
  have hl := sameOutside_loadLanes s
  rcases execKeystreamPair_cases h with ⟨s1, s2, h1, h2, rfl⟩ | h1 | ⟨s1, h1, h2⟩
  · obtain ⟨c1, a1, t1, _⟩ := lane_ok_core h1
    obtain ⟨c2, a2, t2, _⟩ := lane_ok_core h2
    have ho := (hl.trans (sameOutside_lane_ok h1)).trans (sameOutside_lane_ok h2)
    refine .goesOn (ho.trans (sameOutside_advancePair s2)) (c2.trans c1) (a2.trans a1) ?_
    rcases advancePair_stage s2 with hs | hs
    · exact .inr (by rw [hs]; exact ⟨by decide, rfl⟩)
    · exact .inl (hs.trans (t2.trans t1))
  · obtain ⟨a, u, ht⟩ := lane_raised_eq h1
    exact .raised (hl.trans (sameOutside_lane_raised h1)) ht (by decide) (absurd rfl) (by decide)
  · obtain ⟨a, u, ht⟩ := lane_raised_eq h2
    exact .raised ((hl.trans (sameOutside_lane_ok h1)).trans (sameOutside_lane_raised h2)) ht (by decide) (absurd rfl)
      (by decide)

theorem microEnd_buildGhash {s t : State} (h : execBuildGhash s = .next t) : MicroEnd .buildGhash s t := by
  cases h
  exact .moves _ (by decide) rfl

theorem microEnd_accumulate {s t : State} (h : execAccumulate s = .next t) : MicroEnd .accumulate s t := by
  rcases execAccumulate_cases h with ⟨b, _, rfl⟩ | ⟨a, rfl⟩
  · refine .goesOn ⟨rfl, rfl, rfl, rfl, rfl, rfl, rfl, rfl, rfl⟩ rfl rfl ?_
    rcases advanceGhash_stage s b with hs | hs
    · exact .inr (by rw [hs]; exact ⟨by decide, rfl⟩)
    · exact .inl hs
  · exact .busError a (by decide)

theorem microEnd_computeMask {s t : State} (h : execComputeMask s = .next t) : MicroEnd .computeMask s t := by
  cases h
  exact .moves _ (by decide) rfl

theorem microEnd_finalizeTag {s t : State} (h : execFinalizeTag s = .next t) : MicroEnd .finalizeTag s t := by
  obtain ⟨_, rfl | rfl⟩ := execFinalizeTag_cases h
  · exact ⟨⟨rfl, rfl, rfl, rfl, rfl, rfl, rfl, rfl, rfl⟩, .inl ⟨rfl, rfl⟩,
      .inr (show .done ∈ stagesAfter .finalizeTag by decide), fun _ _ => rfl⟩
  · exact .raised ⟨rfl, rfl, rfl, rfl, rfl, rfl, rfl, rfl, rfl⟩ rfl (by decide) (absurd rfl) (by decide)

/-- Everything a micro-operation can do to the registers outside the datapath, and to the datapath where the call ends. -/
theorem microEnd_of_exec {i : Instr} {s t : State} (hi : hostTx i = none) (h : exec i s = .next t) : MicroEnd i s t := by
  cases i with
  | validate => exact microEnd_validate h
  | load => exact microEnd_load h
  | deriveSubkey => exact microEnd_deriveSubkey h
  | buildJ0 => exact microEnd_buildJ0 h
  | keystreamPair => exact microEnd_keystreamPair h
  | buildGhash => exact microEnd_buildGhash h
  | accumulate => exact microEnd_accumulate h
  | computeMask => exact microEnd_computeMask h
  | finalizeTag => exact microEnd_finalizeTag h
  | _ => cases hi

/-- Settles O41, from what a micro-operation leaves of the machine. -/
theorem microOperationFrame : Obligations.MicroOperationFrame := by
  intro i s t hi h
  obtain ⟨hdesc, hirq, hdropped, hrdata, hbyte, hplatform, hevents, hhazard, hmem⟩ := (microEnd_of_exec hi h).outside
  exact ⟨hdesc, hirq, hdropped, hrdata, hbyte, hplatform, hevents, hhazard, hmem⟩

/-! ## ERR_CODE and ERR_ADDR -/

/-- Settles O23: START and CLEAR outside a call clear them, a reserved command outside a call and a failing micro-operation
take an error, and everything else keeps them. -/
theorem writersOfTheErrorRegisters : Obligations.WritersOfTheErrorRegisters := by
  intro i s t hwf h
  cases i with
  | regRead r => cases h; exact .inl ⟨rfl, rfl⟩
  | regWrite r v =>
    cases h
    rw [writeRegister_frame (by simpa [Instr.wf] using hwf)]
    exact .inl ⟨rfl, rfl⟩
  | nop => cases h; exact .inl ⟨rfl, rfl⟩
  | start =>
    cases h
    cases hb : s.busy
    · rw [startCommand_of_not_busy hb]
      exact .inr (.inl ⟨.inl rfl, rfl, rfl, rfl⟩)
    · rw [startCommand_of_busy hb]
      exact .inl ⟨rfl, rfl⟩
  | clear =>
    cases h
    cases hb : s.busy
    · rw [clearCommand_of_not_busy hb]
      exact .inr (.inl ⟨.inr rfl, rfl, rfl, rfl⟩)
    · rw [clearCommand_of_busy hb]
      exact .inl ⟨rfl, rfl⟩
  | cmdReserved v =>
    cases h
    cases hb : s.busy
    · rw [reservedCommand_of_not_busy hb]
      exact .inr (.inr ⟨rfl, by simp, fun _ => rfl⟩)
    · rw [reservedCommand_of_busy hb]
      exact .inl ⟨rfl, rfl⟩
  | _ => exact (microEnd_of_exec rfl h).errors.imp_right .inr

/-! ## CMD_DROPPED -/

/-- A step makes the first pending move. -/
theorem step_event {s : State} {e : Event} {rest : List Event} (h : s.events = e :: rest) :
    step s = takeTurn (eventTurn foreignLoad e { s with events := rest }) := by
  simp only [step, fetch, h]

/-- With nothing pending, a step is the sequencer's turn. -/
theorem step_noEvents {s : State} (h : s.events = []) : step s = takeTurn (coreTurn s) := by
  simp only [step, fetch, h]

/-- The sequencer keeps CMD_DROPPED. -/
theorem coreTurn_cmdDropped {s t : State} (h : takeTurn (coreTurn s) = .next t) : t.cmdDropped = s.cmdDropped := by
  rcases coreTurn_cases s with ⟨i, hi, hc⟩ | ⟨_, hc⟩
  · rw [hc] at h
    exact (microEnd_of_exec (hostTx_microOperation hi) h).outside.cmdDropped
  · rw [hc] at h
    cases h
    rfl

/-- Settles O22, instruction by instruction and move by move. -/
theorem writersOfCmdDropped : Obligations.WritersOfCmdDropped := by
  refine ⟨statusWord_cmdDropped, fun i s t hwf h => ?_, fun s rest he => ?_, fun s t e rest he h => ?_⟩
  · cases i with
    | regRead r => cases h; rfl
    | regWrite r v => cases h; exact writeRegister_cmdDropped (by simpa [Instr.wf] using hwf) v s
    | nop => cases h; rfl
    | start => cases h; exact startCommand_cmdDropped s
    | clear => cases h; exact clearCommand_cmdDropped s
    | cmdReserved v => cases h; exact reservedCommand_cmdDropped s
    | _ => exact (microEnd_of_exec rfl h).outside.cmdDropped
  · exact ⟨_, step_event he, rfl⟩
  · rw [step_event he] at h
    cases e with
    | core => exact coreTurn_cmdDropped (s := { s with events := rest }) h
    | transact tx => rfl
    | poll reg mask value => cases h; rfl
    | reset => cases h; rfl
    | resetInWrite lane =>
      obtain ⟨v, _, _, rfl⟩ := resetInWrite_cases h
      rfl
    | store addr value =>
      cases h
      rw [foreignStore_eq]
    | load addr => cases h; rfl

/-! ## STATE and the datapath over one step -/

/-- Settles O10: without a micro-operation the sequencer's turn is a wait. -/
theorem coreWaitsOutsideACall : Obligations.CoreWaitsOutsideACall := by
  intro s hb he
  rw [step_noEvents he]
  rcases coreTurn_cases s with ⟨i, hi, _⟩ | ⟨_, hc⟩
  · have hbusy : s.busy = true := (stageBusy_iff_microOperation s.stage).mpr ⟨i, hi⟩
    exact absurd (hb.symm.trans hbusy) (by decide)
  · rw [hc, takeTurn_settled]

/-- STATE may stay as it is. -/
theorem mem_successors_self (st : Stage) : st ∈ successors st := by
  cases st <;> simp [successors]

/-- Reset is an edge from every state (10_state.md R52). -/
theorem idle_mem_successors (st : Stage) : .idle ∈ successors st := by
  cases st <;> simp [successors]

/-- Outside a call, START and a reserved command move STATE along an edge. -/
theorem validate_and_error_mem_successors {st : Stage} (h : stageBusy st = false) :
    .validate ∈ successors st ∧ .error ∈ successors st := by
  revert h
  cases st <;> decide

/-- Where the selected micro-operation moves STATE is an edge of the graph. -/
theorem stagesAfter_subset_successors {st : Stage} {i : Instr} (h : microOperation st = some i) :
    stagesAfter i ⊆ successors st := by
  cases st <;> cases h <;> decide

/-- A host operation leaves STATE, or moves it along an edge out of IDLE, DONE or ERROR. -/
theorem hostOperation_stage {i : Instr} {s t : State} (hi : hostTx i ≠ none) (h : exec i s = .next t) :
    t.stage ∈ successors s.stage := by
  rcases hostOperation_cases hi h with ht | ⟨_, ht⟩ | ⟨hb, ht⟩
  · rw [ht]
    exact mem_successors_self _
  · rw [ht]
    exact mem_successors_self _
  · obtain ⟨hv, he⟩ := validate_and_error_mem_successors hb
    rcases ht with rfl | rfl | rfl
    · exact hv
    · exact idle_mem_successors _
    · exact he

/-- Settles O54, for each way to a next state (`Moves`). -/
theorem stateMovesAlongTheGraph : Obligations.StateMovesAlongTheGraph := by
  intro s t h
  obtain ⟨ev, hmove⟩ := step_cases h
  cases hmove with
  | micro i hi hx =>
    rcases (microEnd_of_exec (hostTx_microOperation hi) hx).edge with he | he
    · rw [he]
      exact mem_successors_self _
    · exact stagesAfter_subset_successors hi he
  | waits _ ht =>
    rw [ht]
    exact mem_successors_self _
  | host i hi hx => exact hostOperation_stage (s := { s with events := ev }) hi hx
  | misaligned read ht =>
    rw [ht]
    cases read <;> exact mem_successors_self _
  | reset ht =>
    rw [ht]
    exact idle_mem_successors _
  | resetInWrite lane hx =>
    obtain ⟨v, _, _, rfl⟩ := resetInWrite_cases hx
    exact idle_mem_successors _
  | store addr value ht =>
    rw [ht, foreignStore_eq]
    exact mem_successors_self _
  | load addr ht =>
    rw [ht]
    exact mem_successors_self _

/-- Settles O49: a call ends by its own micro-operation or by reset, and either erases the datapath; every other move keeps
STATE. -/
theorem endOfCallErasesTheDatapath : Obligations.EndOfCallErasesTheDatapath := by
  intro s t hb h hend
  have ends : t.stage ≠ s.stage := by
    intro hs
    rw [State.busy, hs] at hend
    exact absurd (hb.symm.trans hend) (by decide)
  obtain ⟨ev, hmove⟩ := step_cases h
  cases hmove with
  | micro i hi hx => exact (microEnd_of_exec (hostTx_microOperation hi) hx).erased hb hend
  | waits _ ht => exact absurd (by rw [ht]) ends
  | host i hi hx =>
    rcases hostOperation_cases hi hx with ht | ⟨hnb, _⟩ | ⟨hnb, _⟩
    · exact absurd (by rw [ht]) ends
    · exact absurd (hb.symm.trans hnb) (by decide)
    · exact absurd (hb.symm.trans hnb) (by decide)
  | misaligned read ht => exact absurd (by rw [ht]; cases read <;> rfl) ends
  | reset ht =>
    rw [ht]
    rfl
  | resetInWrite lane hx =>
    obtain ⟨v, _, _, rfl⟩ := resetInWrite_cases hx
    rfl
  | store addr value ht => exact absurd (by rw [ht, foreignStore_eq]) ends
  | load addr ht => exact absurd (by rw [ht]; rfl) ends

end Sys2Proof.Machine
end

section
/-! The data memory of 20_memory.md: the byte order of the counter field, what writes memory and where, the two primitives
against each other, another agent's accesses outside a hazard, and the platform over one step. -/

namespace Sys2Proof.Machine

/-! ## The counter field (20_memory.md R66) -/

/-- Byte k of a block is its k-th digit in base 256, the first the most significant. -/
theorem toNat_blockByte (b : Block) (k : Nat) : (blockByte b k).toNat = b.toNat / 256 ^ (15 - k) % 256 := by
  simp [blockByte, BitVec.extractLsb'_toNat, Nat.shiftRight_eq_div_pow, Nat.pow_mul]

/-- Settles O29, over the value of the counter block: below its bytes 0 to 11 stand 32 bits, its bytes 12 to 15. -/
theorem counterFieldIsBigEndian : Obligations.CounterFieldIsBigEndian := by
  refine fun j0 c => ⟨fun k hk => ?_, fun k hk => ?_⟩
  · have weight : 256 ^ (15 - k) = 2 ^ 32 * 256 ^ (11 - k) := by
      rw [show 15 - k = 4 + (11 - k) by omega, Nat.pow_add, show 256 ^ 4 = 2 ^ 32 by rfl]
    have above : (counterBlock j0 c).toNat / 2 ^ 32 = j0.toNat / 2 ^ 32 := by
      rw [toNat_counterBlock]
      omega
    apply BitVec.eq_of_toNat_eq
    rw [toNat_blockByte, toNat_blockByte, weight, ← Nat.div_div_eq_div_mul, above, Nat.div_div_eq_div_mul]
  · have digit : 15 - (12 + k) = 3 - k := by omega
    have inField : 256 ^ (3 - k) * 256 ∣ 2 ^ 32 := by
      rw [← Nat.pow_succ, show 2 ^ 32 = 256 ^ 4 by rfl]
      exact Nat.pow_dvd_pow 256 (by omega)
    rw [toNat_blockByte, digit, toNat_counterBlock, ← Nat.mod_mul_right_div_self,
      ← Nat.mod_mul_right_div_self, Nat.add_mod, Nat.mod_eq_zero_of_dvd (inField.mul_left _), Nat.zero_add, Nat.mod_mod]

/-! ## What writes memory (20_memory.md R70, R73) -/

/-- A host operation accesses no memory, and leaves the platform. -/
theorem hostOperation_mem_platform {i : Instr} {s t : State} (hi : hostTx i ≠ none) (h : exec i s = .next t) :
    t.mem = s.mem ∧ t.platform = s.platform := by
  rcases hostOperation_cases hi h with ht | ⟨_, ht⟩ | ⟨_, rfl | rfl | rfl⟩
  · rw [ht]
    exact ⟨rfl, rfl⟩
  · rw [ht]
    exact ⟨rfl, rfl⟩
  · exact ⟨rfl, rfl⟩
  · exact ⟨rfl, rfl⟩
  · exact ⟨rfl, rfl⟩

/-- Settles O40: a host operation accesses no memory, and the other micro-operations read it at most. -/
theorem onlyKeystreamAndFinalizeTagWriteMemory : Obligations.OnlyKeystreamAndFinalizeTagWriteMemory := by
  intro i s t hk hf h
  cases i with
  | validate => rcases execValidate_cases h with ⟨_, rfl⟩ | ⟨_, _, rfl⟩ <;> rfl
  | load => rcases execLoad_cases h with rfl | ⟨_, rfl⟩ <;> rfl
  | deriveSubkey => cases h; rfl
  | buildJ0 => cases h; rfl
  | keystreamPair => exact absurd rfl hk
  | buildGhash => cases h; rfl
  | accumulate => rcases execAccumulate_cases h with ⟨_, _, rfl⟩ | ⟨_, rfl⟩ <;> rfl
  | computeMask => cases h; rfl
  | finalizeTag => exact absurd rfl hf
  | _ => exact (hostOperation_mem_platform (by simp [hostTx, encode]) h).1

/-- KEYSTREAM leaves every byte outside the ciphertext region, lane by lane (20_memory.md R73). -/
theorem execKeystreamPair_outside {s t : State} {x : Nat} (h : execKeystreamPair s = .next t) (hm : s.mem.wf = true)
    (hx : ¬ (ctRegion s.desc).has x) : readByte t.mem x = readByte s.mem x := by
  have lane0 : ∀ {u : State}, laneStep memWrite (laneIndex 0 s) (loadLanes s).dp.ks0 (loadLanes s) = .ok u →
      u.mem.wf = true ∧ ¬ (ctRegion u.desc).has x ∧ readByte u.mem x = readByte s.mem x := fun h1 =>
    ⟨lane_ok_wf h1 hm, by rw [(sameOutside_lane_ok h1).desc]; exact hx, lane_outside (s := loadLanes s) h1 hm hx⟩
  rcases execKeystreamPair_cases h with ⟨s1, s2, h1, h2, rfl⟩ | h1 | ⟨s1, h1, h2⟩
  · obtain ⟨hm1, hx1, he⟩ := lane0 h1
    exact (lane_outside h2 hm1 hx1).trans he
  · exact lane_raised_outside (s := loadLanes s) h1 hm hx
  · obtain ⟨hm1, hx1, he⟩ := lane0 h1
    exact (lane_raised_outside h2 hm1 hx1).trans he

/-- FINALIZE_TAG leaves every byte outside the tag region (44_tag_finalizer.md R183). -/
theorem execFinalizeTag_outside {s t : State} {x : Nat} (h : execFinalizeTag s = .next t) (hm : s.mem.wf = true)
    (hx : ¬ (tagRegion s.desc).has x) : readByte t.mem x = readByte s.mem x := by
  obtain ⟨ha, rfl | rfl⟩ := execFinalizeTag_cases h
  · exact completeWrite_outside (s := formTag s) hm (by simpa using ha) (by simpa [tagRegion, tagBytes] using hx)
  · exact drawnWrite_outside (s := formTag s) hm (by simpa using ha) (by simpa [tagRegion, tagBytes] using hx)

/-- Settles O42. -/
theorem storingInstructionsStayInTheirRegion : Obligations.StoringInstructionsStayInTheirRegion :=
  fun _ _ _ hm => ⟨fun h hx => execKeystreamPair_outside h hm hx, fun h hx => execFinalizeTag_outside h hm hx⟩

/-! ## A read after a write (20_memory.md R62, R63, R65) -/

/-- Without a buffer hazard, a write that completes stores its bytes and changes memory alone. -/
theorem completeWrite_of_no_hazard {addr : Nat} {bytes : List Byte} {s : State} (h : s.hazard = false) :
    completeWrite addr bytes s = { s with mem := writeBytes s.mem addr bytes } := by
  rw [completeWrite, storedBytes_of_no_hazard h, storedDraws_of_no_hazard h]

/-- Settles O43: the write completes over the bytes themselves, and the read sees them back. -/
theorem memReadAfterMemWrite : Obligations.MemReadAfterMemWrite := by
  intro s addr bytes hm hz hw hr
  have ha := (transactionOk_iff.mp hw).1
  refine ⟨_, memWrite_ok hw, ?_, ?_, completeWrite_wf hm ha, fun x hx => completeWrite_outside hm ha hx⟩
  · rw [memRead_ok (s := completeWrite addr bytes s) hr, completeWrite_mem, storedBytes_of_no_hazard hz,
      readBytes_writeBytes_same hm ha]
  · rw [completeWrite_of_no_hazard hz]

/-! ## Another agent (20_memory.md R61, 70_reset_and_hazards.md R236) -/

/-- Settles O48: the step is the agent's access, and outside a hazard that is one on ordinary memory. -/
theorem ordinaryForeignAccess : Obligations.OrdinaryForeignAccess := by
  refine fun s addr rest hm => ⟨fun value hfree he => ?_, fun hfree he => ?_⟩
  · have hstep : step s = .next { s with events := rest, mem := writeByte s.mem addr.toNat value } := by
      rw [step_event he]
      exact congrArg _ (foreignStore_ordinary (s := { s with events := rest }) hfree)
    refine ⟨_, hstep, rfl, ?_, fun x hx => ?_⟩
    · rw [readByte_writeByte addr.toNat value addr.toNat hm, if_pos rfl]
    · rw [readByte_writeByte addr.toNat value x hm, if_neg hx.symm]
  · rw [step_event he]
    exact congrArg _ (foreignLoad_ordinary (s := { s with events := rest }) hfree)

/-! ## The platform (20_memory.md R64, 70_reset_and_hazards.md R233) -/

/-- Settles O50, for each way to a next state (`Moves`). -/
theorem platformIsFixed : Obligations.PlatformIsFixed := by
  intro s t h
  obtain ⟨ev, hmove⟩ := step_cases h
  cases hmove with
  | micro i hi hx => exact (microEnd_of_exec (hostTx_microOperation hi) hx).outside.platform
  | waits _ ht => rw [ht]
  | host i hi hx => exact (hostOperation_mem_platform hi hx).2
  | misaligned read ht => rw [ht]; cases read <;> rfl
  | reset ht => rw [ht]; rfl
  | resetInWrite lane hx =>
    obtain ⟨v, ho, _, rfl⟩ := resetInWrite_cases hx
    exact ho.platform
  | store addr value ht => rw [ht, foreignStore_eq]
  | load addr ht => rw [ht]; rfl

end Sys2Proof.Machine
end

section
/-! The encoding of 30_encoding.md: what the decoder answers on a read, a command, a register write, a misaligned word and a
STATE code, that it is inverse to the encoder, and the step of a misaligned transaction. -/

namespace Sys2Proof

/-! ## Commands (30_encoding.md R83) -/

theorem namedCommand_eq_false_iff (w : Word) : namedCommand w = false ↔ w ≠ 0 ∧ w ≠ 1 ∧ w ≠ 2 := by
  simp only [namedCommand, Bool.or_eq_false_iff, beq_eq_false_iff_ne, and_assoc]

theorem not_named_of_two_lt {w : Word} (h : 2 < w.toNat) : namedCommand w = false := by
  rw [namedCommand_eq_false_iff]
  refine ⟨?_, ?_, ?_⟩ <;> bv_omega

theorem decodeCmd_of_not_named {w : Word} (h : namedCommand w = false) : decodeCmd w = .cmdReserved w := by
  obtain ⟨h0, h1, h2⟩ := (namedCommand_eq_false_iff w).mp h
  rw [decodeCmd, if_neg h0, if_neg h1, if_neg h2]

theorem decodeCmd_wf (w : Word) : (decodeCmd w).wf = true := by
  unfold decodeCmd
  split_ifs with h0 h1 h2
  · rfl
  · rfl
  · rfl
  · simp [Instr.wf, (namedCommand_eq_false_iff w).mpr ⟨h0, h1, h2⟩]

/-! ## Transactions (30_encoding.md R81, R82) -/

theorem decodeHosttx_of_misaligned {tx : BitVec 72} (h : (hosttxOffset tx).extractLsb' 0 3 ≠ 0) :
    decodeHosttx tx = .rejected (if hosttxWe tx then .misalignedWrite else .misalignedRead) :=
  if_pos h

/-- An aligned transaction is a read, a command or a register write. -/
theorem decodeHosttx_of_aligned {tx : BitVec 72} (h : (hosttxOffset tx).extractLsb' 0 3 = 0) :
    decodeHosttx tx = .instr (
      if hosttxWe tx = false then .regRead (HostReg.ofIndex ((hosttxOffset tx).extractLsb' 3 4))
      else if hosttxOffset tx = 0 then decodeCmd (hosttxWdata tx)
      else .regWrite (HostReg.ofIndex ((hosttxOffset tx).extractLsb' 3 4)) (hosttxWdata tx)) := by
  rw [decodeHosttx, if_neg (not_not.mpr h)]
  split_ifs <;> rfl

theorem decodeHosttx_read (r : HostReg) (v : Word) : decodeHosttx (hosttxWord false r.offset v) = .instr (.regRead r) := by
  rw [decodeHosttx_of_aligned] <;> simp

@[simp] theorem decodeHosttx_commandTx (w : Word) : decodeHosttx (commandTx w) = .instr (decodeCmd w) := by
  rw [commandTx, decodeHosttx_of_aligned] <;> simp

theorem decodeHosttx_write {r : HostReg} (h : r ≠ .cmd) (v : Word) :
    decodeHosttx (hosttxWord true r.offset v) = .instr (.regWrite r v) := by
  rw [decodeHosttx_of_aligned] <;> simp [offset_eq_zero, h]

/-- Only index 0 names CMD (10_state.md R20). -/
theorem ofIndex_eq_cmd_iff (k : BitVec 4) : HostReg.ofIndex k = .cmd ↔ k = 0 := by
  revert k
  decide

/-- OFFSET is 0 when its alignment bits and its register index are. -/
theorem offset_eq_zero_of_fields {o : BitVec 7} (hlow : o.extractLsb' 0 3 = 0) (hindex : o.extractLsb' 3 4 = 0) : o = 0 := by
  revert o
  decide

theorem decodeHosttx_wf {tx : BitVec 72} {i : Instr} (h : decodeHosttx tx = .instr i) : i.wf = true := by
  by_cases hlow : (hosttxOffset tx).extractLsb' 0 3 = 0
  · rw [decodeHosttx_of_aligned hlow] at h
    cases h
    split_ifs with hread hcmd
    · rfl
    · exact decodeCmd_wf _
    · have hreg : HostReg.ofIndex ((hosttxOffset tx).extractLsb' 3 4) ≠ .cmd := fun hc =>
        hcmd (offset_eq_zero_of_fields hlow ((ofIndex_eq_cmd_iff _).mp hc))
      simp [Instr.wf, hreg]
  · rw [decodeHosttx_of_misaligned hlow] at h
    cases h

/-! ## The conditions as digits of the word's value (30_encoding.md R80) -/

theorem offset_low_eq_zero_iff (tx : BitVec 72) :
    (hosttxOffset tx).extractLsb' 0 3 = 0 ↔ tx.toNat / 2 ^ 64 % 8 = 0 := by
  rw [BitVec.toNat_eq, toNat_offset_low]
  rfl

theorem hosttxOffset_eq_zero_iff (tx : BitVec 72) : hosttxOffset tx = 0 ↔ tx.toNat / 2 ^ 64 % 128 = 0 := by
  rw [BitVec.toNat_eq, toNat_hosttxOffset]
  rfl

theorem hosttxWe_eq_false_iff (tx : BitVec 72) : hosttxWe tx = false ↔ tx.toNat / 2 ^ 71 = 0 := by
  have h := tx.isLt
  rw [hosttxWe_eq, decide_eq_false_iff_not]
  omega

theorem decodeHosttx_misaligned_digits {tx : BitVec 72} (h : tx.toNat / 2 ^ 64 % 8 ≠ 0) :
    decodeHosttx tx = .rejected (if tx.toNat / 2 ^ 71 = 1 then .misalignedWrite else .misalignedRead) := by
  rw [decodeHosttx_of_misaligned (mt (offset_low_eq_zero_iff tx).mp h)]
  simp only [hosttxWe_eq, decide_eq_true_eq]

/-! ## STATE codes (30_encoding.md R85) -/

theorem ofCode_eq_none_iff (c : BitVec 4) : Stage.ofCode c = none ↔ 12 ≤ c.toNat := by
  revert c
  decide

theorem decodeUstate_of_unused {c : BitVec 4} (h : 12 ≤ c.toNat) : decodeUstate c = .rejected .unusedStateCode := by
  rw [decodeUstate, (ofCode_eq_none_iff c).mpr h]

theorem decodeUstate_eq_instr {c : BitVec 4} {i : Instr} (h : decodeUstate c = .instr i) :
    ∃ st, Stage.ofCode c = some st ∧ microOperation st = some i := by
  unfold decodeUstate at h
  split at h
  · cases h
  · next st hst =>
    split at h
    · cases h
    · next j hj =>
      cases h
      exact ⟨st, hst, hj⟩

theorem microOperation_wf {st : Stage} {i : Instr} (h : microOperation st = some i) : i.wf = true := by
  cases st <;> cases h <;> rfl

/-! ## Decoding the encoder's words -/

/-- The transaction of a host operation decodes as its own word does: a command's is a write of it to CMD. -/
theorem decodeHosttx_hostTx {i : Instr} {tx : BitVec 72} (h : hostTx i = some tx) : decodeHosttx tx = decode (encode i) := by
  unfold hostTx at h
  split at h
  · next he => cases h; rw [he]; rfl
  · next he => cases h; rw [he]; exact decodeHosttx_commandTx _
  · cases h

/-- Settles O1, format by format: the fields of the word are read back, and the codes of the commands and of STATE are the
decoder's. -/
theorem decodeOfEncode : Obligations.DecodeOfEncode := by
  intro i hwf
  cases i with
  | regRead r => exact decodeHosttx_read r 0
  | regWrite r v => exact decodeHosttx_write (by simpa [Instr.wf] using hwf) v
  | cmdReserved w => exact congrArg _ (decodeCmd_of_not_named (by simpa [Instr.wf] using hwf))
  | _ => rfl

/-- Settles O2: the transaction decodes as the operation's own word does, and that is O1. -/
theorem transactionOfHostOperationDecodes : Obligations.TransactionOfHostOperationDecodes :=
  fun i _ hwf htx => (decodeHosttx_hostTx htx).trans (decodeOfEncode i hwf)

/-- Settles O3: each condition of the decoder is one on a digit of the word's value. -/
theorem everyTransactionHasOneOperation : Obligations.EveryTransactionHasOneOperation := by
  intro tx
  by_cases hlow : tx.toNat / 2 ^ 64 % 8 = 0
  · rw [if_neg (not_not.mpr hlow), decodeHosttx_of_aligned ((offset_low_eq_zero_iff tx).mpr hlow)]
    simp only [hosttxWe_eq_false_iff, hosttxOffset_eq_zero_iff, offset_index, hosttxWdata_eq]
    split_ifs <;> rfl
  · rw [if_pos hlow, decodeHosttx_misaligned_digits hlow]

/-- Settles O4. -/
theorem commandsAreComparedWhole : Obligations.CommandsAreComparedWhole :=
  ⟨decodeHosttx_commandTx, rfl, rfl, rfl, fun _ hw => congrArg _ (decodeCmd_of_not_named (not_named_of_two_lt hw))⟩

/-- Settles O6, format by format. -/
theorem decodedInstructionsAreWellFormed : Obligations.DecodedInstructionsAreWellFormed := by
  intro w i h
  cases w with
  | hosttx tx => exact decodeHosttx_wf h
  | cmdw word => cases h; exact decodeCmd_wf word
  | ustate code =>
    obtain ⟨st, _, hi⟩ := decodeUstate_eq_instr h
    exact microOperation_wf hi

end Sys2Proof

namespace Sys2Proof.Machine

/-- Settles O9: the step settles the rejected word, which is a read or a write by its top bit. -/
theorem misalignedTransactions : Obligations.MisalignedTransactions := by
  intro s tx rest he hmis
  rw [step_event he, eventTurn, decodeHosttx_misaligned_digits hmis, turnOf, takeTurn_settled]
  split_ifs <;> rfl

/-- Settles O5: the place in STATUS is that of O12, and a code's micro-operation is that of the STATE it stands for. -/
theorem stateCodesSelectMicroOperations : Obligations.StateCodesSelectMicroOperations := by
  refine ⟨rfl, statusWord_stageField, rfl, rfl, rfl, rfl, rfl, rfl, rfl, rfl, rfl, fun c hc => ?_,
    fun c hc => decodeUstate_of_unused hc⟩
  obtain rfl | rfl | rfl := hc
  · exact decodeUstate_code .idle
  · exact decodeUstate_code .done
  · exact decodeUstate_code .error

end Sys2Proof.Machine
end

section
/-! The host interface of 40_host_interface.md: what each register reads as, what each register write and each command does
outside and during a call, the level of irq, and the turn a pending move gives. -/

namespace Sys2Proof.Machine

/-! ## Register reads (40_host_interface.md R100) -/

theorem bitWord_eq_ite (b : Bool) : bitWord b = if b then 1 else 0 := by cases b <;> rfl

theorem toNat_bitWord (b : Bool) : (bitWord b).toNat = b.toNat := by cases b <;> rfl

/-- The fields of STATUS share no bit, so their union is their sum. -/
theorem statusWord_eq_sum (s : State) :
    s.statusWord = BitVec.ofNat 64 ((if 1 ≤ s.stage.code.toNat ∧ s.stage.code.toNat ≤ 9 then 1 else 0)
      + (if s.stage.code.toNat = 10 then 2 else 0) + (if s.stage.code.toNat = 11 then 4 else 0)
      + (if s.cmdDropped then 8 else 0) + 256 * s.stage.code.toNat) := by
  unfold State.statusWord State.busy State.isDone State.isError
  cases s.stage <;> cases s.cmdDropped <;> rfl

/-- In IDLE with no dropped command STATUS reads 0. -/
theorem statusWord_eq_zero {s : State} (hs : s.stage = .idle) (hd : s.cmdDropped = false) : s.statusWord = 0 := by
  simp [statusWord_eq_sum, hs, hd, Stage.code]

/-- What is pending is read in no register. -/
theorem readRegister_setEvents (r : HostReg) (ev : List Event) (s : State) :
    readRegister r { s with events := ev } = readRegister r s := by
  cases r <;> rfl

/-- Settles O11: the flags of STATUS are those of its sum, ERR_CODE is zero-extended, IRQ_EN is a bit, and every other
register is read as it stands. -/
theorem regReadReturnsTheRegister : Obligations.RegReadReturnsTheRegister := by
  refine ⟨rfl, decodeHosttx_read, fun s => ⟨rfl, ?_, ?_, rfl, ?_, rfl, rfl, rfl, rfl, rfl, rfl, rfl, rfl, rfl, rfl, rfl⟩⟩
  · rw [← statusWord_eq_sum]
    rfl
  · rw [BitVec.ofNat_toNat]
    rfl
  · rw [← bitWord_eq_ite]
    rfl

/-! ## Register writes (40_host_interface.md R102, R103, R104) -/

/-- Settles O13: the write is of a register that holds no written value. -/
theorem writeToReadOnlyRegisterIgnored : Obligations.WriteToReadOnlyRegisterIgnored :=
  fun _ _ => ⟨rfl, rfl, rfl⟩

/-- The registers from offset 0x28 on are the descriptors (10_state.md R20). -/
theorem writeRegister_of_descriptor {r : HostReg} (h : 5 ≤ r.index.toNat) (v : Word) (s : State) :
    writeRegister r v s = writeDescriptor r v s := by
  cases r
  case cmd | status | errCode | errAddr | irqEn => exact absurd h (by decide)
  all_goals rfl

/-- A written descriptor is the one register that reads otherwise. -/
theorem readRegister_setDescriptor (r r' : HostReg) (v : Word) (s : State) :
    readRegister r' { s with desc := setDescriptor r v s.desc }
      = if r' = r ∧ 5 ≤ r.index.toNat then v else readRegister r' s := by
  cases r <;> cases r' <;> rfl

/-- Settles O15: outside a call the write sets one descriptor, during one it is ignored. -/
theorem descriptorWrite : Obligations.DescriptorWrite := by
  intro s r v hr
  have hx : exec (.regWrite r v) s = .next (writeDescriptor r v s) := congrArg _ (writeRegister_of_descriptor hr v s)
  rw [hx]
  refine ⟨fun hb => ?_, fun hb => congrArg _ (if_pos hb)⟩
  have hw : writeDescriptor r v s = { s with desc := setDescriptor r v s.desc } := if_neg (by simp [hb])
  refine ⟨_, congrArg _ hw, rfl, ?_, fun r' hne => ?_⟩
  · rw [readRegister_setDescriptor, if_pos ⟨rfl, hr⟩]
  · rw [readRegister_setDescriptor, if_neg fun h => hne h.1]

/-! ## Commands (40_host_interface.md R105 to R109) -/

/-- Settles O16. -/
theorem nopHasNoEffect : Obligations.NopHasNoEffect := ⟨decodeHosttx_commandTx 0, fun _ => rfl⟩

/-- Settles O17: START begins a call, or is dropped during one. -/
theorem startBeginsACall : Obligations.StartBeginsACall :=
  ⟨decodeHosttx_commandTx 1, fun _ => ⟨fun hb => congrArg _ (startCommand_of_not_busy hb),
    fun hb => congrArg _ (startCommand_of_busy hb)⟩⟩

/-- Settles O18: CLEAR returns to IDLE, where STATUS reads 0, or is dropped during a call. -/
theorem clearReturnsToIdle : Obligations.ClearReturnsToIdle :=
  ⟨decodeHosttx_commandTx 2, fun s => ⟨fun hb => ⟨returnToIdle s, congrArg _ (clearCommand_of_not_busy hb), rfl,
    statusWord_eq_zero (returnToIdle_stage s) (returnToIdle_cmdDropped s)⟩,
    fun hb => congrArg _ (clearCommand_of_busy hb)⟩⟩

/-- Settles O19: a reserved command takes the error BAD_COMMAND, or is dropped during a call. -/
theorem reservedCommandRaisesBadCommand : Obligations.ReservedCommandRaisesBadCommand :=
  ⟨rfl, fun _ hw => ⟨congrArg _ (decodeCmd_of_not_named (not_named_of_two_lt hw)),
    fun _ => ⟨fun hb => congrArg _ (reservedCommand_of_not_busy hb), fun hb => congrArg _ (reservedCommand_of_busy hb)⟩⟩⟩

/-- Settles O20, command by command. -/
theorem commandsAreDroppedDuringACall : Obligations.CommandsAreDroppedDuringACall :=
  fun _ hb => ⟨congrArg _ (startCommand_of_busy hb), congrArg _ (clearCommand_of_busy hb),
    fun _ _ => congrArg _ (reservedCommand_of_busy hb)⟩

/-! ## During a call (40_host_interface.md R104, R105, R109, 10_state.md R25) -/

/-- A host operation always completes: it accesses no data memory. -/
theorem hostOperation_completes {i : Instr} (hi : hostTx i ≠ none) (s : State) : ∃ t, exec i s = .next t := by
  cases i with
  | regRead r => exact ⟨_, rfl⟩
  | regWrite r v => exact ⟨_, rfl⟩
  | nop => exact ⟨_, rfl⟩
  | start => exact ⟨_, rfl⟩
  | clear => exact ⟨_, rfl⟩
  | cmdReserved w => exact ⟨_, rfl⟩
  | _ => exact absurd rfl hi

/-- Settles O21: a host operation completes, and of what it can do only the first way is open during a call. -/
theorem hostOperationsCannotDisturbACall : Obligations.HostOperationsCannotDisturbACall := by
  intro i tx s htx hb
  have hi : hostTx i ≠ none := by simp [htx]
  obtain ⟨t, hx⟩ := hostOperation_completes hi s
  refine ⟨t, hx, ?_⟩
  rcases hostOperation_cases hi hx with ht | ⟨hnb, _⟩ | ⟨hnb, _⟩
  · exact ht
  · exact absurd (hb.symm.trans hnb) (by decide)
  · exact absurd (hb.symm.trans hnb) (by decide)

/-! ## irq (40_host_interface.md R103, R110) -/

theorem irq_iff (s : State) : s.irq = true ↔ s.irqEn = true ∧ (s.stage = .done ∨ s.stage = .error) := by
  simp [State.irq, State.isDone, State.isError]

theorem irq_of_not_enabled {s : State} (h : s.irqEn = false) : s.irq = false := by
  rw [State.irq, h, Bool.false_and]

/-- After the end of a call irq is IRQ_EN. -/
theorem irq_of_callEnded {s : State} (h : s.callEnded = true) : s.irq = s.irqEn := by
  rw [State.callEnded] at h
  rw [State.irq, h, Bool.and_true]

theorem irq_of_not_callEnded {s : State} (h : s.callEnded = false) : s.irq = false := by
  rw [State.callEnded] at h
  rw [State.irq, h, Bool.and_false]

/-- Settles O14: IRQ_EN takes bit 0 of the value, and STATE stays. -/
theorem writeIrqEnTakesEffectAtOnce : Obligations.WriteIrqEnTakesEffectAtOnce := by
  intro s v
  have hbit : (v.getLsbD 0).toNat = v.toNat % 2 := by
    rw [← BitVec.testBit_toNat, Nat.toNat_testBit, pow_zero, Nat.div_one]
  refine ⟨{ s with irqEn := v.getLsbD 0 }, rfl, rfl, (toNat_bitWord _).trans hbit, ?_⟩
  rw [irq_iff, ← hbit, Bool.toNat_eq_one]

/-- Settles O24: irq rises where a call ends, and falls where STATE leaves DONE and ERROR or IRQ_EN becomes 0. -/
theorem irqLevel : Obligations.IrqLevel := by
  intro s
  refine ⟨irq_iff s, irq_of_callEnded rfl, fun _ _ => irq_of_callEnded rfl, fun hb => ?_, fun hb => ?_, fun v hv => ?_,
    fun rest he => ?_⟩
  · exact ⟨beginCall s, congrArg _ (startCommand_of_not_busy hb), irq_of_not_callEnded rfl⟩
  · exact ⟨returnToIdle s, congrArg _ (clearCommand_of_not_busy hb), irq_of_not_callEnded rfl⟩
  · exact ⟨_, rfl, irq_of_not_enabled hv⟩
  · exact ⟨_, step_event he, irq_of_not_enabled rfl⟩

/-! ## Steps (40_host_interface.md R111, 30_encoding.md R82, R85, R94) -/

/-- The sequencer's turn runs what the STATE code decodes to. -/
theorem takeTurn_coreTurn {s : State} {i : Instr} (h : decode (.ustate s.stage.code) = .instr i) :
    takeTurn (coreTurn s) = exec i s := by
  change decodeUstate s.stage.code = .instr i at h
  rw [coreTurn, h, turnOf, takeTurn_run]

/-- Settles O8, pending move by pending move. -/
theorem stepRunsTheDecodedInstruction : Obligations.StepRunsTheDecodedInstruction := by
  intro s rest i
  refine ⟨fun tx he hi => ?_, fun he hi => ?_, fun he hi => ?_, fun reg mask value he => ?_⟩
  · change decodeHosttx tx = .instr i at hi
    rw [step_event he, eventTurn, hi, turnOf, takeTurn_run]
  · rw [step_event he]
    exact takeTurn_coreTurn (s := { s with events := rest }) hi
  · rw [step_noEvents he, takeTurn_coreTurn hi]
  · rw [step_event he, eventTurn, takeTurn_run, afterPoll, readRegister_setEvents]

end Sys2Proof.Machine
end

section
/-! The setup micro-operations of 41_setup.md, one after the other: VALIDATE against the causes of its errors, LOAD against
its two reads, DERIVE_SUBKEY, and BUILD_J0 with its fork on PT_LEN. -/

namespace Sys2Proof.Machine

/-! ## VALIDATE (41_setup.md R120, R121) -/

/-- The checks stand in the order of the codes, each with the cause of its code (60_exceptions.md R201 to R205, R208). -/
theorem validationError_eq_firstCause (p : Platform) (d : Descriptors) [DecidablePred (errorCause p d)] :
    validationError p d =
      if errorCause p d .invalidNonceLength then some .invalidNonceLength
      else if errorCause p d .lengthOverflow then some .lengthOverflow
      else if errorCause p d .bufferTooSmall then some .bufferTooSmall
      else if errorCause p d .addressRange then some .addressRange
      else if errorCause p d .bufferOverlap then some .bufferOverlap
      else none :=
  if_congr .rfl rfl <| if_congr .rfl rfl <| if_congr .rfl rfl <|
    if_congr (anyWraps_iff p d) rfl <| if_congr (badOverlap_iff p d) rfl rfl

theorem validationError_of_no_cause {p : Platform} {d : Descriptors} (h : ∀ code, ¬ errorCause p d code) :
    validationError p d = none := by
  classical
  simp only [validationError_eq_firstCause, h, if_false]

/-- No check before the cause's own fails, because no lower code has a cause. -/
theorem validationError_of_lowest_cause {p : Platform} {d : Descriptors} {code : ErrorCode} (hc : errorCause p d code)
    (hlow : ∀ lower : ErrorCode, lower.code.toNat < code.code.toNat → ¬ errorCause p d lower) :
    validationError p d = some code := by
  classical
  cases code with
  | none => exact hc.elim
  | busError => exact hc.elim
  | badCommand => exact hc.elim
  | _ => simp (disch := decide) only [validationError_eq_firstCause, hc, hlow, if_true, if_false]

theorem execValidate_of_none {s : State} (h : validationError s.platform s.desc = none) :
    execValidate s = .next { s with stage := .load } := by
  rw [execValidate, h]

theorem execValidate_of_some {s : State} {code : ErrorCode} (h : validationError s.platform s.desc = some code) :
    execValidate s = .next (raiseError code 0 s) := by
  rw [execValidate, h]

/-- Settles O25: the checks against their causes. -/
theorem validateReportsTheLowestCause : Obligations.ValidateReportsTheLowestCause :=
  ⟨rfl, fun _ => ⟨fun h => execValidate_of_none (validationError_of_no_cause h),
    fun _ hc hlow => execValidate_of_some (validationError_of_lowest_cause hc hlow)⟩⟩

/-! ## LOAD (41_setup.md R122) -/

/-- A nonce of twelve bytes holds the whole value of the string, first byte most significant (20_memory.md R65). -/
theorem toNat_nonceOfBytes {bytes : List Byte} (h : bytes.length = nonceBytes) :
    (nonceOfBytes bytes).toNat = natOfBytes bytes := by
  have hlt : natOfBytes bytes < 256 ^ nonceBytes := h ▸ natOfBytes_lt bytes
  rw [nonceOfBytes, BitVec.toNat_ofNat]
  exact Nat.mod_eq_of_lt hlt

/-- Nonce byte k is the byte of memory at offset k of the nonce's region. -/
theorem nonceOfBytes_readBytes_digit (m : Memory) (addr : Nat) {k : Nat} (hk : k < 12) :
    (nonceOfBytes (readBytes m addr nonceBytes)).toNat / 256 ^ (11 - k) % 256 = (readByte m (addr + k)).toNat := by
  have hlen : (readBytes m addr nonceBytes).length = 12 := length_readBytes m addr nonceBytes
  rw [toNat_nonceOfBytes hlen, ← getElem_readBytes m addr nonceBytes k (by omega), ← natOfBytes_digit, hlen]

/-- Error entry at an address held in a register: ERR_ADDR is that register (60_exceptions.md R206, R209). -/
theorem raiseError_toNat (code : ErrorCode) (addr : Word) (s : State) :
    raiseError code addr.toNat s = { s with
      errCode := code, errAddr := addr, stage := .error, dp := Datapath.zero s.platform.keyBytes } := by
  rw [raiseError, BitVec.ofNat_toNat, BitVec.setWidth_eq, zeroize]

theorem execLoad_ok {s : State} (hk : transactionOk s.platform s.desc.keyAddr.toNat s.platform.keyBytes .read = true)
    (hn : transactionOk s.platform s.desc.nonceAddr.toNat nonceBytes .read = true) :
    execLoad s = .next { s with
      dp := { s.dp with
        keyr := readBytes s.mem s.desc.keyAddr.toNat s.platform.keyBytes
        noncer := nonceOfBytes (readBytes s.mem s.desc.nonceAddr.toNat nonceBytes) }
      stage := .deriveSubkey } := by
  rw [execLoad, memRead_ok hk, bind_ok, memRead_ok hn, bind_ok, finish_ok]

/-- After a denied key read the nonce is not read. -/
theorem execLoad_key_denied {s : State}
    (hk : transactionDenied s.platform s.desc.keyAddr.toNat s.platform.keyBytes .read = true) :
    execLoad s = .next (raiseError .busError s.desc.keyAddr.toNat s) := by
  rw [execLoad, memRead_denied hk, bind_raised, finish_raised]

theorem execLoad_nonce_denied {s : State}
    (hk : transactionOk s.platform s.desc.keyAddr.toNat s.platform.keyBytes .read = true)
    (hn : transactionDenied s.platform s.desc.nonceAddr.toNat nonceBytes .read = true) :
    execLoad s = .next (raiseError .busError s.desc.nonceAddr.toNat s) := by
  rw [execLoad, memRead_ok hk, bind_ok, memRead_denied hn, bind_raised, finish_raised]

/-- Settles O26, read by read; NONCER's digits are the bytes the nonce read returns. -/
theorem loadCopiesKeyAndNonce : Obligations.LoadCopiesKeyAndNonce := by
  refine ⟨rfl, fun s => ⟨fun hk hn => ⟨_, execLoad_ok hk hn, fun _ h12 => nonceOfBytes_readBytes_digit _ _ h12⟩,
    fun hk => ?_, fun hk hn => ?_⟩⟩
  · exact (execLoad_key_denied hk).trans (congrArg _ (raiseError_toNat _ _ s))
  · exact (execLoad_nonce_denied hk hn).trans (congrArg _ (raiseError_toNat _ _ s))

/-! ## DERIVE_SUBKEY and BUILD_J0 (41_setup.md R124, R125) -/

/-- Settles O27: it is the arm itself. -/
theorem deriveSubkeyWritesH : Obligations.DeriveSubkeyWritesH := ⟨rfl, fun _ => rfl⟩

/-- There is a keystream pair exactly when there is plaintext (10_state.md R50). -/
theorem pairs_pos_iff (d : Descriptors) : 0 < d.pairs ↔ d.ptLen ≠ 0 := by
  have hz : d.ptLen = 0 ↔ d.ptLen.toNat = 0 := BitVec.toNat_inj.symm
  rw [ne_eq, hz, Descriptors.pairs, Descriptors.ptBlocks, nblocks]
  omega

/-- Settles O28: no pair is the fork's PT_LEN = 0, and J0 is the nonce above 32 zero bits. -/
theorem buildJ0FormsTheInitialCounterBlock : Obligations.BuildJ0FormsTheInitialCounterBlock := by
  refine ⟨rfl, fun s => ⟨_, ?_, toNat_initialCounterBlock s.dp.noncer⟩⟩
  change execBuildJ0 s = _
  simp only [execBuildJ0, pairs_pos_iff, ne_eq, ite_not]

end Sys2Proof.Machine
end

section
/-! KEYSTREAM (42_keystream_generator.md): the counters of a valid call, and one pair, lane after lane, when its transactions
complete and when one of them is denied. -/

namespace Sys2Proof.Machine

/-! ## The counters (42_keystream_generator.md R148) -/

/-- Settles O33: PT_MAX bounds the blocks of a valid call, and the counter field of a counter block is mod 2^32. -/
theorem appliedCountersDoNotWrap : Obligations.AppliedCountersDoNotWrap := by
  refine ⟨fun p d h => ?_, fun n => BitVec.eq_of_toNat_eq ?_⟩
  · have hc := (validationError_eq_none.mp h).counts.1
    exact ⟨hc, fun i hi => by omega⟩
  · rw [toNat_counterBlock_initial, toNat_initialCounterBlock, show (1 + (2 ^ 32 - 1)) % 2 ^ 32 = 0 by rfl, Nat.add_zero]

/-! ## Ciphertext in place of memory's bytes (42_keystream_generator.md R149) -/

/-- Byte k of keystream block i, as a byte of the keystream. -/
theorem keystreamByte_block (encrypt : List Byte → Block → Block) (key : List Byte) (j0 : Block) (i : Nat) {k : Nat}
    (hk : k < 16) : keystreamByte encrypt key j0 (16 * i + k) = blockByte (keystreamBlock encrypt key j0 i) k := by
  rw [keystreamByte, show (16 * i + k) / 16 = i by omega, show (16 * i + k) % 16 = k by omega]

/-- `m'` is `m` with the ciphertext bytes from offset `a` up to offset `b` written: plaintext XOR the keystream `ks`. -/
def Encrypts (d : Descriptors) (ks : Nat → Byte) (m : Memory) (a b : Nat) (m' : Memory) : Prop :=
  ∀ x, readByte m' x =
    if d.ctAddr.toNat + a ≤ x ∧ x < d.ctAddr.toNat + b then
      readByte m (d.ptAddr.toNat + (x - d.ctAddr.toNat)) ^^^ ks (x - d.ctAddr.toNat)
    else readByte m x

theorem Encrypts.outside {d : Descriptors} {ks : Nat → Byte} {m m' : Memory} {a b x : Nat} (h : Encrypts d ks m a b m')
    (hx : ¬ (d.ctAddr.toNat + a ≤ x ∧ x < d.ctAddr.toNat + b)) : readByte m' x = readByte m x := by
  rw [h x, if_neg hx]

theorem Encrypts.inside {d : Descriptors} {ks : Nat → Byte} {m m' : Memory} {a b t : Nat} (h : Encrypts d ks m a b m')
    (ha : a ≤ t) (hb : t < b) :
    readByte m' (d.ctAddr.toNat + t) = readByte m (d.ptAddr.toNat + t) ^^^ ks t := by
  rw [h, if_pos (by omega), Nat.add_sub_cancel_left]

/-- In a valid call the plaintext after the bytes written is still there: the two regions are the same or share no byte. -/
theorem Encrypts.plaintext {p : Platform} {d : Descriptors} {ks : Nat → Byte} {m m' : Memory} {a b t : Nat}
    (h : Encrypts d ks m a b m') (hv : Valid p d) (hb : b ≤ t) (ht : t < d.ptLen.toNat) :
    readByte m' (d.ptAddr.toNat + t) = readByte m (d.ptAddr.toNat + t) := by
  refine h.outside fun hx => ?_
  rcases hv.inPlaceOrApart with he | he
  · rw [he] at hx
    omega
  · exact he ⟨d.ptAddr.toNat + t, by simp only [AddrRange.has, ctRegion, ptRegion]; omega⟩

/-- In a valid call one stretch and the next make one. -/
theorem Encrypts.trans {p : Platform} {d : Descriptors} {ks : Nat → Byte} {m m1 m2 : Memory} {a b c : Nat}
    (h1 : Encrypts d ks m a b m1) (h2 : Encrypts d ks m1 b c m2) (hv : Valid p d) (hab : a ≤ b) (hbc : b ≤ c)
    (hc : c ≤ d.ptLen.toNat) : Encrypts d ks m a c m2 := by
  intro x
  by_cases hx : d.ctAddr.toNat + b ≤ x ∧ x < d.ctAddr.toNat + c
  · rw [h2 x, if_pos hx, if_pos (by omega), h1.plaintext hv (by omega) (by omega)]
  · rw [h2.outside hx, h1 x]
    exact if_congr (by omega) rfl rfl

/-- One block written under its keystream block. -/
theorem Encrypts.of_block {d : Descriptors} {encrypt : List Byte → Block → Block} {key : List Byte} {j0 : Block}
    {m m' : Memory} {i n : Nat} (hn : n ≤ 16)
    (h : ∀ x, readByte m' x =
      if d.ctAddr.toNat + 16 * i ≤ x ∧ x < d.ctAddr.toNat + 16 * i + n then
        readByte m (d.ptAddr.toNat + 16 * i + (x - (d.ctAddr.toNat + 16 * i)))
          ^^^ blockByte (keystreamBlock encrypt key j0 i) (x - (d.ctAddr.toNat + 16 * i))
      else readByte m x) :
    Encrypts d (keystreamByte encrypt key j0) m (16 * i) (16 * i + n) m' := by
  intro x
  rw [h x, ← Nat.add_assoc]
  split_ifs with hx
  · obtain ⟨k, rfl⟩ := Nat.exists_eq_add_of_le hx.1
    have hk : d.ctAddr.toNat + 16 * i + k - d.ctAddr.toNat = 16 * i + k := by omega
    rw [hk, Nat.add_sub_cancel_left, keystreamByte_block encrypt key j0 i (by omega), Nat.add_assoc]
  · rfl

/-- A block of the string starts inside it. -/
theorem min_blockStart {len i : Nat} (hi : i < nblocks len) : min (16 * i) len = 16 * i := by
  simp only [nblocks] at hi
  omega

/-- A block of the string ends before the next one, or with the string. -/
theorem min_blockEnd {len i : Nat} (hi : i < nblocks len) : min (16 * (i + 1)) len = 16 * i + blockLen len i := by
  simp only [nblocks] at hi
  simp only [blockLen, blockBytes]
  omega

/-! ## One lane (42_keystream_generator.md R145 to R147) -/

/-- KEYSTREAM before, between and after its lanes: CB and KS are loaded, and memory is `m`. -/
def duringPair (s : State) (m : Memory) : State := { loadLanes s with mem := m }

theorem sameOutside_duringPair (s : State) (m : Memory) : SameOutside s (duringPair s m) :=
  ⟨rfl, rfl, rfl, rfl, rfl, rfl, rfl, rfl, rfl⟩

/-- CB and KS of both lanes, with the counters 1 + 2p and 2 + 2p (42_keystream_generator.md R145). -/
theorem loadLanes_dp (s : State) :
    (loadLanes s).dp = { s.dp with
      cb0 := counterBlock s.dp.j0 (1 + 2 * s.dp.pIdx.toNat)
      cb1 := counterBlock s.dp.j0 (2 + 2 * s.dp.pIdx.toNat)
      ks0 := Config.encrypt s.dp.keyr (counterBlock s.dp.j0 (1 + 2 * s.dp.pIdx.toNat))
      ks1 := Config.encrypt s.dp.keyr (counterBlock s.dp.j0 (2 + 2 * s.dp.pIdx.toNat)) } := by
  rw [show 2 + 2 * s.dp.pIdx.toNat = 1 + (2 * s.dp.pIdx.toNat + 1) by omega]
  rfl

/-- KEYSTREAM is block 2p, then block 2p + 1, each under its keystream block (42_keystream_generator.md R143, R144). -/
theorem exec_keystreamPair_eq (s : State) :
    exec .keystreamPair s =
      ((laneStep memWrite (2 * s.dp.pIdx.toNat)
          (keystreamBlock Config.encrypt s.dp.keyr s.dp.j0 (2 * s.dp.pIdx.toNat)) (duringPair s s.mem)).bind fun s' =>
        laneStep memWrite (2 * s.dp.pIdx.toNat + 1)
          (keystreamBlock Config.encrypt s.dp.keyr s.dp.j0 (2 * s.dp.pIdx.toNat + 1)) s').finish advancePair := rfl

/-- Without a buffer hazard, a lane whose transactions complete encrypts its block, in memory alone. Past the last block it
has no transactions, and no bytes to encrypt. -/
theorem lane_encrypts {s : State} {m : Memory} {i : Nat} (hm : m.wf = true) (hz : s.hazard = false)
    (hok : i < s.desc.ptBlocks →
      transactionOk s.platform (s.desc.ptAddr.toNat + 16 * i) (blockLen s.desc.ptLen.toNat i) .read = true
        ∧ transactionOk s.platform (s.desc.ctAddr.toNat + 16 * i) (blockLen s.desc.ptLen.toNat i) .write = true) :
    ∃ m' : Memory,
      laneStep memWrite i (keystreamBlock Config.encrypt s.dp.keyr s.dp.j0 i) (duringPair s m) = .ok (duringPair s m')
      ∧ m'.wf = true
      ∧ Encrypts s.desc (keystreamByte Config.encrypt s.dp.keyr s.dp.j0) m (min (16 * i) s.desc.ptLen.toNat)
          (min (16 * (i + 1)) s.desc.ptLen.toNat) m' := by
  by_cases hi : i < s.desc.ptBlocks
  · obtain ⟨hr, hw⟩ := hok hi
    have hz' : (duringPair s m).hazard = false := hz
    have ha := (transactionOk_iff.mp hw).1
    have hlane := laneStep_ok (ks := keystreamBlock Config.encrypt s.dp.keyr s.dp.j0 i) (s := duringPair s m) hi hr hw
    have hbytes := readByte_lane (keystreamBlock Config.encrypt s.dp.keyr s.dp.j0 i) hm hz' ha
    rw [completeWrite_of_no_hazard hz'] at hlane hbytes
    refine ⟨_, hlane, lane_ok_wf hlane hm, ?_⟩
    rw [min_blockStart hi, min_blockEnd hi]
    exact Encrypts.of_block (blockLen_le _ i) hbytes
  · have hp : s.desc.ptLen.toNat ≤ 16 * i := by
      simp only [Descriptors.ptBlocks, nblocks] at hi
      omega
    exact ⟨m, laneStep_none (Nat.le_of_not_lt hi), hm, fun x => (if_neg (by omega)).symm⟩

/-- Without a buffer hazard, a lane whose write is denied raises BUS_ERROR at its ciphertext block, of which each byte is the
old one or the one the lane means to write; no other byte changes (20_memory.md R63, 60_exceptions.md R211). -/
theorem lane_writeDenied {s : State} {m : Memory} {i : Nat} (ks : Block) (hm : m.wf = true) (hz : s.hazard = false)
    (hi : i < s.desc.ptBlocks)
    (hr : transactionOk s.platform (s.desc.ptAddr.toNat + 16 * i) (blockLen s.desc.ptLen.toNat i) .read = true)
    (hw : transactionDenied s.platform (s.desc.ctAddr.toNat + 16 * i) (blockLen s.desc.ptLen.toNat i) .write = true) :
    ∃ (m' : Memory) (draws : Nat),
      laneStep memWrite i ks (duringPair s m)
        = .raised (raiseError .busError (s.desc.ctAddr.toNat + 16 * i) { s with mem := m', draws := draws })
      ∧ (∀ x, ¬ (s.desc.ctAddr.toNat + 16 * i ≤ x ∧ x < s.desc.ctAddr.toNat + 16 * i + blockLen s.desc.ptLen.toNat i) →
        readByte m' x = readByte m x)
      ∧ ∀ k < blockLen s.desc.ptLen.toNat i,
        readByte m' (s.desc.ctAddr.toNat + 16 * i + k) = readByte m (s.desc.ctAddr.toNat + 16 * i + k)
        ∨ readByte m' (s.desc.ctAddr.toNat + 16 * i + k)
          = readByte m (s.desc.ptAddr.toNat + 16 * i + k) ^^^ blockByte ks k := by
  have hlen : (laneBytes (duringPair s m) i ks).length = blockLen s.desc.ptLen.toNat i := length_laneBytes _ i ks
  have ha := hlen ▸ (transactionDenied_iff.mp hw).1
  refine ⟨_, _, laneStep_writeDenied (s := duringPair s m) (ks := ks) hi hr hw, fun x hx => ?_, fun k hk => ?_⟩
  · exact drawnWrite_outside (s := duringPair s m) hm ha (by rwa [hlen])
  · have hk' := hlen ▸ hk
    have hnew := getElem_laneBytes (duringPair s m) i ks k hk'
    exact hnew ▸ drawnWrite_inside (s := duringPair s m) hm hz ha hk'

/-! ## One pair (42_keystream_generator.md R145) -/

/-- Settles O30: the two lanes encrypt one stretch of the plaintext, and the end of the pair advances P_IDX. -/
theorem keystreamPairEncryptsItsBlocks : Obligations.KeystreamPairEncryptsItsBlocks := by
  intro s hm hz hvalid hp hok
  have hv := validationError_eq_none.mp hvalid
  obtain ⟨m0, h0, hm0, he0⟩ := lane_encrypts (i := 2 * s.dp.pIdx.toNat) hm hz (hok 0 (by decide))
  obtain ⟨m1, h1, -, he1⟩ := lane_encrypts hm0 hz (hok 1 (by decide))
  have hfrom : min (16 * (2 * s.dp.pIdx.toNat)) s.desc.ptLen.toNat = 32 * s.dp.pIdx.toNat := by
    simp only [Descriptors.pairs, Descriptors.ptBlocks, nblocks] at hp
    omega
  have hto : 16 * (2 * s.dp.pIdx.toNat + 1 + 1) = 32 * s.dp.pIdx.toNat + 32 := by omega
  have he := he0.trans he1 hv (by omega) (by omega) (Nat.min_le_right _ _)
  rw [hfrom, hto] at he
  refine ⟨m1, ?_, he⟩
  rw [exec_keystreamPair_eq, h0, bind_ok, h1, finish_ok,
    advancePair_eq hv hp (sameOutside_duringPair s m1) ⟨rfl, rfl, rfl, rfl⟩, loadLanes_dp]
  rfl

/-! ## A bus error in a pair (60_exceptions.md R209, R211) -/

/-- Settles O31: the step ends in lane 0, over the memory it began with. -/
theorem keystreamBusErrorInLaneZero : Obligations.KeystreamBusErrorInLaneZero := by
  intro s hm hz hi rd wr n
  refine ⟨fun hr => ?_, fun hr hw => ?_⟩
  · rw [exec_keystreamPair_eq, laneStep_readDenied (s := duringPair s s.mem) hi hr]
    rfl
  · obtain ⟨m, draws, h0, hout, hin⟩ := lane_writeDenied
      (keystreamBlock Config.encrypt s.dp.keyr s.dp.j0 (2 * s.dp.pIdx.toNat)) hm hz hi hr hw
    refine ⟨m, draws, ?_, hout, hin⟩
    rw [exec_keystreamPair_eq, h0]
    rfl

/-- Settles O32: lane 0 encrypts its full block and leaves lane 1's plaintext, and the step ends in lane 1. -/
theorem keystreamBusErrorInLaneOne : Obligations.KeystreamBusErrorInLaneOne := by
  intro s hm hz hvalid hi rd wr n lane0 hr0 hw0
  have hv := validationError_eq_none.mp hvalid
  have hfull : blockLen s.desc.ptLen.toNat (2 * s.dp.pIdx.toNat) = 16 := blockLen_full hi
  have hend := blockLen_end (len := s.desc.ptLen.toNat) hi
  have hrd : rd + 16 = s.desc.ptAddr.toNat + 16 * (2 * s.dp.pIdx.toNat + 1) := by simp only [rd]; omega
  have hwr : wr + 16 = s.desc.ctAddr.toNat + 16 * (2 * s.dp.pIdx.toNat + 1) := by simp only [wr]; omega
  obtain ⟨m0, h0, hm0, he⟩ := lane_encrypts (i := 2 * s.dp.pIdx.toNat) hm hz fun _ => hfull.symm ▸ ⟨hr0, hw0⟩
  rw [Nat.min_eq_left (by omega), Nat.min_eq_left (by omega)] at he
  have hblock : lane0 m0 := fun k hk => by
    have hb := he.inside (t := 16 * (2 * s.dp.pIdx.toNat) + k) (by omega) (by omega)
    rwa [keystreamByte_block _ _ _ _ hk, ← Nat.add_assoc, ← Nat.add_assoc] at hb
  rw [hrd, hwr]
  refine ⟨fun hr => ⟨m0, ?_, hblock, fun x hx => he.outside hx⟩, fun hr hw => ?_⟩
  · rw [exec_keystreamPair_eq, h0, bind_ok, laneStep_readDenied (s := duringPair s m0) hi hr]
    rfl
  · obtain ⟨m1, draws, h1, hout, hin⟩ := lane_writeDenied
      (keystreamBlock Config.encrypt s.dp.keyr s.dp.j0 (2 * s.dp.pIdx.toNat + 1)) hm0 hz hi hr hw
    refine ⟨m1, draws, ?_, fun k hk => ?_, fun x hx => ?_, fun k hk => ?_⟩
    · rw [exec_keystreamPair_eq, h0, bind_ok, h1]
      rfl
    · rw [hout _ (by omega), hblock k hk]
    · rw [hout x (by omega), he.outside (by omega)]
    · have hcounter : 2 + 2 * s.dp.pIdx.toNat = 1 + (2 * s.dp.pIdx.toNat + 1) := by omega
      have hold := he.outside (x := s.desc.ctAddr.toNat + 16 * (2 * s.dp.pIdx.toNat + 1) + k) (by omega)
      have hplain := he.plaintext hv (t := 16 * (2 * s.dp.pIdx.toNat + 1) + k) (by omega) (by omega)
      rw [hcounter, ← hold, Nat.add_assoc s.desc.ptAddr.toNat, ← hplain, ← Nat.add_assoc]
      exact hin k hk

end Sys2Proof.Machine
end

section
/-! GHASH (43_ghash_accumulator.md): the set-up of the fold, one step of it for each kind of block, and the stream that holds
the trailer alone. -/

namespace Sys2Proof.Machine

/-! ## BUILD_GHASH (43_ghash_accumulator.md R164) -/

/-- Settles O35: the trailer is the two bit-lengths side by side. -/
theorem buildGhashSetsUpTheFold : Obligations.BuildGhashSetsUpTheFold :=
  ⟨rfl, fun _ => ⟨_, rfl, toNat_lengthTrailer _ _⟩⟩

/-! ## ACCUMULATE (43_ghash_accumulator.md R165) -/

/-- The zero-padded block of up to sixteen bytes of memory. -/
def readBlock (addr n : Nat) (s : State) : Access Block := (memRead addr n s).bind fun b => .ok (blockOfBytes b)

theorem ghashInput_aad {g : Nat} {s : State} (h : g < s.desc.aadBlocks) :
    ghashInput g s = readBlock (s.desc.aadAddr.toNat + 16 * g) (blockLen s.desc.aadLen.toNat g) s := if_pos h

theorem ghashInput_ciphertext {g : Nat} {s : State} (ha : s.desc.aadBlocks ≤ g)
    (hc : g < s.desc.aadBlocks + s.desc.ptBlocks) :
    ghashInput g s = readBlock (s.desc.ctAddr.toNat + 16 * (g - s.desc.aadBlocks))
      (blockLen s.desc.ptLen.toNat (g - s.desc.aadBlocks)) s := by
  rw [ghashInput, if_neg (Nat.not_lt.mpr ha), if_pos hc, readBlock]

theorem ghashInput_trailer {g : Nat} {s : State} (h : g = s.desc.aadBlocks + s.desc.ptBlocks) :
    ghashInput g s = .ok s.dp.tr := by
  rw [ghashInput, if_neg (by omega), if_neg (by omega)]

theorem readBlock_ok {addr n : Nat} {s : State} (h : transactionOk s.platform addr n .read = true) :
    readBlock addr n s = .ok (blockOfBytes (readBytes s.mem addr n)) := by
  rw [readBlock, memRead_ok h, bind_ok]

theorem readBlock_denied {addr n : Nat} {s : State} (h : transactionDenied s.platform addr n .read = true) :
    readBlock addr n s = .raised (raiseError .busError addr s) := by
  rw [readBlock, memRead_denied h, bind_raised]

/-- ACCUMULATE folds the block that the stream answers. -/
theorem execAccumulate_ok {s : State} {b : Block} (h : ghashInput s.dp.gIdx.toNat s = .ok b) :
    execAccumulate s = .next (advanceGhash s b) := by
  rw [execAccumulate, h, finish_ok]

/-- ACCUMULATE enters ERROR when the stream does, before Y and G_IDX change. -/
theorem execAccumulate_raised {s t : State} (h : ghashInput s.dp.gIdx.toNat s = .raised t) : execAccumulate s = .next t := by
  rw [execAccumulate, h, finish_raised]

/-- Settles O36: G_IDX selects the block, the read answers it or is denied, and the fold advances while a block is left. -/
theorem accumulateFoldsTheNextBlock : Obligations.AccumulateFoldsTheNextBlock := by
  refine ⟨rfl, fun s => ?_⟩
  intro g aad ct aadN ctN folded failed
  have hfold : ∀ b, g ≤ s.desc.aadBlocks + s.desc.ptBlocks → ghashInput g s = .ok b →
      exec .accumulate s = .next (folded b) := fun b hg hb =>
    (execAccumulate_ok hb).trans (congrArg _ (advanceGhash_eq s b (Nat.lt_succ_of_le hg)))
  have hpad : ∀ addr len i, ∀ k < 16, blockByte (blockOfBytes (readBytes s.mem addr (blockLen len i))) k
      = if k < blockLen len i then readByte s.mem (addr + k) else 0 := fun _ _ _ _ hk =>
    blockByte_read _ _ _ _ (blockLen_le _ _) hk
  refine ⟨fun hg hr => ⟨_, hfold _ (by omega) ?_, hpad _ _ _⟩, fun hg hr => execAccumulate_raised ?_,
    fun ha hc hr => ⟨_, hfold _ hc.le ?_, hpad _ _ _⟩, fun ha hc hr => execAccumulate_raised ?_,
    fun hg => hfold _ hg.le (ghashInput_trailer hg)⟩
  · exact (ghashInput_aad hg).trans (readBlock_ok hr)
  · exact (ghashInput_aad hg).trans (readBlock_denied hr)
  · exact (ghashInput_ciphertext ha hc).trans (readBlock_ok hr)
  · exact (ghashInput_ciphertext ha hc).trans (readBlock_denied hr)

/-! ## The trailer-only stream (43_ghash_accumulator.md R168) -/

theorem lengthTrailer_zero : lengthTrailer 0 0 = 0#128 :=
  BitVec.eq_of_toNat_eq (toNat_lengthTrailer 0 0 (by decide) (by decide))

/-- GHASH of no AAD and no ciphertext folds the trailer of two zero lengths into Y = 0. -/
theorem ghash_nil_nil (mul : Block → Block → Block) (h : Block) : ghash mul h [] [] = mul 0#128 h := by
  change mul (0#128 ^^^ lengthTrailer 0 0) h = mul 0#128 h
  rw [lengthTrailer_zero, BitVec.xor_zero]

/-- Settles O37: the one fold, then the zero law of the multiplier. -/
theorem ghashOfNothingIsZero : Obligations.GhashOfNothingIsZero := fun mul h =>
  ⟨ghash_nil_nil mul h, fun hmul => (ghash_nil_nil mul h).trans (hmul.zero_mul h)⟩

end Sys2Proof.Machine
end

section
/-! The tag finalizer (44_tag_finalizer.md): the mask, the tag write when it completes and when it is denied, what GCM_ENC of
44_tag_finalizer.md R186 gives on empty inputs and undoes, and the independence of a micro-operation from the host's side. -/

namespace Sys2Proof.Machine

/-! ## COMPUTE_MASK (44_tag_finalizer.md R180, R184) -/

/-- Settles O38: it is the arm itself. -/
theorem computeMaskEncryptsJ0 : Obligations.ComputeMaskEncryptsJ0 := ⟨rfl, fun _ => rfl⟩

/-- J0 holds nothing but the nonce above 32 zero bits. -/
theorem initialCounterBlock_eq_zero_iff (n : Nonce) : initialCounterBlock n = 0#128 ↔ n = 0#96 := by
  rw [← BitVec.toNat_inj, ← BitVec.toNat_inj, toNat_initialCounterBlock, BitVec.toNat_zero, BitVec.toNat_zero]
  omega

/-- A counter that does not wrap to 0 gives no counter block equal to J0. -/
theorem initialCounterBlock_ne_counterBlock {n : Nonce} {c : Nat} (h : c % 2 ^ 32 ≠ 0) :
    initialCounterBlock n ≠ counterBlock (initialCounterBlock n) c := by
  rw [ne_eq, ← BitVec.toNat_inj, toNat_initialCounterBlock, toNat_counterBlock_initial]
  omega

/-- Counter blocks over one nonce are equal when their counter fields are. -/
theorem counterBlock_initial_inj {n : Nonce} {c c' : Nat}
    (h : counterBlock (initialCounterBlock n) c = counterBlock (initialCounterBlock n) c') : c % 2 ^ 32 = c' % 2 ^ 32 := by
  rw [← BitVec.toNat_inj, toNat_counterBlock_initial, toNat_counterBlock_initial] at h
  omega

/-- Settles O34: a permutation keeps blocks apart, and the counters 0 and 1 + i of a valid call are apart. -/
theorem maskIsNeverKeystream : Obligations.MaskIsNeverKeystream := by
  intro encrypt hperm p d key n hvalid
  have hinj := (hperm key).injective
  have hcount := (validationError_eq_none.mp hvalid).counts.1
  refine ⟨fun i hi => hinj.ne (initialCounterBlock_ne_counterBlock (by omega)), fun i hi j hj hij => hinj.ne fun he => ?_, ?_⟩
  · have hfield := counterBlock_initial_inj he
    omega
  · rw [hinj.eq_iff, initialCounterBlock_eq_zero_iff]

/-! ## FINALIZE_TAG (44_tag_finalizer.md R181 to R183) -/

/-- The tag write completes, and the call is over. -/
theorem execFinalizeTag_ok {s : State} (hz : s.hazard = false)
    (h : transactionOk s.platform s.desc.tagAddr.toNat 16 .write = true) :
    execFinalizeTag s = .next { s with
      stage := .done, dp := Datapath.zero s.platform.keyBytes
      mem := writeBytes s.mem s.desc.tagAddr.toNat (bytesOfBlock (s.dp.y ^^^ s.dp.m)) } := by
  have hw : memWrite s.desc.tagAddr.toNat (bytesOfBlock (formTag s).dp.t) (formTag s) = _ :=
    memWrite_ok (by rw [length_bytesOfBlock]; exact h)
  rw [execFinalizeTag, hw, completeWrite_of_no_hazard (s := formTag s) hz]
  rfl

/-- The tag write is denied. -/
theorem execFinalizeTag_denied {s : State} (h : transactionDenied s.platform s.desc.tagAddr.toNat 16 .write = true) :
    execFinalizeTag s = .next (raiseError .busError s.desc.tagAddr.toNat
      (drawnWrite s.desc.tagAddr.toNat (bytesOfBlock (s.dp.y ^^^ s.dp.m)) (formTag s))) := by
  have hw : memWrite s.desc.tagAddr.toNat (bytesOfBlock (formTag s).dp.t) (formTag s) = _ :=
    memWrite_denied (by rw [length_bytesOfBlock]; exact h)
  rw [execFinalizeTag, hw]
  rfl

/-- What a read sees after a block is written: the block's byte inside it, the old byte outside. -/
theorem readByte_writeBlock {m : Memory} {addr : Nat} (b : Block) (hm : m.wf = true) (ha : addr + 16 ≤ addressSpace) (x : Nat) :
    readByte (writeBytes m addr (bytesOfBlock b)) x
      = if addr ≤ x ∧ x < addr + 16 then blockByte b (x - addr) else readByte m x := by
  rw [readByte_writeBytes addr _ x hm (by simpa using ha)]
  simp only [length_bytesOfBlock, getElem_bytesOfBlock, dite_eq_ite]

/-- Settles O39: the write of the sixteen bytes of T, whole or drawn, then the end of the call. -/
theorem finalizeTagStoresTheTag : Obligations.FinalizeTagStoresTheTag := by
  refine ⟨rfl, fun s hm hz => ⟨fun hok => ?_, fun hdenied => ?_⟩⟩
  · exact ⟨_, execFinalizeTag_ok hz hok, readByte_writeBlock _ hm (transactionOk_iff.mp hok).1⟩
  · have ha : s.desc.tagAddr.toNat + (bytesOfBlock (s.dp.y ^^^ s.dp.m)).length ≤ addressSpace := by
      rw [length_bytesOfBlock]
      exact (transactionDenied_iff.mp hdenied).1
    refine ⟨_, _, (execFinalizeTag_denied hdenied).trans (congrArg _ (raiseError_toNat _ _ _)), fun x hx => ?_,
      fun k hk => ?_⟩
    · exact drawnWrite_outside (s := formTag s) hm ha (by rwa [length_bytesOfBlock])
    · have hk' : k < (bytesOfBlock (s.dp.y ^^^ s.dp.m)).length := by rwa [length_bytesOfBlock]
      rw [← getElem_bytesOfBlock _ k hk']
      exact drawnWrite_inside (s := formTag s) hm hz ha hk'

/-! ## GCM_ENC (44_tag_finalizer.md R185 to R189) -/

/-- Settles O57: GHASH of nothing is zero, and the zero nonce's J0 is the zero block. -/
theorem zeroLengthTag : Obligations.ZeroLengthTag := by
  intro encrypt mul key n hmul
  have htag : ∀ n, gcmTag encrypt mul key n [] [] = encrypt key (initialCounterBlock n) := fun n => by
    rw [gcmTag, ghash_nil_nil, hmul.zero_mul, BitVec.zero_xor]
  exact ⟨rfl, htag n, (htag 0#96).trans (congrArg _ ((initialCounterBlock_eq_zero_iff 0#96).mpr rfl))⟩

@[simp] theorem length_keystream (encrypt : List Byte → Block → Block) (key : List Byte) (j0 : Block) (n : Nat) :
    (keystream encrypt key j0 n).length = n := by
  simp [keystream]

theorem getElem_keystream (encrypt : List Byte → Block → Block) (key : List Byte) (j0 : Block) (n k : Nat)
    (h : k < (keystream encrypt key j0 n).length) :
    (keystream encrypt key j0 n)[k] = keystreamByte encrypt key j0 k := by
  simp [keystream]

/-- XOR with a string as long undoes itself. -/
theorem xorBytes_xorBytes_cancel {a b : List Byte} (h : b.length = a.length) : xorBytes (xorBytes a b) b = a := by
  apply List.ext_getElem (by simp [h])
  intro k h1 h2
  rw [getElem_xorBytes, getElem_xorBytes, BitVec.xor_assoc, BitVec.xor_self, BitVec.xor_zero]

@[simp] theorem length_gcmCiphertext (encrypt : List Byte → Block → Block) (key : List Byte) (n : Nonce) (pt : List Byte) :
    (gcmCiphertext encrypt key n pt).length = pt.length := by
  rw [gcmCiphertext, length_xorBytes, length_keystream, Nat.min_self]

/-- Settles O58: the keystream is as long as the plaintext, and XOR with it undoes itself. -/
theorem keystreamRecoversThePlaintext : Obligations.KeystreamRecoversThePlaintext := fun encrypt key n pt =>
  ⟨length_gcmCiphertext encrypt key n pt, xorBytes_xorBytes_cancel (length_keystream _ _ _ _)⟩

/-! ## The host's side of the state (10_state.md R56) -/

/-- What of the state is the host's: its two bits, the latches of what it read, and the moves still to come. -/
structure HostSide where
  irqEn : Bool
  cmdDropped : Bool
  rdata : Word
  hostByte : Byte
  events : List Event

/-- The state with another host's side. -/
def State.withHost (v : HostSide) (s : State) : State :=
  { s with irqEn := v.irqEn, cmdDropped := v.cmdDropped, rdata := v.rdata, hostByte := v.hostByte, events := v.events }

@[simp] theorem withHost_desc (v : HostSide) (s : State) : (s.withHost v).desc = s.desc := rfl
@[simp] theorem withHost_dp (v : HostSide) (s : State) : (s.withHost v).dp = s.dp := rfl
@[simp] theorem withHost_platform (v : HostSide) (s : State) : (s.withHost v).platform = s.platform := rfl

/-- An outcome with another host's side. -/
def hostedNext (v : HostSide) : Result → Result
  | .next t => .next (t.withHost v)
  | .fault why => .fault why
  | .refused why => .refused why

/-- An answer with another host's side: `g` says how the value changes. -/
def Access.hosted {α : Type} (v : HostSide) (g : α → α) : Access α → Access α
  | .ok value => .ok (g value)
  | .raised t => .raised (t.withHost v)
  | .fault why => .fault why
  | .refused why => .refused why

section
variable (v : HostSide)

theorem bind_hosted {α β : Type} {x : Access α} {g : α → α} {h : β → β} {k k' : α → Access β}
    (hk : ∀ a, k' (g a) = (k a).hosted v h) : (x.hosted v g).bind k' = (x.bind k).hosted v h := by
  cases x with
  | ok a => exact hk a
  | raised _ => rfl
  | fault _ => rfl
  | refused _ => rfl

theorem finish_hosted {α : Type} {x : Access α} {g : α → α} {k k' : α → State}
    (hk : ∀ a, k' (g a) = (k a).withHost v) : (x.hosted v g).finish k' = hostedNext v (x.finish k) := by
  cases x with
  | ok a => exact congrArg _ (hk a)
  | raised _ => rfl
  | fault _ => rfl
  | refused _ => rfl

/-- What stops a transaction is the platform's: the host's side has no part in it. -/
theorem guardAccess_hosted {α : Type} {x : Access α} {g : α → α} (addr n : Nat) (s : State) :
    guardAccess addr n (s.withHost v) (x.hosted v g) = (guardAccess addr n s x).hosted v g := by
  rw [guardAccess, withHost_platform, guardAccess]
  split_ifs <;> rfl

theorem memRead_hosted (addr n : Nat) (s : State) : memRead addr n (s.withHost v) = (memRead addr n s).hosted v id := by
  refine Eq.trans ?_ (guardAccess_hosted v addr n s)
  rw [memRead, withHost_platform]
  cases memAccessible s.platform addr n .read <;> rfl

theorem memWrite_hosted (addr : Nat) (bytes : List Byte) (s : State) :
    memWrite addr bytes (s.withHost v) = (memWrite addr bytes s).hosted v (·.withHost v) := by
  refine Eq.trans ?_ (guardAccess_hosted v addr bytes.length s)
  rw [memWrite, withHost_platform]
  cases memAccessible s.platform addr bytes.length .write <;> rfl

theorem laneStep_hosted (i : Nat) (ks : Block) (s : State) :
    laneStep memWrite i ks (s.withHost v) = (laneStep memWrite i ks s).hosted v (·.withHost v) := by
  simp only [laneStep, memRead_hosted, withHost_desc]
  split_ifs
  · exact bind_hosted v fun _ => memWrite_hosted v _ _ s
  · rfl

theorem ghashInput_hosted (g : Nat) (s : State) : ghashInput g (s.withHost v) = (ghashInput g s).hosted v id := by
  simp only [ghashInput, memRead_hosted, withHost_desc, withHost_dp]
  split_ifs
  · exact bind_hosted v fun _ => rfl
  · exact bind_hosted v fun _ => rfl
  · rfl

theorem execValidate_hosted (s : State) : execValidate (s.withHost v) = hostedNext v (execValidate s) := by
  simp only [execValidate, withHost_platform, withHost_desc]
  split <;> rfl

theorem execLoad_hosted (s : State) : execLoad (s.withHost v) = hostedNext v (execLoad s) := by
  simp only [execLoad, memRead_hosted, withHost_desc, withHost_platform]
  refine Eq.trans (congrArg (Access.finish · _) (bind_hosted v (h := id) fun _ => ?_)) (finish_hosted v fun _ => rfl)
  exact bind_hosted v fun _ => rfl

theorem execKeystreamPair_hosted (s : State) : execKeystreamPair (s.withHost v) = hostedNext v (execKeystreamPair s) := by
  refine (congrArg (Access.finish · _) ?_).trans (finish_hosted v (g := (·.withHost v)) fun _ => rfl)
  refine (congrArg (Access.bind · _) (laneStep_hosted v _ _ (loadLanes s))).trans (bind_hosted v fun u => ?_)
  exact laneStep_hosted v _ _ u

theorem execAccumulate_hosted (s : State) : execAccumulate (s.withHost v) = hostedNext v (execAccumulate s) :=
  (congrArg (Access.finish · _) (ghashInput_hosted v _ s)).trans (finish_hosted v fun _ => rfl)

theorem execFinalizeTag_hosted (s : State) : execFinalizeTag (s.withHost v) = hostedNext v (execFinalizeTag s) :=
  (congrArg (Access.finish · _) (memWrite_hosted v _ _ (formTag s))).trans (finish_hosted v fun _ => rfl)

/-- The host's side has no part in what a micro-operation does. -/
theorem exec_hosted {i : Instr} (hi : hostTx i = none) (s : State) : exec i (s.withHost v) = hostedNext v (exec i s) := by
  cases i with
  | validate => exact execValidate_hosted v s
  | load => exact execLoad_hosted v s
  | deriveSubkey => rfl
  | buildJ0 => rfl
  | keystreamPair => exact execKeystreamPair_hosted v s
  | buildGhash => rfl
  | accumulate => exact execAccumulate_hosted v s
  | computeMask => rfl
  | finalizeTag => exact execFinalizeTag_hosted v s
  | _ => cases hi

end

/-- Settles O59, from the outcome of a micro-operation under another host's side. -/
theorem callIgnoresTheHostSide : Obligations.CallIgnoresTheHostSide := by
  intro i s t e c r b ev hi h
  have hx := exec_hosted ⟨e, c, r, b, ev⟩ hi s
  rwa [h] at hx

end Sys2Proof.Machine
end

section
/-! One undisturbed call from VALIDATE to DONE (44_tag_finalizer.md R186): the state between its micro-operations, what the
set-up, the keystream pairs and the folds have each done after so many steps, and GCM_ENC of the regions at the end. -/

namespace Sys2Proof.Machine

/-! ## The regions of a valid call -/

theorem length_rangeBytes (m : Memory) (r : AddrRange) : (rangeBytes m r).length = r.size := length_readBytes _ _ _

/-- A region whose bytes are as they were holds what it held. -/
theorem rangeBytes_congr {m m' : Memory} {r : AddrRange} (h : ∀ x, r.has x → readByte m x = readByte m' x) :
    rangeBytes m r = rangeBytes m' r :=
  readBytes_congr fun _ hk => h _ ⟨Nat.le_add_right _ _, Nat.add_lt_add_left hk _⟩

/-- In a valid call the ciphertext region shares no byte with the AAD or with the tag (41_setup.md R121). -/
theorem Valid.ciphertextApart {p : Platform} {d : Descriptors} (h : Valid p d) {x : Nat} (hx : (ctRegion d).has x) :
    ¬ (aadRegion d).has x ∧ ¬ (tagRegion d).has x := by
  have hno : ¬ errorCause p d .bufferOverlap := (badOverlap_iff p d).not.mp (by simp [h.noOverlap])
  exact ⟨fun ha => hno (.inr (.inr (.inl ⟨x, hx, ha⟩))), fun ht => hno (.inr (.inr (.inr (.inl ⟨x, hx, ht⟩))))⟩

/-! ## The GHASH stream of two regions (30_encoding.md R89) -/

theorem length_paddedBlocks_rangeBytes (m : Memory) (r : AddrRange) :
    (paddedBlocks (rangeBytes m r)).length = nblocks r.size := by
  simp [paddedBlocks, rangeBytes]

/-- Block i of a region is the zero-padded read of its own bytes (20_memory.md R73). -/
theorem getElem?_paddedBlocks {m : Memory} {addr n i : Nat} (hi : i < nblocks n) :
    (paddedBlocks (readBytes m addr n))[i]? = some (blockOfBytes (readBytes m (addr + 16 * i) (blockLen n i))) := by
  simp [paddedBlocks, hi, readBytes_block]

/-- The GHASH stream of the AAD and ciphertext regions. -/
def callStream (m : Memory) (d : Descriptors) : List Block :=
  ghashStream (rangeBytes m (aadRegion d)) (rangeBytes m (ctRegion d))

theorem callStream_eq (m : Memory) (d : Descriptors) :
    callStream m d = paddedBlocks (rangeBytes m (aadRegion d)) ++ paddedBlocks (rangeBytes m (ctRegion d))
      ++ [lengthTrailer d.aadLen.toNat d.ptLen.toNat] := by
  rw [callStream, ghashStream, length_rangeBytes, length_rangeBytes, aadRegion, ctRegion]

theorem length_paddedBlocks_aad (m : Memory) (d : Descriptors) :
    (paddedBlocks (rangeBytes m (aadRegion d))).length = d.aadBlocks := length_paddedBlocks_rangeBytes m (aadRegion d)

theorem length_paddedBlocks_ct (m : Memory) (d : Descriptors) :
    (paddedBlocks (rangeBytes m (ctRegion d))).length = d.ptBlocks := length_paddedBlocks_rangeBytes m (ctRegion d)

theorem length_callStream (m : Memory) (d : Descriptors) : (callStream m d).length = d.ghashBlocks := by
  rw [callStream_eq, List.length_append, List.length_append, length_paddedBlocks_aad, length_paddedBlocks_ct]
  rfl

/-- The block G_IDX selects is the stream's, when the reads complete and TR is the trailer (43_ghash_accumulator.md R165). -/
theorem ghashInput_eq_callStream {s : State} {g : Nat} (hacc : CallAccessible s.platform s.desc)
    (htr : s.dp.tr = lengthTrailer s.desc.aadLen.toNat s.desc.ptLen.toNat) (hg : g < s.desc.ghashBlocks) :
    ∃ b, ghashInput g s = .ok b ∧ (callStream s.mem s.desc)[g]? = some b := by
  have hbound : g < s.desc.aadBlocks + s.desc.ptBlocks + 1 := hg
  rw [callStream_eq]
  by_cases ha : g < s.desc.aadBlocks
  · refine ⟨_, (ghashInput_aad ha).trans (readBlock_ok (hacc.aad g ha)), ?_⟩
    rw [List.append_assoc, List.getElem?_append_left (by rwa [length_paddedBlocks_aad])]
    exact getElem?_paddedBlocks ha
  -- Past the AAD the stream goes on with the ciphertext and the trailer.
  have hpast : (paddedBlocks (rangeBytes s.mem (aadRegion s.desc))).length ≤ g := by
    rw [length_paddedBlocks_aad]
    omega
  rw [List.append_assoc, List.getElem?_append_right hpast, length_paddedBlocks_aad]
  by_cases hc : g < s.desc.aadBlocks + s.desc.ptBlocks
  · have hi : g - s.desc.aadBlocks < s.desc.ptBlocks := by omega
    refine ⟨_, (ghashInput_ciphertext (by omega) hc).trans (readBlock_ok (hacc.readBack _ hi)), ?_⟩
    rw [List.getElem?_append_left (by rwa [length_paddedBlocks_ct])]
    exact getElem?_paddedBlocks hi
  · have hlast : g = s.desc.aadBlocks + s.desc.ptBlocks := by omega
    refine ⟨_, ghashInput_trailer hlast, ?_⟩
    rw [hlast, Nat.add_sub_cancel_left, htr, List.getElem?_append_right (by rw [length_paddedBlocks_ct]),
      length_paddedBlocks_ct, Nat.sub_self]
    rfl

/-! ## Between the micro-operations of a call -/

/-- `s` is at the start of a call that ends well: it passes VALIDATE, its transactions complete, and nothing else is pending. -/
structure UndisturbedCall (s : State) : Prop where
  memory : s.mem.wf = true
  noHazard : s.hazard = false
  noMoves : s.events = []
  valid : validationError s.platform s.desc = none
  accessible : CallAccessible s.platform s.desc

/-- The call that `s` begins, later on: STATE, the datapath and memory are all that has changed. -/
def midCall (s : State) (st : Stage) (d : Datapath) (m : Memory) : State := { s with stage := st, dp := d, mem := m }

/-- A run goes one step further. -/
theorem runSteps_succ {n : Nat} {s u t : State} (h : runSteps n s = .next u) (hu : step u = .next t) :
    runSteps (n + 1) s = .next t := by
  rw [runSteps_add n 1 h, runSteps, hu]
  rfl

/-- With nothing else pending, the next step of a call is the micro-operation of STATE. -/
theorem step_midCall {s : State} (hc : UndisturbedCall s) {st : Stage} {i : Instr} (d : Datapath) (m : Memory)
    (h : microOperation st = some i) : step (midCall s st d m) = exec i (midCall s st d m) :=
  step_microOperation hc.noMoves h

/-! ## Set-up (41_setup.md) -/

/-- The key of the call that `s` begins. -/
def callKey (s : State) : List Byte := rangeBytes s.mem (keyRegion s.platform s.desc)

/-- J0 of the call that `s` begins. -/
def callJ0 (s : State) : Block := initialCounterBlock (nonceOfBytes (rangeBytes s.mem (nonceRegion s.desc)))

/-- Byte t of the keystream of the call that `s` begins. -/
def callKeystreamByte (s : State) : Nat → Byte := keystreamByte Config.encrypt (callKey s) (callJ0 s)

/-- STATE after k pairs: BUILD_GHASH once all are done. -/
def stageAfterPairs (s : State) (k : Nat) : Stage := if k = s.desc.pairs then .buildGhash else .keystream

/-- The datapath after BUILD_J0. -/
def setupDatapath (s : State) : Datapath :=
  { s.dp with
    keyr := callKey s
    noncer := nonceOfBytes (rangeBytes s.mem (nonceRegion s.desc))
    h := Config.encrypt (callKey s) 0#128
    j0 := callJ0 s
    pIdx := 0 }

/-- VALIDATE, LOAD, DERIVE_SUBKEY and BUILD_J0. -/
theorem runSteps_setup {s : State} (hc : UndisturbedCall s) (hs : s.stage = .validate) :
    runSteps 4 s = .next (midCall s (stageAfterPairs s 0) (setupDatapath s) s.mem) := by
  have hv : step s = .next (midCall s .load s.dp s.mem) :=
    (step_microOperation hc.noMoves (congrArg microOperation hs)).trans (execValidate_of_none hc.valid)
  have hl := (step_midCall hc s.dp s.mem (st := .load) rfl).trans
    (execLoad_ok (s := midCall s .load s.dp s.mem) hc.accessible.key hc.accessible.nonce)
  have hfork : (if 0 < s.desc.pairs then Stage.keystream else .buildGhash) = stageAfterPairs s 0 := by
    rw [stageAfterPairs, ← ite_not]
    exact if_congr (by omega) rfl rfl
  have hh := fun d => step_midCall hc d s.mem (st := .deriveSubkey) rfl
  have hj : ∀ d, step (midCall s .buildJ0 d s.mem) = .next (midCall s (stageAfterPairs s 0)
      { d with j0 := initialCounterBlock d.noncer, pIdx := 0 } s.mem) := fun d => by
    rw [step_midCall hc d s.mem rfl, ← hfork]
    rfl
  exact runSteps_succ (runSteps_succ (runSteps_succ (runSteps_succ rfl hv) hl) (hh _)) (hj _)

/-! ## The keystream pairs (42_keystream_generator.md R149) -/

/-- What the datapath `d` and memory `m` hold after k pairs of the call that `s` begins. -/
structure AfterPairs (s : State) (k : Nat) (d : Datapath) (m : Memory) : Prop where
  keyr : d.keyr = callKey s
  j0 : d.j0 = callJ0 s
  subkey : d.h = Config.encrypt (callKey s) 0#128
  pIdx : d.pIdx.toNat = k
  memory : m.wf = true
  encrypts : Encrypts s.desc (callKeystreamByte s) s.mem 0 (min (32 * k) s.desc.ptLen.toNat) m

/-- KEYSTREAM keeps memory canonical. -/
theorem execKeystreamPair_wf {s t : State} (h : execKeystreamPair s = .next t) (hm : s.mem.wf = true) : t.mem.wf = true := by
  rcases execKeystreamPair_cases h with ⟨s1, s2, h1, h2, rfl⟩ | h1 | ⟨s1, h1, h2⟩
  · exact lane_ok_wf (t := s2) h2 (lane_ok_wf h1 hm)
  · exact lane_raised_wf h1 hm
  · exact lane_raised_wf h2 (lane_ok_wf h1 hm)

/-- One more pair (`keystreamPairEncryptsItsBlocks`). -/
theorem step_pair {s : State} (hc : UndisturbedCall s) {k : Nat} {d : Datapath} {m : Memory} (hk : k < s.desc.pairs)
    (h : AfterPairs s k d m) :
    ∃ d' m', step (midCall s .keystream d m) = .next (midCall s (stageAfterPairs s (k + 1)) d' m')
      ∧ AfterPairs s (k + 1) d' m' := by
  have hv := validationError_eq_none.mp hc.valid
  have hcount := hv.counts.2.1
  obtain ⟨hkeyr, hj0, hsubkey, hidx, hm, henc⟩ := h
  obtain ⟨m', hx, hbytes⟩ := keystreamPairEncryptsItsBlocks (midCall s .keystream d m) hm hc.noHazard hc.valid
    (by rw [show (midCall s .keystream d m).dp = d from rfl, hidx]; exact hk)
    fun l _ hl => ⟨hc.accessible.plaintext _ hl, hc.accessible.ciphertext _ hl⟩
  have hm' := execKeystreamPair_wf hx hm
  simp only [midCall, hkeyr, hj0, hidx] at hx hbytes
  refine ⟨_, m', (step_midCall hc d m rfl).trans hx, rfl, rfl, hsubkey, ?_, hm', ?_⟩
  · exact (BitVec.toNat_ofNat ..).trans (Nat.mod_eq_of_lt (by omega))
  · have hstart : min (32 * k) s.desc.ptLen.toNat = 32 * k := by
      simp only [Descriptors.pairs, Descriptors.ptBlocks, nblocks] at hk
      omega
    rw [hstart] at henc
    exact henc.trans hbytes hv (Nat.zero_le _) (by omega) (Nat.min_le_right _ _)

/-- Set-up and k pairs. -/
theorem runSteps_pairs {s : State} (hc : UndisturbedCall s) (hs : s.stage = .validate) {k : Nat} (hk : k ≤ s.desc.pairs) :
    ∃ d m, runSteps (4 + k) s = .next (midCall s (stageAfterPairs s k) d m) ∧ AfterPairs s k d m := by
  induction k with
  | zero =>
    exact ⟨_, _, runSteps_setup hc hs, rfl, rfl, rfl, rfl, hc.memory, fun x => (if_neg (by omega)).symm⟩
  | succ k ih =>
    obtain ⟨d, m, hrun, hd⟩ := ih (by omega)
    rw [stageAfterPairs, if_neg (by omega)] at hrun
    obtain ⟨d', m', hstep, hd'⟩ := step_pair hc hk hd
    exact ⟨d', m', runSteps_succ hrun hstep, hd'⟩

/-! ## The folds (43_ghash_accumulator.md R167) -/

/-- The datapath `d` after k folds over memory `m`. -/
def foldDatapath (s : State) (m : Memory) (d : Datapath) (k : Nat) : Datapath :=
  { d with
    tr := lengthTrailer s.desc.aadLen.toNat s.desc.ptLen.toNat
    y := ((callStream m s.desc).take k).foldl (foldBlock Config.mul d.h) 0#128
    gIdx := BitVec.ofNat 64 k }

/-- STATE after k folds: COMPUTE_MASK once all are done. -/
def stageAfterFolds (s : State) (k : Nat) : Stage := if k = s.desc.ghashBlocks then .computeMask else .accumulate

/-- The next block of the stream goes into Y, and G_IDX advances. -/
theorem foldDatapath_succ {s : State} {m : Memory} {k : Nat} {b : Block} (d : Datapath)
    (hb : (callStream m s.desc)[k]? = some b) :
    foldDatapath s m d (k + 1) = { foldDatapath s m d k with
      y := Config.mul ((foldDatapath s m d k).y ^^^ b) d.h, gIdx := BitVec.ofNat 64 (k + 1) } := by
  simp only [foldDatapath, List.take_add_one, hb, Option.toList_some, List.foldl_append]
  rfl

/-- One more fold. -/
theorem step_fold {s : State} (hc : UndisturbedCall s) {k : Nat} (d : Datapath) (m : Memory) (hk : k < s.desc.ghashBlocks) :
    step (midCall s .accumulate (foldDatapath s m d k) m)
      = .next (midCall s (stageAfterFolds s (k + 1)) (foldDatapath s m d (k + 1)) m) := by
  let u := midCall s .accumulate (foldDatapath s m d k) m
  have hl := ghashBlocks_lt s.desc
  have hidx : u.dp.gIdx.toNat = k := (BitVec.toNat_ofNat ..).trans (Nat.mod_eq_of_lt (by omega))
  obtain ⟨b, hb, hnext⟩ := ghashInput_eq_callStream (s := u) hc.accessible rfl (hidx.symm ▸ hk)
  have hfold := advanceGhash_eq u b (hidx.symm ▸ hk)
  rw [hidx] at hnext hfold
  rw [step_midCall hc _ m rfl, foldDatapath_succ (s := s) (m := m) d hnext]
  exact (execAccumulate_ok hb).trans (congrArg _ hfold)

/-- BUILD_GHASH and k folds. -/
theorem runSteps_folds {s : State} (hc : UndisturbedCall s) (d : Datapath) (m : Memory) {k : Nat}
    (hk : k ≤ s.desc.ghashBlocks) :
    runSteps (1 + k) (midCall s .buildGhash d m) = .next (midCall s (stageAfterFolds s k) (foldDatapath s m d k) m) := by
  induction k with
  | zero =>
    have hleft : 0 ≠ s.desc.ghashBlocks := (Nat.succ_ne_zero _).symm
    rw [stageAfterFolds, if_neg hleft]
    exact runSteps_succ rfl (step_midCall hc d m (st := .buildGhash) rfl)
  | succ k ih =>
    have hrun := ih (by omega)
    rw [stageAfterFolds, if_neg (by omega)] at hrun
    exact runSteps_succ hrun (step_fold hc d m hk)

/-- The last fold leaves GHASH of the two regions in Y. -/
theorem foldDatapath_y_end (s : State) (m : Memory) (d : Datapath) :
    (foldDatapath s m d s.desc.ghashBlocks).y
      = ghash Config.mul d.h (rangeBytes m (aadRegion s.desc)) (rangeBytes m (ctRegion s.desc)) := by
  rw [foldDatapath, List.take_of_length_le (length_callStream m s.desc).le]
  rfl

/-! ## The tag (44_tag_finalizer.md R180, R181) -/

/-- `m'` is `m` with a tag stored at TAG_ADDR. -/
def StoresTag (d : Descriptors) (tag : Block) (m m' : Memory) : Prop :=
  ∀ x, readByte m' x =
    if d.tagAddr.toNat ≤ x ∧ x < d.tagAddr.toNat + 16 then blockByte tag (x - d.tagAddr.toNat) else readByte m x

theorem StoresTag.outside {d : Descriptors} {tag : Block} {m m' : Memory} {x : Nat} (h : StoresTag d tag m m')
    (hx : ¬ (tagRegion d).has x) : readByte m' x = readByte m x := (h x).trans (if_neg hx)

theorem StoresTag.rangeBytes_tag {d : Descriptors} {tag : Block} {m m' : Memory} (h : StoresTag d tag m m') :
    rangeBytes m' (tagRegion d) = bytesOfBlock tag := by
  apply List.ext_getElem ((length_rangeBytes _ _).trans (length_bytesOfBlock tag).symm)
  intro k h1 h2
  rw [length_bytesOfBlock] at h2
  simp only [rangeBytes, tagRegion, getElem_readBytes, getElem_bytesOfBlock]
  rw [h, if_pos (by omega), Nat.add_sub_cancel_left]

/-- COMPUTE_MASK and FINALIZE_TAG (`finalizeTagStoresTheTag`). -/
theorem runSteps_tag {s : State} (hc : UndisturbedCall s) (d : Datapath) {m : Memory} (hm : m.wf = true) :
    ∃ m', runSteps 2 (midCall s .computeMask d m) = .next (midCall s .done (Datapath.zero s.platform.keyBytes) m')
      ∧ StoresTag s.desc (d.y ^^^ Config.encrypt d.keyr d.j0) m m' := by
  let u := midCall s .finalizeTag { d with m := Config.encrypt d.keyr d.j0 } m
  have hmask : step (midCall s .computeMask d m) = .next u := step_midCall hc d m (st := .computeMask) rfl
  have hfinal : step u = exec .finalizeTag u := step_midCall hc _ m rfl
  obtain ⟨m', hx, hstored⟩ := (finalizeTagStoresTheTag.2 u hm hc.noHazard).1 hc.accessible.tag
  exact ⟨m', runSteps_succ (runSteps_succ rfl hmask) (hfinal.trans hx), hstored⟩

/-! ## The whole call (44_tag_finalizer.md R186) -/

/-- When every pair is done, the ciphertext region holds C of GCM_ENC. -/
theorem rangeBytes_ct_of_encrypts {s : State} {m : Memory}
    (h : Encrypts s.desc (callKeystreamByte s) s.mem 0 s.desc.ptLen.toNat m) :
    rangeBytes m (ctRegion s.desc) = callCiphertext s.mem s.platform s.desc := by
  have hlen : (callCiphertext s.mem s.platform s.desc).length = s.desc.ptLen.toNat :=
    (length_gcmCiphertext _ _ _ _).trans (length_rangeBytes s.mem (ptRegion s.desc))
  apply List.ext_getElem ((length_rangeBytes _ _).trans hlen.symm)
  intro k h1 h2
  simp only [callCiphertext, gcmCiphertext, rangeBytes, getElem_xorBytes, getElem_readBytes, getElem_keystream]
  exact h.inside (Nat.zero_le _) (hlen ▸ h2)

/-- When every pair is done, the folds and the mask give TAG of GCM_ENC: the AAD region is as it was at the start. -/
theorem callTag_of_encrypts {s : State} {m : Memory} (hv : Valid s.platform s.desc)
    (h : Encrypts s.desc (callKeystreamByte s) s.mem 0 s.desc.ptLen.toNat m) :
    ghash Config.mul (Config.encrypt (callKey s) 0#128) (rangeBytes m (aadRegion s.desc)) (rangeBytes m (ctRegion s.desc))
      ^^^ Config.encrypt (callKey s) (callJ0 s) = callTag s.mem s.platform s.desc := by
  have haad : rangeBytes m (aadRegion s.desc) = rangeBytes s.mem (aadRegion s.desc) :=
    rangeBytes_congr fun x hx => h.outside fun hcx => (hv.ciphertextApart hcx).1 hx
  rw [haad, rangeBytes_ct_of_encrypts h]
  rfl

/-- The set-up and the pairs, the folds, and the tag, one run after the other: memory `m` after the pairs has the ciphertext,
and the tag is stored over it. -/
theorem runSteps_call {s : State} (hc : UndisturbedCall s) (hs : s.stage = .validate) :
    ∃ m m' : Memory,
      runSteps (7 + s.desc.pairs + s.desc.ghashBlocks) s = .next (midCall s .done (Datapath.zero s.platform.keyBytes) m')
      ∧ Encrypts s.desc (callKeystreamByte s) s.mem 0 s.desc.ptLen.toNat m
      ∧ StoresTag s.desc (callTag s.mem s.platform s.desc) m m' := by
  obtain ⟨d, m, hpairs, hd⟩ := runSteps_pairs hc hs le_rfl
  have hall : min (32 * s.desc.pairs) s.desc.ptLen.toNat = s.desc.ptLen.toNat := by
    simp only [Descriptors.pairs, Descriptors.ptBlocks, nblocks]
    omega
  have henc := hd.encrypts
  rw [hall] at henc
  have hfolds := runSteps_folds hc d m le_rfl
  obtain ⟨m', htag, hstored⟩ := runSteps_tag hc (foldDatapath s m d s.desc.ghashBlocks) hd.memory
  have hvalue : (foldDatapath s m d s.desc.ghashBlocks).y ^^^ Config.encrypt d.keyr d.j0
      = callTag s.mem s.platform s.desc := by
    rw [foldDatapath_y_end, hd.subkey, hd.keyr, hd.j0, callTag_of_encrypts (validationError_eq_none.mp hc.valid) henc]
  rw [stageAfterPairs, if_pos rfl] at hpairs
  rw [stageAfterFolds, if_pos rfl] at hfolds
  have hsteps : 7 + s.desc.pairs + s.desc.ghashBlocks = (4 + s.desc.pairs) + ((1 + s.desc.ghashBlocks) + 2) := by omega
  refine ⟨m, m', ?_, henc, hvalue ▸ hstored⟩
  rw [hsteps, runSteps_add _ _ hpairs, runSteps_add _ _ hfolds, htag]

/-- Settles O56: the run to DONE. Storing the tag leaves the ciphertext region, and nothing outside the two is written. -/
theorem callComputesGcm : Obligations.CallComputesGcm := by
  intro s hm hz he hs hvalid hacc
  have hv := validationError_eq_none.mp hvalid
  obtain ⟨m, m', hrun, henc, hstored⟩ := runSteps_call ⟨hm, hz, he, hvalid, hacc⟩ hs
  refine ⟨_, hrun, rfl, ?_, hstored.rangeBytes_tag, fun x hcx hx => (hstored.outside hx).trans (henc.outside hcx)⟩
  rw [← rangeBytes_ct_of_encrypts henc]
  exact rangeBytes_congr fun x hx => hstored.outside (hv.ciphertextApart hx).2

end Sys2Proof.Machine
end

section
/-! No step stops (60_exceptions.md R223): in a valid call every access lies in the address space, so where memory has no read
side effects (20_memory.md R72) each transaction is answered, by its value or by an error entry. -/

namespace Sys2Proof.Machine

/-! ## Accesses that are answered -/

/-- The access ends in a value or in an error entry, and neither faults nor is refused. -/
inductive Access.Answers {α : Type} : Access α → Prop where
  | ok (value : α) : Answers (.ok value)
  | raised (t : State) : Answers (.raised t)

theorem Access.Answers.bind {α β : Type} {x : Access α} {f : α → Access β} (hx : x.Answers)
    (hf : ∀ a, x = .ok a → (f a).Answers) : (x.bind f).Answers := by
  cases hx with
  | ok a => exact hf a rfl
  | raised t => exact .raised t

theorem Access.Answers.finish {α : Type} {x : Access α} (h : x.Answers) (f : α → State) : ∃ t, x.finish f = .next t := by
  cases h with
  | ok a => exact ⟨_, rfl⟩
  | raised t => exact ⟨_, rfl⟩

theorem Access.Answers.resetAfter {x : Access State} (h : x.Answers) : ∃ t, Machine.resetAfter x = .next t := by
  cases h with
  | ok a => exact ⟨_, rfl⟩
  | raised t => exact ⟨_, rfl⟩

/-! ## One transaction -/

theorem hasSideEffects_of_none {p : Platform} (h : p.sideEffects = []) (addr n : Nat) : hasSideEffects p addr n = false := by
  simp [hasSideEffects, h]

/-- Inside the address space, on a platform without read side effects, a transaction ends as the platform says. -/
theorem guardAccess_answers {α : Type} {addr n : Nat} {s : State} {x : Access α} (hp : s.platform.sideEffects = [])
    (ha : addr + n ≤ addressSpace) (hx : x.Answers) : (guardAccess addr n s x).Answers := by
  rwa [guardAccess_pass ha (hasSideEffects_of_none hp addr n)]

theorem memRead_answers {addr n : Nat} {s : State} (hp : s.platform.sideEffects = []) (ha : addr + n ≤ addressSpace) :
    (memRead addr n s).Answers := by
  refine guardAccess_answers hp ha ?_
  split
  · exact .ok _
  · exact .raised _

/-- What `memWrite` and `cutWrite` share: inside the address space, on a platform without read side effects, the write is
answered. -/
def AnswersInSpace (write : Nat → List Byte → State → Access State) : Prop :=
  ∀ (addr : Nat) (bytes : List Byte) (s : State), s.platform.sideEffects = [] → addr + bytes.length ≤ addressSpace →
    (write addr bytes s).Answers

theorem answersInSpace_memWrite : AnswersInSpace memWrite := by
  intro addr bytes s hp ha
  refine guardAccess_answers hp ha ?_
  split
  · exact .ok _
  · exact .raised _

theorem answersInSpace_cutWrite : AnswersInSpace cutWrite := fun _ _ _ hp ha => guardAccess_answers hp ha (.ok _)

/-! ## The accesses of a valid call -/

/-- LOAD's two reads lie in the regions of the key and the nonce. -/
theorem execLoad_completes {s : State} (hp : s.platform.sideEffects = []) (hv : Valid s.platform s.desc) :
    ∃ t, execLoad s = .next t := by
  refine Access.Answers.finish ?_ _
  refine (memRead_answers hp hv.keyInSpace).bind fun key _ => ?_
  exact (memRead_answers hp hv.nonceInSpace).bind fun nonce _ => .ok _

/-- A lane reads and writes block `i` of the call, whichever `i` is, or accesses no memory. -/
theorem laneStep_answers {write : Nat → List Byte → State → Access State} (hw : AnswersInSpace write) (i : Nat) (ks : Block)
    {s : State} (hp : s.platform.sideEffects = []) (hv : Valid s.platform s.desc) : (laneStep write i ks s).Answers := by
  unfold laneStep
  split
  · next hi =>
    refine (memRead_answers hp (hv.plaintextInSpace hi)).bind fun p hread => hw _ _ _ hp ?_
    obtain ⟨_, rfl⟩ := memRead_eq_ok hread
    simpa [Nat.min_eq_left (blockLen_le _ _)] using hv.ciphertextInSpace hi
  · exact .ok _

/-- Lane 0 leaves the descriptors and the platform to lane 1. -/
theorem lanes_answer {write : Nat → List Byte → State → Access State} (hw : AnswersInSpace write) (i j : Nat)
    (ks ks' : Block) {s : State} (hp : s.platform.sideEffects = []) (hv : Valid s.platform s.desc) :
    ((laneStep memWrite i ks s).bind fun s' => laneStep write j ks' s').Answers := by
  refine (laneStep_answers answersInSpace_memWrite i ks hp hv).bind fun s' hs' => ?_
  have ho := sameOutside_lane_ok hs'
  exact laneStep_answers hw j ks' (by rwa [ho.platform]) (by rwa [ho.platform, ho.desc])

theorem execKeystreamPair_completes {s : State} (hp : s.platform.sideEffects = []) (hv : Valid s.platform s.desc) :
    ∃ t, execKeystreamPair s = .next t :=
  (lanes_answer (s := loadLanes s) answersInSpace_memWrite _ _ _ _ hp hv).finish _

theorem cutKeystream_answers (lane : Fin 2) {s : State} (hp : s.platform.sideEffects = [])
    (hv : Valid s.platform s.desc) : (cutKeystream lane s).Answers := by
  unfold cutKeystream
  split
  · exact laneStep_answers (s := loadLanes s) answersInSpace_cutWrite _ _ hp hv
  · exact lanes_answer (s := loadLanes s) answersInSpace_cutWrite _ _ _ _ hp hv

/-- Block g is read from the AAD or from the ciphertext, or is the trailer. -/
theorem ghashInput_answers (g : Nat) {s : State} (hp : s.platform.sideEffects = []) (hv : Valid s.platform s.desc) :
    (ghashInput g s).Answers := by
  unfold ghashInput
  split
  · next ha => exact (memRead_answers hp (hv.aadInSpace ha)).bind fun _ _ => .ok _
  · split
    · next hc => exact (memRead_answers hp (hv.ciphertextInSpace (by omega))).bind fun _ _ => .ok _
    · exact .ok _

/-- The tag write, whole or cut. -/
theorem tagWrite_answers {write : Nat → List Byte → State → Access State} (hw : AnswersInSpace write) {s : State}
    (hp : s.platform.sideEffects = []) (hv : Valid s.platform s.desc) :
    (write s.desc.tagAddr.toNat (bytesOfBlock (formTag s).dp.t) (formTag s)).Answers :=
  hw _ _ _ hp (by simpa using hv.tagInSpace)

/-! ## One step -/

/-- Past VALIDATE the descriptors of the call are valid (10_state.md R25). -/
theorem State.Inv.valid {s : State} (h : s.Inv) {st : Stage} (hs : s.stage = st) (hpast : stagePastValidate st = true) :
    Valid s.platform s.desc :=
  validationError_eq_none.mp (h.validated (hs ▸ hpast))

/-- The micro-operation that STATE selects does not stop. -/
theorem microOperation_completes {i : Instr} {s : State} (h : s.Inv) (hp : s.platform.sideEffects = [])
    (hi : microOperation s.stage = some i) : ∃ t, exec i s = .next t := by
  cases hs : s.stage <;> rw [hs] at hi <;> cases hi
  case validate =>
    cases hv : validationError s.platform s.desc with
    | none => exact ⟨_, execValidate_of_none hv⟩
    | some code => exact ⟨_, execValidate_of_some hv⟩
  case load => exact execLoad_completes hp (h.valid hs rfl)
  case keystream => exact execKeystreamPair_completes hp (h.valid hs rfl)
  case accumulate => exact (ghashInput_answers _ hp (h.valid hs rfl)).finish _
  case finalizeTag => exact (tagWrite_answers answersInSpace_memWrite hp (h.valid hs rfl)).finish _
  all_goals exact ⟨_, rfl⟩

/-- Neither does the sequencer's turn, a wait outside a call included. -/
theorem coreTurn_completes {s : State} (h : s.Inv) (hp : s.platform.sideEffects = []) :
    ∃ t, takeTurn (coreTurn s) = .next t := by
  rcases coreTurn_cases s with ⟨i, hi, hc⟩ | ⟨_, hc⟩
  · rw [hc]
    exact microOperation_completes h hp hi
  · exact ⟨s, congrArg takeTurn hc⟩

/-- A transaction is a host operation or a word that decodes to none, and neither stops. -/
theorem transaction_completes (tx : BitVec 72) (s : State) : ∃ t, takeTurn (turnOf (decodeHosttx tx) s) = .next t := by
  cases hd : decodeHosttx tx with
  | instr i => exact hostOperation_completes (decodeHosttx_host hd) s
  | rejected why => exact ⟨_, rfl⟩

/-- Nor does the reset input inside a memory write: the write it cuts is one of the call. -/
theorem resetInWrite_completes (lane : Fin 2) {s : State} (h : s.Inv) (hp : s.platform.sideEffects = []) :
    ∃ t, resetInWrite lane s = .next t := by
  refine Access.Answers.resetAfter ?_
  unfold cutMicroOperation
  split
  · next hs => exact cutKeystream_answers lane hp (h.valid hs rfl)
  · split
    · next hs => exact tagWrite_answers answersInSpace_cutWrite hp (h.valid hs rfl)
    · exact .ok s

/-- Settles O53, by what is pending: the invariant makes the descriptors valid wherever the core accesses memory. -/
theorem stepNeverStops : Obligations.StepNeverStops := by
  intro s hinv hp
  have h : ∀ ev, ({ s with events := ev } : State).Inv := fun ev => hinv.hostSide hinv.memory
  cases he : s.events with
  | nil =>
    rw [step_noEvents he]
    exact coreTurn_completes hinv hp
  | cons e rest =>
    rw [step_event he]
    cases e with
    | core => exact coreTurn_completes (h rest) hp
    | transact tx => exact transaction_completes tx _
    | resetInWrite lane => exact resetInWrite_completes lane (h rest) hp
    | _ => exact ⟨_, rfl⟩

end Sys2Proof.Machine
end

section
/-! The bound of 70_reset_and_hazards.md R241: an undisturbed call takes away one of `microOpsLeft` with every micro-operation,
so it ends, and one that ends well has used them all. -/

namespace Sys2Proof.Machine

/-! ## One micro-operation, one less left -/

theorem microOpsLeft_pos {s : State} (h : s.busy = true) : 0 < microOpsLeft s := by
  revert h
  unfold State.busy microOpsLeft
  cases s.stage <;> simp [stageBusy]

/-- A pair: P_IDX advances, or the pairs are done (42_keystream_generator.md R145). -/
theorem microOpsLeft_keystreamPair {s t : State} (h : s.Inv) (hs : s.stage = .keystream) (hx : execKeystreamPair s = .next t) :
    t.stage = .error ∨ microOpsLeft s = microOpsLeft t + 1 := by
  have hv := h.valid hs rfl
  have hp := h.pairsLeft hs
  have hl := sameOutside_loadLanes s
  rcases execKeystreamPair_cases hx with ⟨s1, s2, h1, h2, rfl⟩ | h1 | ⟨s1, h1, h2⟩
  · obtain ⟨c1, a1, t1, d1⟩ := lane_ok_core h1
    obtain ⟨c2, a2, t2, d2⟩ := lane_ok_core h2
    have ho := (hl.trans (sameOutside_lane_ok h1)).trans (sameOutside_lane_ok h2)
    have hcount := hv.counts.2.1
    have hnext : (BitVec.ofNat 32 (s.dp.pIdx.toNat + 1)).toNat = s.dp.pIdx.toNat + 1 :=
      (BitVec.toNat_ofNat ..).trans (Nat.mod_eq_of_lt (by omega))
    refine .inr ?_
    rw [advancePair_eq hv hp ho ⟨c2.trans c1, a2.trans a1, t2.trans t1, d2.trans d1⟩]
    split_ifs <;> simp only [microOpsLeft, hs, hnext] <;> omega
  · obtain ⟨a, u, rfl⟩ := lane_raised_eq h1
    exact .inl rfl
  · obtain ⟨a, u, rfl⟩ := lane_raised_eq h2
    exact .inl rfl

/-- A fold: G_IDX advances, or the folds are done (43_ghash_accumulator.md R165). -/
theorem microOpsLeft_accumulate {s t : State} (h : s.Inv) (hs : s.stage = .accumulate) (hx : execAccumulate s = .next t) :
    t.stage = .error ∨ microOpsLeft s = microOpsLeft t + 1 := by
  have hg := h.blocksLeft hs
  rcases execAccumulate_cases hx with ⟨b, _, rfl⟩ | ⟨a, rfl⟩
  · have hcount := ghashBlocks_lt s.desc
    have hnext : (BitVec.ofNat 64 (s.dp.gIdx.toNat + 1)).toNat = s.dp.gIdx.toNat + 1 :=
      (BitVec.toNat_ofNat ..).trans (Nat.mod_eq_of_lt (by omega))
    refine .inr ?_
    rw [advanceGhash_eq s b hg]
    split_ifs <;> simp only [microOpsLeft, hs, hnext] <;> omega
  · exact .inl rfl

/-- The micro-operation of STATE ends the call with an error, or leaves one less. -/
theorem microOpsLeft_of_exec {i : Instr} {s t : State} (h : s.Inv) (hi : microOperation s.stage = some i)
    (hx : exec i s = .next t) : t.stage = .error ∨ microOpsLeft s = microOpsLeft t + 1 := by
  cases hs : s.stage <;> rw [hs] at hi <;> cases hi
  case validate =>
    rcases execValidate_cases hx with ⟨_, rfl⟩ | ⟨c, _, rfl⟩
    · exact .inr (by simp only [microOpsLeft, hs]; omega)
    · exact .inl rfl
  case load =>
    rcases execLoad_cases hx with rfl | ⟨a, rfl⟩
    · exact .inr (by simp only [microOpsLeft, hs]; omega)
    · exact .inl rfl
  case buildJ0 =>
    cases hx
    refine .inr ?_
    split_ifs with hp <;> simp only [microOpsLeft, hs, BitVec.ofNat_eq_ofNat, BitVec.toNat_zero] <;> omega
  case keystream => exact microOpsLeft_keystreamPair h hs hx
  case accumulate => exact microOpsLeft_accumulate h hs hx
  case finalizeTag =>
    obtain ⟨_, rfl | rfl⟩ := execFinalizeTag_cases hx
    · exact .inr (by simp [microOpsLeft, hs])
    · exact .inl rfl
  case deriveSubkey =>
    cases hx
    exact .inr (by simp only [microOpsLeft, hs]; omega)
  case buildGhash =>
    cases hx
    exact .inr (by simp only [microOpsLeft, hs, BitVec.ofNat_eq_ofNat, BitVec.toNat_zero]; omega)
  case computeMask =>
    cases hx
    exact .inr (by simp only [microOpsLeft, hs])

/-- Where a micro-operation moves STATE, the core is BUSY or the call has ended. -/
theorem stagesAfter_busy_or_ended {st st' : Stage} {i : Instr} (h : microOperation st = some i) (hs : st' ∈ stagesAfter i) :
    stageBusy st' = true ∨ st' = .done ∨ st' = .error := by
  revert st'
  cases st <;> cases h <;> decide

/-- A micro-operation keeps the core BUSY or ends the call. -/
theorem busy_or_callEnded_of_exec {i : Instr} {s t : State} (hi : microOperation s.stage = some i) (hx : exec i s = .next t) :
    t.busy = true ∨ t.callEnded = true := by
  rcases (microEnd_of_exec (hostTx_microOperation hi) hx).edge with he | he
  · refine .inl ?_
    rw [State.busy, he]
    exact (stageBusy_iff_microOperation _).mpr ⟨i, hi⟩
  · exact (stagesAfter_busy_or_ended hi he).imp_right fun hend => by simpa [State.callEnded, State.isDone, State.isError]

/-! ## The run to the end -/

/-- A run takes its first step. -/
theorem runSteps_of_step {n : Nat} {s t : State} (h : step s = .next t) : runSteps (n + 1) s = runSteps n t := by
  rw [runSteps, h]

/-- The call ends within the micro-operations left, BUSY until then, and takes them all if it ends well. -/
def EndsInTime (s : State) : Prop :=
  ∃ (n : Nat) (t : State), n ≤ microOpsLeft s ∧ runSteps n s = .next t ∧ t.callEnded = true
    ∧ (t.stage = .done → n = microOpsLeft s) ∧ ∀ m < n, ∃ u, runSteps m s = .next u ∧ u.busy = true

theorem EndsInTime.of_callEnded {s : State} (h : s.callEnded = true) : EndsInTime s :=
  ⟨0, s, Nat.zero_le _, rfl, h, fun hs => by simp [microOpsLeft, hs], nofun⟩

/-- One step before a run to the end: it leaves one micro-operation less, or ends the call with an error. -/
theorem EndsInTime.of_step {s t : State} (hb : s.busy = true) (hstep : step s = .next t)
    (hless : t.stage = .error ∨ microOpsLeft s = microOpsLeft t + 1) (ht : EndsInTime t) : EndsInTime s := by
  have hpos := microOpsLeft_pos hb
  rcases hless with he | hless
  · refine ⟨1, t, hpos, runSteps_of_step hstep, by simp [State.callEnded, State.isError, he], by simp [he], fun m hm => ?_⟩
    exact ⟨s, by rw [Nat.lt_one_iff.mp hm, runSteps], hb⟩
  · obtain ⟨n, u, hn, hrun, hend, hdone, hbusy⟩ := ht
    refine ⟨n + 1, u, by omega, (runSteps_of_step hstep).trans hrun, hend, fun hd => by rw [hless, hdone hd], fun m hm => ?_⟩
    cases m with
    | zero => exact ⟨s, rfl, hb⟩
    | succ m =>
      rw [runSteps_of_step hstep]
      exact hbusy m (by omega)

/-- From every stage of an undisturbed call, by induction over the micro-operations left. -/
theorem endsInTime_of_busy {s : State} (h : s.Inv) (hp : s.platform.sideEffects = []) (he : s.events = [])
    (hb : s.busy = true) : EndsInTime s := by
  induction hk : microOpsLeft s using Nat.strong_induction_on generalizing s with
  | _ k ih =>
    obtain ⟨i, hi⟩ := (stageBusy_iff_microOperation s.stage).mp hb
    obtain ⟨t, hx⟩ := microOperation_completes h hp hi
    have hstep := (step_microOperation he hi).trans hx
    have hout := (microEnd_of_exec (hostTx_microOperation hi) hx).outside
    have hless := microOpsLeft_of_exec h hi hx
    refine .of_step hb hstep hless ?_
    rcases busy_or_callEnded_of_exec hi hx with htb | hend
    · have hlt : microOpsLeft t < k := by
        rcases hless with herr | hless
        · simp [State.busy, herr, stageBusy] at htb
        · omega
      exact ih _ hlt (inv_microOperation h hi hx) (by rw [hout.platform, hp]) (by rw [hout.events, he]) htb rfl
    · exact .of_callEnded hend

/-- Settles O55: in VALIDATE 7 + NP + NG micro-operations are left. -/
theorem everyCallEnds : Obligations.EveryCallEnds := by
  intro s h hp he hs
  have hleft : microOpsLeft s = 7 + s.desc.pairs + s.desc.ghashBlocks := by rw [microOpsLeft, hs]
  rw [← hleft]
  exact endsInTime_of_busy h hp he (by rw [State.busy, hs]; rfl)

end Sys2Proof.Machine
end

section
/-! Two runs over different memories (70_reset_and_hazards.md R236, R241): what an instruction does to STATE, the indices and
the error registers is a matter of those, the descriptors and the platform. -/

namespace Sys2Proof.Machine

/-! ## Alike but for data -/

/-- The two states hold the same STATE, indices, error registers, descriptors and platform. -/
structure SameControl (s t : State) : Prop where
  stage : t.stage = s.stage
  pIdx : t.dp.pIdx = s.dp.pIdx
  gIdx : t.dp.gIdx = s.dp.gIdx
  errCode : t.errCode = s.errCode
  errAddr : t.errAddr = s.errAddr
  desc : t.desc = s.desc
  platform : t.platform = s.platform

/-- The two accesses end alike: in values that `R` relates, or in the same stop. -/
inductive Access.Alike {α : Type} (R : α → α → Prop) : Access α → Access α → Prop
  | ok {a b : α} (h : R a b) : Alike R (.ok a) (.ok b)
  | raised {s t : State} (h : SameControl s t) : Alike R (.raised s) (.raised t)
  | fault (why : Fault) : Alike R (.fault why) (.fault why)
  | refused (why : Refusal) : Alike R (.refused why) (.refused why)

/-- The two outcomes are alike. -/
inductive AlikeNext : Result → Result → Prop
  | next {s t : State} (h : SameControl s t) : AlikeNext (.next s) (.next t)
  | fault (why : Fault) : AlikeNext (.fault why) (.fault why)
  | refused (why : Refusal) : AlikeNext (.refused why) (.refused why)

theorem AlikeNext.next_left {s : State} {r : Result} (h : AlikeNext (.next s) r) : ∃ t, r = .next t ∧ SameControl s t := by
  cases h with
  | next hc => exact ⟨_, rfl, hc⟩

theorem Access.Alike.bind {α β : Type} {R : α → α → Prop} {Q : β → β → Prop} {x y : Access α} {f g : α → Access β}
    (h : x.Alike R y) (hfg : ∀ a b, R a b → (f a).Alike Q (g b)) : (x.bind f).Alike Q (y.bind g) := by
  cases h with
  | ok hr => exact hfg _ _ hr
  | raised hc => exact .raised hc
  | fault why => exact .fault why
  | refused why => exact .refused why

theorem Access.Alike.finish {α : Type} {R : α → α → Prop} {x y : Access α} {f g : α → State} (h : x.Alike R y)
    (hfg : ∀ a b, R a b → SameControl (f a) (g b)) : AlikeNext (x.finish f) (y.finish g) := by
  cases h with
  | ok hr => exact .next (hfg _ _ hr)
  | raised hc => exact .next hc
  | fault why => exact .fault why
  | refused why => exact .refused why

section
variable {s t : State} (h : SameControl s t)
include h

theorem SameControl.busy : t.busy = s.busy := by rw [State.busy, h.stage, State.busy]

/-! ## Register updates -/

theorem SameControl.raiseError (code : ErrorCode) (addr : Nat) :
    SameControl (raiseError code addr s) (raiseError code addr t) where
  stage := rfl
  pIdx := rfl
  gIdx := rfl
  errCode := rfl
  errAddr := rfl
  desc := h.desc
  platform := h.platform

theorem SameControl.enterDone : SameControl (enterDone s) (enterDone t) where
  stage := rfl
  pIdx := rfl
  gIdx := rfl
  errCode := h.errCode
  errAddr := h.errAddr
  desc := h.desc
  platform := h.platform

theorem SameControl.advancePair : SameControl (advancePair s) (advancePair t) := by
  refine { h with stage := ?_, pIdx := ?_ } <;> simp only [Machine.advancePair, h.stage, h.pIdx, h.desc]

theorem SameControl.advanceGhash (b c : Block) : SameControl (advanceGhash s b) (advanceGhash t c) := by
  refine { h with stage := ?_, gIdx := ?_ } <;> simp only [Machine.advanceGhash, h.stage, h.gIdx, h.desc]

theorem SameControl.loadLanes : SameControl (loadLanes s) (loadLanes t) := { h with }

theorem SameControl.formTag : SameControl (formTag s) (formTag t) := { h with }

theorem SameControl.completeWrite (addr : Nat) (bytes bytes' : List Byte) :
    SameControl (completeWrite addr bytes s) (completeWrite addr bytes' t) := { h with }

theorem SameControl.drawnWrite (addr : Nat) (bytes bytes' : List Byte) :
    SameControl (drawnWrite addr bytes s) (drawnWrite addr bytes' t) := { h with }

/-! ## Host operations -/

theorem SameControl.commandWrite (value : Word) : SameControl (commandWrite value s) (commandWrite value t) := by
  unfold Machine.commandWrite startCommand clearCommand reservedCommand
  rw [h.busy]
  split_ifs
  · exact h
  · exact { h with }
  · exact { h with stage := rfl, errCode := rfl, errAddr := rfl }
  · exact { h with }
  · exact { h with stage := rfl, errCode := rfl, errAddr := rfl }
  · exact { h with }
  · exact h.raiseError _ _

theorem SameControl.writeDescriptor (reg : HostReg) (value : Word) :
    SameControl (writeDescriptor reg value s) (writeDescriptor reg value t) := by
  unfold Machine.writeDescriptor
  rw [h.busy]
  split_ifs
  · exact h
  · exact { h with desc := congrArg (setDescriptor reg value) h.desc }

theorem SameControl.writeRegister (reg : HostReg) (value : Word) :
    SameControl (writeRegister reg value s) (writeRegister reg value t) := by
  cases reg
  case cmd => exact h.commandWrite value
  case status => exact h
  case errCode => exact h
  case errAddr => exact h
  case irqEn => exact { h with }
  all_goals exact h.writeDescriptor _ value

/-! ## Transactions -/

/-- What stops a transaction is the platform's. -/
theorem guardAccess_alike {α : Type} {R : α → α → Prop} {x y : Access α} (addr n : Nat) (hxy : x.Alike R y) :
    (guardAccess addr n s x).Alike R (guardAccess addr n t y) := by
  unfold guardAccess
  rw [h.platform]
  split_ifs
  · exact .fault _
  · exact .refused _
  · exact hxy

/-- A read of the same bytes: the same number of them, or the same error. -/
theorem memRead_alike (addr n : Nat) :
    (memRead addr n s).Alike (fun p q => q.length = p.length) (memRead addr n t) := by
  refine guardAccess_alike h addr n ?_
  rw [h.platform]
  split_ifs
  · exact .ok (by simp)
  · exact .raised (h.raiseError _ _)

/-- A write of as many bytes. -/
theorem memWrite_alike (addr : Nat) {bytes bytes' : List Byte} (hl : bytes'.length = bytes.length) :
    (memWrite addr bytes s).Alike SameControl (memWrite addr bytes' t) := by
  unfold memWrite
  rw [hl]
  refine guardAccess_alike h addr _ ?_
  rw [h.platform]
  split_ifs
  · exact .ok (h.completeWrite _ _ _)
  · exact .raised ((h.drawnWrite _ _ _).raiseError _ _)

theorem laneStep_alike (i : Nat) (ks ks' : Block) :
    (laneStep memWrite i ks s).Alike SameControl (laneStep memWrite i ks' t) := by
  unfold laneStep
  rw [h.desc]
  split_ifs
  · exact (memRead_alike h _ _).bind fun p q hl => memWrite_alike h _ (by simp [hl])
  · exact .ok h

theorem ghashInput_alike (g : Nat) : (ghashInput g s).Alike (fun _ _ => True) (ghashInput g t) := by
  unfold ghashInput
  rw [h.desc]
  split_ifs
  · exact (memRead_alike h _ _).bind fun _ _ _ => .ok trivial
  · exact (memRead_alike h _ _).bind fun _ _ _ => .ok trivial
  · exact .ok trivial

/-! ## Micro-operations -/

theorem execValidate_alike : AlikeNext (execValidate s) (execValidate t) := by
  unfold execValidate
  rw [h.platform, h.desc]
  split
  · exact .next (h.raiseError _ _)
  · exact .next { h with stage := rfl, desc := rfl, platform := rfl }

theorem execLoad_alike : AlikeNext (execLoad s) (execLoad t) := by
  unfold execLoad
  rw [h.platform, h.desc]
  refine Access.Alike.finish (R := fun _ _ => True) ?_ fun _ _ _ => { h with stage := rfl, desc := rfl, platform := rfl }
  exact (memRead_alike h _ _).bind fun _ _ _ => (memRead_alike h _ _).bind fun _ _ _ => .ok trivial

theorem execBuildJ0_alike : AlikeNext (execBuildJ0 s) (execBuildJ0 t) := by
  unfold execBuildJ0
  rw [h.desc]
  exact .next { h with stage := rfl, pIdx := rfl, desc := rfl }

theorem execKeystreamPair_alike : AlikeNext (execKeystreamPair s) (execKeystreamPair t) := by
  unfold execKeystreamPair laneIndex
  rw [h.pIdx]
  refine Access.Alike.finish (R := SameControl) ?_ fun _ _ hc => hc.advancePair
  exact (laneStep_alike h.loadLanes _ _ _).bind fun _ _ hc => laneStep_alike hc _ _ _

theorem execAccumulate_alike : AlikeNext (execAccumulate s) (execAccumulate t) := by
  unfold execAccumulate
  rw [h.gIdx]
  exact (ghashInput_alike h _).finish fun b c _ => h.advanceGhash b c

theorem execFinalizeTag_alike : AlikeNext (execFinalizeTag s) (execFinalizeTag t) := by
  unfold execFinalizeTag
  rw [h.desc]
  exact (memWrite_alike h.formTag _ (by simp)).finish fun _ _ hc => hc.enterDone

/-- An instruction takes states alike but for data to states alike but for data. -/
theorem exec_alike (i : Instr) : AlikeNext (exec i s) (exec i t) := by
  cases i with
  | regRead reg => exact .next { h with }
  | regWrite reg value => exact .next (h.writeRegister reg value)
  | nop => exact .next h
  | start => exact .next (h.commandWrite 1)
  | clear => exact .next (h.commandWrite 2)
  | cmdReserved _ => exact .next (h.commandWrite 3)
  | validate => exact execValidate_alike h
  | load => exact execLoad_alike h
  | deriveSubkey => exact .next { h with stage := rfl }
  | buildJ0 => exact execBuildJ0_alike h
  | keystreamPair => exact execKeystreamPair_alike h
  | buildGhash => exact .next { h with stage := rfl, gIdx := rfl }
  | accumulate => exact execAccumulate_alike h
  | computeMask => exact .next { h with stage := rfl }
  | finalizeTag => exact execFinalizeTag_alike h

end

/-- Settles O60: memory, the hazard mark and the draws are data. -/
theorem bufferContentsDoNotSteerTheCore : Obligations.BufferContentsDoNotSteerTheCore := by
  intro i s t m z d hx
  have hc : SameControl s { s with mem := m, hazard := z, draws := d } := ⟨rfl, rfl, rfl, rfl, rfl, rfl, rfl⟩
  obtain ⟨u, hu, hstage, hp, hg, hcode, haddr, -, -⟩ := (hx ▸ exec_alike hc i).next_left
  exact ⟨u, hu, hstage, hp, hg, hcode, haddr⟩

end Sys2Proof.Machine
end

section
/-! Reset and the buffer hazard of 70_reset_and_hazards.md: the reset event, the reset input inside a memory write, and another
agent's accesses to the regions of a running call. -/

namespace Sys2Proof.Machine

/-! ## The reset event (70_reset_and_hazards.md R230) -/

/-- Settles O45: the step is the reset of the core. -/
theorem resetEvent : Obligations.ResetEvent := fun _ _ he =>
  ⟨_, step_event he, statusWord_eq_zero rfl rfl, irq_of_not_enabled rfl, rfl⟩

/-! ## Another agent's accesses during a call (70_reset_and_hazards.md R236) -/

/-- A store to a region of a running call changes memory, the draws and the hazard mark alone, and outside the output regions
memory is as the store leaves it. -/
theorem foreignStore_in_region {s : State} {addr : Word} (value : Byte) (hm : s.mem.wf = true) (hb : s.busy = true)
    (hr : ∃ r ∈ callRegions s.platform s.desc, r.has addr.toNat) :
    foreignStore addr value s = { s with
        mem := (foreignStore addr value s).mem, draws := (foreignStore addr value s).draws, hazard := true }
      ∧ ∀ x, ¬ (ctRegion s.desc).has x → ¬ (tagRegion s.desc).has x →
        readByte (foreignStore addr value s).mem x = if addr.toNat = x then value else readByte s.mem x := by
  have hw : (writeByte s.mem addr.toNat value).wf = true := wfFrom_writeByte value hm (Nat.zero_le _) addr.isLt
  rw [foreignStore_hazard hb hr]
  refine ⟨rfl, fun x hc ht => ?_⟩
  rw [spoilOutputs_outside (s := { s with mem := writeByte s.mem addr.toNat value }) hw hc ht, readByte_writeByte _ _ _ hm]

/-- Settles O47: a store to a region spoils the output regions and no register, and what a load of an output byte returns is
drawn between what memory held at START, what it holds and what it will hold (`outputByte_cases`, `laterWrite_run`). -/
theorem bufferHazardSparesTheCore : Obligations.BufferHazardSparesTheCore := by
  refine fun s addr rest hb => ⟨fun value hm he hr => ?_, fun he ho => ?_⟩
  · obtain ⟨hframe, hbytes⟩ := foreignStore_in_region (s := { s with events := rest }) value hm hb hr
    refine ⟨_, step_event he, hframe, fun hc ht => ?_, fun x hx hc ht => ?_⟩
    · rw [hbytes _ hc ht, if_pos rfl]
    · rw [hbytes x hc ht, if_neg hx.symm]
  · have hstep : step s = .next (foreignLoad addr { s with events := rest }) := step_event he
    rw [foreignLoad_output (s := { s with events := rest }) hb ho] at hstep
    refine ⟨_, hstep, rfl, fun hz => ?_⟩
    rcases outputByte_cases (addr := addr.toNat) (s := { s with events := rest }) hz with hold | hnow | hlater
    · exact .inl hold
    · exact .inr (.inl hnow)
    · exact .inr (.inr (laterWrite_run _ hlater))

/-! ## The reset input inside a memory write (70_reset_and_hazards.md R231) -/

/-- The accesses before the reset end well or in an error, and either way the core is reset. -/
theorem resetAfter_eq_next {x : Access State} {t : State} (h : resetAfter x = .next t) :
    ∃ v, (x = .ok v ∨ x = .raised v) ∧ t = resetCore v := by
  unfold resetAfter at h
  split at h <;> cases h
  · exact ⟨_, .inl rfl, rfl⟩
  · exact ⟨_, .inr rfl, rfl⟩

theorem cutMicroOperation_keystream {lane : Fin 2} {s : State} (h : s.stage = .keystream) :
    cutMicroOperation lane s = cutKeystream lane s := if_pos h

theorem cutMicroOperation_finalizeTag {lane : Fin 2} {s : State} (h : s.stage = .finalizeTag) :
    cutMicroOperation lane s = cutFinalizeTag s := by
  rw [cutMicroOperation, if_neg (by simp [h]), if_pos h]

/-- In a stage that writes no memory the reset cuts nothing (20_memory.md R70). -/
theorem cutMicroOperation_other {lane : Fin 2} {s : State} (hk : s.stage ≠ .keystream) (ht : s.stage ≠ .finalizeTag) :
    cutMicroOperation lane s = .ok s := by
  rw [cutMicroOperation, if_neg hk, if_neg ht]

/-- A tag write that the platform answers, cut short: each byte of the tag region is the old one or the one of T. -/
theorem resetInWrite_finalizeTag (lane : Fin 2) {s : State} (hm : s.mem.wf = true) (hs : s.stage = .finalizeTag)
    (hz : s.hazard = false)
    (hw : transactionOk s.platform s.desc.tagAddr.toNat 16 .write = true
      ∨ transactionDenied s.platform s.desc.tagAddr.toNat 16 .write = true) :
    ∃ v, resetInWrite lane s = .next (resetCore v) ∧ SameOutside s v
      ∧ (∀ x, ¬ (tagRegion s.desc).has x → readByte v.mem x = readByte s.mem x)
      ∧ ∀ k < 16, readByte v.mem (s.desc.tagAddr.toNat + k) = readByte s.mem (s.desc.tagAddr.toNat + k)
        ∨ readByte v.mem (s.desc.tagAddr.toNat + k) = blockByte (s.dp.y ^^^ s.dp.m) k := by
  obtain ⟨ha, hcut⟩ := cutWrite_answered (bytes := bytesOfBlock (s.dp.y ^^^ s.dp.m)) (s := formTag s)
    (by rwa [length_bytesOfBlock])
  refine ⟨_, congrArg resetAfter ((cutMicroOperation_finalizeTag hs).trans hcut),
    ⟨rfl, rfl, rfl, rfl, rfl, rfl, rfl, rfl, rfl⟩, fun x hx => ?_, fun k hk => ?_⟩
  · exact drawnWrite_outside (s := formTag s) hm ha (by rwa [length_bytesOfBlock])
  · have hk' : k < (bytesOfBlock (s.dp.y ^^^ s.dp.m)).length := by rwa [length_bytesOfBlock]
    rw [← getElem_bytesOfBlock _ k hk']
    exact drawnWrite_inside (s := formTag s) hm hz ha hk'

/-- KEYSTREAM up to the cut, where the accesses before it complete: memory then holds the ciphertext of the pair's blocks
before the lane's own. -/
theorem cutKeystream_before {s : State} {lane : Fin 2} (hm : s.mem.wf = true) (hz : s.hazard = false)
    (hi : 2 * s.dp.pIdx.toNat + lane.val < s.desc.ptBlocks)
    (h0 : lane = 1 → transactionOk s.platform (s.desc.ptAddr.toNat + 16 * (2 * s.dp.pIdx.toNat)) 16 .read = true
      ∧ transactionOk s.platform (s.desc.ctAddr.toNat + 16 * (2 * s.dp.pIdx.toNat)) 16 .write = true) :
    ∃ m : Memory, m.wf = true
      ∧ cutKeystream lane s = laneStep cutWrite (2 * s.dp.pIdx.toNat + lane.val)
          (keystreamBlock Config.encrypt s.dp.keyr s.dp.j0 (2 * s.dp.pIdx.toNat + lane.val)) (duringPair s m)
      ∧ Encrypts s.desc (keystreamByte Config.encrypt s.dp.keyr s.dp.j0) s.mem (16 * (2 * s.dp.pIdx.toNat))
          (16 * (2 * s.dp.pIdx.toNat + lane.val)) m := by
  match lane with
  | 0 => exact ⟨s.mem, hm, rfl, fun x => (if_neg (by simp only [Fin.val_zero]; omega)).symm⟩
  | 1 =>
    have hfull : blockLen s.desc.ptLen.toNat (2 * s.dp.pIdx.toNat) = 16 := blockLen_full hi
    have hend := blockLen_end (len := s.desc.ptLen.toNat) hi
    simp only [Fin.val_one] at hend ⊢
    obtain ⟨m, hlane, hm', he⟩ := lane_encrypts (i := 2 * s.dp.pIdx.toNat) hm hz fun _ => hfull.symm ▸ h0 rfl
    rw [Nat.min_eq_left (by omega), Nat.min_eq_left (by omega)] at he
    exact ⟨m, hm', congrArg (Access.bind · _) hlane, he⟩

/-- A ciphertext write that the platform answers, cut short, over the memory `m` that the accesses before it left: each byte of
the lane's block is the old one or the plaintext XOR the keystream. -/
theorem resetInWrite_keystream {s : State} {lane : Fin 2} {i : Nat} (hi : i = 2 * s.dp.pIdx.toNat + lane.val)
    (hm : s.mem.wf = true) (hs : s.stage = .keystream) (hz : s.hazard = false) (hlt : i < s.desc.ptBlocks)
    (h0 : lane = 1 → transactionOk s.platform (s.desc.ptAddr.toNat + 16 * (2 * s.dp.pIdx.toNat)) 16 .read = true
      ∧ transactionOk s.platform (s.desc.ctAddr.toNat + 16 * (2 * s.dp.pIdx.toNat)) 16 .write = true)
    (hr : transactionOk s.platform (s.desc.ptAddr.toNat + 16 * i) (blockLen s.desc.ptLen.toNat i) .read = true)
    (hw : transactionOk s.platform (s.desc.ctAddr.toNat + 16 * i) (blockLen s.desc.ptLen.toNat i) .write = true
      ∨ transactionDenied s.platform (s.desc.ctAddr.toNat + 16 * i) (blockLen s.desc.ptLen.toNat i) .write = true) :
    ∃ (m : Memory) (v : State), resetInWrite lane s = .next (resetCore v) ∧ SameOutside s v
      ∧ Encrypts s.desc (keystreamByte Config.encrypt s.dp.keyr s.dp.j0) s.mem (16 * (2 * s.dp.pIdx.toNat)) (16 * i) m
      ∧ (∀ x, ¬ (s.desc.ctAddr.toNat + 16 * i ≤ x ∧ x < s.desc.ctAddr.toNat + 16 * i + blockLen s.desc.ptLen.toNat i) →
        readByte v.mem x = readByte m x)
      ∧ ∀ k < blockLen s.desc.ptLen.toNat i,
        readByte v.mem (s.desc.ctAddr.toNat + 16 * i + k) = readByte m (s.desc.ctAddr.toNat + 16 * i + k)
        ∨ readByte v.mem (s.desc.ctAddr.toNat + 16 * i + k)
          = readByte m (s.desc.ptAddr.toNat + 16 * i + k)
            ^^^ blockByte (keystreamBlock Config.encrypt s.dp.keyr s.dp.j0 i) k := by
  subst hi
  obtain ⟨m, hmwf, hcut, he⟩ := cutKeystream_before hm hz hlt h0
  have hlen := length_laneBytes (duringPair s m) (2 * s.dp.pIdx.toNat + lane.val)
    (keystreamBlock Config.encrypt s.dp.keyr s.dp.j0 (2 * s.dp.pIdx.toNat + lane.val))
  obtain ⟨ha, hdrawn⟩ := cutWrite_answered (s := duringPair s m) (hlen ▸ hw)
  have hlane := hcut.trans ((laneStep_read (s := duringPair s m) hlt hr).trans hdrawn)
  refine ⟨m, _, congrArg resetAfter ((cutMicroOperation_keystream hs).trans hlane),
    (sameOutside_duringPair s m).trans (sameOutside_drawnWrite _ _ _), he, fun x hx => ?_, fun k hk => ?_⟩
  · exact drawnWrite_outside (s := duringPair s m) hmwf ha (by rwa [hlen])
  · have hk' := hlen ▸ hk
    have hnew := getElem_laneBytes (duringPair s m) _ _ k hk'
    exact hnew ▸ drawnWrite_inside (s := duringPair s m) hmwf hz ha hk'

/-- Whatever became of the accesses before the cut, KEYSTREAM leaves every byte outside the ciphertext region, and the core is
reset. -/
theorem resetInWrite_keystream_outside {s t : State} {lane : Fin 2} (hm : s.mem.wf = true) (hs : s.stage = .keystream)
    (h : resetInWrite lane s = .next t) :
    ∃ v, t = resetCore v ∧ SameOutside s v ∧ ∀ x, ¬ (ctRegion s.desc).has x → readByte v.mem x = readByte s.mem x := by
  obtain ⟨v, hcut, ht⟩ := resetAfter_eq_next h
  refine ⟨v, ht, (cutMicroOperation_cases hcut).1, fun x hx => ?_⟩
  rw [cutMicroOperation_keystream hs] at hcut
  exact cutKeystream_outside hcut hm hx

/-- Settles O46, stage by stage: the write that is cut is a draw per byte over the memory the accesses before it left, and the
core is reset. -/
theorem resetInsideAWrite : Obligations.ResetInsideAWrite := by
  intro s lane rest hm he tag i n rd0 wr0 rd wr ks isReset
  have hstep : step s = resetInWrite lane { s with events := rest } := step_event he
  have reset : ∀ v, SameOutside { s with events := rest } v → isReset (resetCore v) := fun _ => resetCore_eq
  rw [hstep]
  refine ⟨fun hs hz hw => ?_, fun hs hz hvalid hi h0 hr hw => ?_, fun hs t ht => ?_, fun hk ht => ?_⟩
  · obtain ⟨v, hnext, ho, hbytes⟩ := resetInWrite_finalizeTag lane (s := { s with events := rest }) hm hs hz hw
    exact ⟨_, hnext, reset v ho, hbytes⟩
  · have hv := validationError_eq_none.mp hvalid
    have hend : 16 * i + n ≤ s.desc.ptLen.toNat := blockLen_end hi
    obtain ⟨m, v, hnext, ho, henc, hout, hin⟩ :=
      resetInWrite_keystream (i := i) (s := { s with events := rest }) rfl hm hs hz hi h0 hr hw
    dsimp only at henc hout hin
    refine ⟨_, hnext, reset v ho, fun hl k hk => ?_, fun k hk => ?_, fun x hx => ?_⟩
    · have hi1 : i = 2 * s.dp.pIdx.toNat + 1 := by simp only [i, hl, Fin.val_one]
      have hblock := henc.inside (t := 16 * (2 * s.dp.pIdx.toNat) + k) (by omega) (by omega)
      rw [keystreamByte_block _ _ _ _ hk, ← Nat.add_assoc, ← Nat.add_assoc] at hblock
      exact (hout _ (by omega)).trans hblock
    · have hold := henc.outside (x := wr + k) (by omega)
      have hplain := henc.plaintext hv (t := 16 * i + k) (by omega) (by omega)
      rw [← hold, Nat.add_assoc s.desc.ptAddr.toNat, ← hplain, ← Nat.add_assoc]
      exact hin k hk
    · exact (hout x (by omega)).trans (henc.outside (by omega))
  · obtain ⟨v, rfl, ho, hout⟩ := resetInWrite_keystream_outside (s := { s with events := rest }) hm hs ht
    exact ⟨reset v ho, hout⟩
  · exact congrArg resetAfter (cutMicroOperation_other (s := { s with events := rest }) hk ht)

end Sys2Proof.Machine
end

section
/-! The words of 95_test_vectors.md section 2.1: each is built from its fields, and the decoder's lemmas answer for those. -/

namespace Sys2Proof

theorem decodeHosttx_hosttxWord_misaligned {o : BitVec 7} (h : o.extractLsb' 0 3 ≠ 0) (we : Bool) (v : Word) :
    decodeHosttx (hosttxWord we o v) = .rejected (if we then .misalignedWrite else .misalignedRead) := by
  rw [decodeHosttx_of_misaligned (by rwa [hosttxOffset_hosttxWord]), hosttxWe_hosttxWord]

/-- Settles O7, row by row: E-1, E-4, E-3, E-6, E-9, E-10 and E-13 of the table, each by the rule of its kind of transaction. -/
theorem specWordsDecode : Obligations.SpecWordsDecode :=
  ⟨decodeHosttx_read .status 0,
    decodeHosttx_read .tagCap 0,
    decodeHosttx_hosttxWord_misaligned (o := 9) (by decide) false 0,
    decodeHosttx_commandTx 1,
    (decodeHosttx_commandTx 0x100).trans (congrArg _ (decodeCmd_of_not_named (not_named_of_two_lt (by decide)))),
    decodeHosttx_hosttxWord_misaligned (o := 1) (by decide) true 1,
    decodeHosttx_write (r := .ptLen) (by decide) 60⟩

end Sys2Proof
end
